-- ==== Sys2Proof/Word.lean ====
section
/-! DEFINITION. The word types of the core, the two floating formats by name, and integers and reals with the two infinities. -/

namespace Sys2Proof

/-- A 64-bit register, operand or result (10_state.md R20). -/
abbrev Word := BitVec 64

/-- A 32-bit command word (30_encoding.md R70). -/
abbrev CmdWord := BitVec 32

/-- One byte of BUF (10_state.md R38). -/
abbrev Byte := BitVec 8

/-- The floating formats: `S` is binary32 and `D` is binary64 (00_scope.md R9). -/
inductive Fmt where
  | S
  | D
deriving DecidableEq, Repr

/-- A number or one of the infinities, `-∞ < every number < +∞` (00_scope.md R14). -/
inductive Ext (α : Type) where
  | negInf
  | fin (a : α)
  | posInf
deriving DecidableEq, Repr

end Sys2Proof
end

