-- ==== Sys2Proof/Config.lean ====
section
/-! DEFINITION. What an instance of the core fixes (00_scope.md R5 to R8) and the values the spec leaves free. -/

namespace Sys2Proof

/-- The width `W` of the clamp range, 32 or 64 (00_scope.md R5). -/
inductive ScaledWidth where
  | w32
  | w64
deriving DecidableEq, Repr

/-- The tie rule of `roundInt` (00_scope.md R6). -/
inductive RoundMode where
  | tiesEven
  | tiesAway
deriving DecidableEq, Repr

/-- The parameters of an instance (00_scope.md R5 to R7), which PARAMS reports (10_state.md R37). -/
structure Params where
  w         : ScaledWidth
  roundMode : RoundMode
  bufBytes  : Nat
deriving DecidableEq, Repr

/-- `W` as a number of bits (00_scope.md R5). -/
def ScaledWidth.bits : ScaledWidth → Nat
  | .w32 => 32
  | .w64 => 64

/-- The instance of `State.reset`: the spec's reference values of `W` and `ROUND_MODE`, and
`BUF_BYTES = 16`, the size the spec's programs use. DESIGN CHOICE, log 1: the spec leaves
`BUF_BYTES` open. Unsafe: a claim about `State.reset` alone is about this instance alone. -/
def Params.reference : Params := { w := .w64, roundMode := .tiesEven, bufBytes := 16 }

namespace Config

/-- `SCALE_MAX = 2^63 - 1`, the largest scale (00_scope.md R8). -/
def scaleMax : Int := 2 ^ 63 - 1

/-- The version PARAMS reports (00_scope.md R1, 10_state.md R37). -/
def version : Nat := 1

/-- The host offset of byte 0 of BUF (20_memory.md R54). -/
def bufBase : Nat := 0x1000

/-- The free value of byte `i` of BUF after reset number `epoch`: any byte, each independently
(10_state.md R38, 70_reset_and_hazards.md R230 and R231). Log 3. Safe: nothing constrains it. -/
opaque resetByte (epoch i : Nat) : Byte

/-- The free value number `k` that a HOST read returns where the spec says "any value"
(70_reset_and_hazards.md R236, 20_memory.md R56). Log 4. Safe: nothing constrains it. -/
opaque freeRead (k : Nat) : Word

end Config

end Sys2Proof
end

