-- ==== Sys2Proof/Syntax.lean ====
section
/-! DEFINITION. The command set of 30_encoding.md R74: one constructor per row of spec/opcode_table.json. A command has no operand field: its one operand is the latched PENDING.opa (30_encoding.md R73). -/

namespace Sys2Proof

/-- The 16 commands, in the table's order (30_encoding.md R74). -/
inductive Instr where
  | setprec
  | quantS
  | quantD
  | dequantS
  | dequantD
  | estClr
  | estAccS
  | estAccD
  | estFinS
  | estFinD
  | setbw
  | bufclr
  | setwcur
  | pack
  | setrcur
  | unpack
deriving DecidableEq, Repr

end Sys2Proof
end

