-- ==== Sys2Proof/WellFormed.lean ====
section
/-! DEFINITION. Well-formedness of what can be ill-formed: the fields of a raw command word (30_encoding.md R71, R74) and the parameters of an instance (00_scope.md R7). An `Instr` has no field, so every `Instr` is well-formed. -/

namespace Sys2Proof

/-- The fields of a command word, as 30_encoding.md R71 lays them out. -/
structure CmdFields where
  opc : BitVec 8
  f   : BitVec 1
  rsv : BitVec 23
deriving DecidableEq, Repr

/-- The fields of a word: OPC is bits 7:0, F is bit 8, RSV is bits 31:9 (30_encoding.md R71). -/
def CmdFields.ofWord (w : CmdWord) : CmdFields :=
  { opc := w.extractLsb' 0 8, f := w.extractLsb' 8 1, rsv := w.extractLsb' 9 23 }

/-- The word with these fields (30_encoding.md R71). -/
def CmdFields.toWord (c : CmdFields) : CmdWord := c.rsv ++ c.f ++ c.opc

/-- RSV must be 0 (30_encoding.md R71). -/
def CmdFields.rsvOk (c : CmdFields) : Bool := c.rsv == 0

/-- The OPC values that are operations of version 1 (30_encoding.md R74, R76). -/
def CmdFields.opcOk (c : CmdFields) : Bool :=
  [0x01, 0x02, 0x03, 0x10, 0x11, 0x12, 0x13, 0x20, 0x21, 0x22, 0x30, 0x31].contains c.opc

/-- F is 0, or 1 for an operation that has a D form (30_encoding.md R71, R72). -/
def CmdFields.fOk (c : CmdFields) : Bool :=
  c.f == 0 || [0x02, 0x03, 0x11, 0x12].contains c.opc

/-- A command word is legal when its three fields are (30_encoding.md R75). -/
def CmdFields.wf (c : CmdFields) : Bool := c.rsvOk && c.opcOk && c.fOk

/-- `BUF_BYTES` is in `[1, 2^32 - 1]` (00_scope.md R7). -/
abbrev Params.wf (p : Params) : Prop := 1 ≤ p.bufBytes ∧ p.bufBytes < 2 ^ 32

end Sys2Proof
end

