-- ==== Sys2Proof/Decode.lean ====
section
/-! DEFINITION. Decoding a command word by comparing it whole with the 16 words of 30_encoding.md R74 (R75), total, rejecting by name; and after it the encoder, from the OPC and F columns of R74 and the layout of R71. -/

namespace Sys2Proof

/-- Why a word is no command: the first field that makes it illegal (30_encoding.md R75, R76).
Every rejection is the one fault ILLEGAL_COMMAND; the names are the model's (log 17). -/
inductive Reject where
  /-- a bit of RSV is set -/
  | reservedBits
  /-- the OPC value is reserved for future versions -/
  | reservedOpcode
  /-- F is 1 with an OPC that has no D form -/
  | noDoubleForm
deriving DecidableEq, Repr

/-- The `word` and `mnemonic` columns of the table of 30_encoding.md R74. -/
def commandTable : List (CmdWord × Instr) :=
  [ (0x00000001, .setprec),
    (0x00000002, .quantS),
    (0x00000102, .quantD),
    (0x00000003, .dequantS),
    (0x00000103, .dequantD),
    (0x00000010, .estClr),
    (0x00000011, .estAccS),
    (0x00000111, .estAccD),
    (0x00000012, .estFinS),
    (0x00000112, .estFinD),
    (0x00000013, .setbw),
    (0x00000020, .bufclr),
    (0x00000021, .setwcur),
    (0x00000022, .pack),
    (0x00000030, .setrcur),
    (0x00000031, .unpack) ]

/-- The first row of a table whose word is `w`. -/
def lookupCommand (w : CmdWord) : List (CmdWord × Instr) → Option Instr
  | [] => none
  | (v, i) :: rows => if v = w then some i else lookupCommand w rows

/-- The name of the rejection of an illegal word (log 17). -/
def rejectionOf (w : CmdWord) : Reject :=
  let c := CmdFields.ofWord w
  if c.rsvOk = false then .reservedBits
  else if c.opcOk = false then .reservedOpcode
  else .noDoubleForm

/-- "The CORE compares the whole 32-bit word with the 16 words of rule R74" (30_encoding.md R75). -/
def decode (w : CmdWord) : Except Reject Instr :=
  match lookupCommand w commandTable with
  | some i => .ok i
  | none => .error (rejectionOf w)

/-- The OPC column of the table of 30_encoding.md R74. -/
def Instr.opc : Instr → BitVec 8
  | .setprec => 0x01
  | .quantS => 0x02
  | .quantD => 0x02
  | .dequantS => 0x03
  | .dequantD => 0x03
  | .estClr => 0x10
  | .estAccS => 0x11
  | .estAccD => 0x11
  | .estFinS => 0x12
  | .estFinD => 0x12
  | .setbw => 0x13
  | .bufclr => 0x20
  | .setwcur => 0x21
  | .pack => 0x22
  | .setrcur => 0x30
  | .unpack => 0x31

/-- The F column of the table of 30_encoding.md R74. -/
def Instr.fBit : Instr → BitVec 1
  | .quantD => 1
  | .dequantD => 1
  | .estAccD => 1
  | .estFinD => 1
  | .setprec => 0
  | .quantS => 0
  | .dequantS => 0
  | .estClr => 0
  | .estAccS => 0
  | .estFinS => 0
  | .setbw => 0
  | .bufclr => 0
  | .setwcur => 0
  | .pack => 0
  | .setrcur => 0
  | .unpack => 0

/-- The fields of a command's word, RSV being 0 (30_encoding.md R71). -/
def Instr.fields (i : Instr) : CmdFields := { opc := i.opc, f := i.fBit, rsv := 0 }

/-- The command word of a command (30_encoding.md R71, R74). -/
def encode (i : Instr) : CmdWord := i.fields.toWord

/-- The host's view of the decoder: the command whose word has the table bits `w`. A command is one
32-bit word (30_encoding.md R70), so more than 32 bits are no command, and bits above `nbits` are 0. -/
def decodeTableWord (nbits w : Nat) : Option Instr :=
  if nbits ≤ 32 then
    match decode (BitVec.ofNat 32 (w % 2 ^ nbits)) with
    | .ok i => some i
    | .error _ => none
  else none

end Sys2Proof
end

