-- ==== Sys2Proof/Machine/State.lean ====
section
/-! DEFINITION. The state of the machine: the tuple of 10_state.md R20, the instance's parameters, and the HOST's side of a run as plain data. -/

namespace Sys2Proof.Machine

/-- PENDING, the latched command: `1 + 32 + 64` bits (10_state.md R20, R23). -/
structure Pending where
  valid : Bool
  word  : CmdWord
  opa   : Word
deriving DecidableEq, Repr

/-- The unit of a HOST access through the window, in bytes (20_memory.md R55). -/
inductive AccessSize where
  | one
  | two
  | four
  | eight
deriving DecidableEq, Repr

/-- The HOST's transactions (00_scope.md R17) and the unit accesses of 20_memory.md R55. Offsets are
window offsets, `i` is a BUF index. -/
inductive HostTxn where
  /-- `HostWrite(off, v)` -/
  | write (off : Nat) (v : Word)
  /-- `HostRead(off)` -/
  | read (off : Nat)
  /-- `HostBufWrite(i, byte)` -/
  | bufWrite (i : Nat) (b : Byte)
  /-- `HostBufRead(i)` -/
  | bufRead (i : Nat)
  /-- a write of the low `n` bytes of `v` at a window offset -/
  | busWrite (off : Nat) (n : AccessSize) (v : Word)
  /-- a read of `n` bytes at a window offset -/
  | busRead (off : Nat) (n : AccessSize)
  /-- `Reset` -/
  | reset
deriving DecidableEq, Repr

/-- One turn of a run (20_memory.md R60): which agent moves next. Log 2. -/
inductive Turn where
  /-- the HOST performs one transaction -/
  | host (t : HostTxn)
  /-- the CORE takes its step, if a command is pending -/
  | core
  /-- the pseudo-instruction `wait` (30_encoding.md R80): the HOST polls STATUS until BUSY is 0;
  `polls` is how many polls find BUSY = 1 before the CORE takes its step (the latency, which
  70_reset_and_hazards.md R237 leaves finite and unspecified) -/
  | wait (polls : Nat)
deriving DecidableEq, Repr

/-- What one HOST read returned: the transaction and its value, zero-extended. -/
structure Observation where
  txn   : HostTxn
  value : Word
deriving DecidableEq, Repr

/-- The state of the machine (10_state.md R20), the parameters of the instance (log 1), and the HOST's
side of the run (logs 2, 4, 13). STATUS.BUSY is `pending.valid` (R25), stored once. -/
structure State where
  /-- the parameters PARAMS reports (R37); no step changes them -/
  params   : Params
  /-- PENDING (R23) -/
  pending  : Pending
  /-- OPA (R21) -/
  opa      : Word
  /-- RESULT (R22) -/
  result   : Word
  /-- STATUS.ERR (R26) -/
  err      : Bool
  /-- STATUS.SAT (R28) -/
  sat      : Bool
  /-- STATUS.OVRN (R29) -/
  ovrn     : Bool
  /-- STATUS.CAUSE (R27) -/
  cause    : BitVec 4
  /-- STEP, a binary64 pattern (R31) -/
  stepReg  : Word
  /-- SCALE (R32) -/
  scale    : Word
  /-- BW, bits 6:0 (R34) -/
  bw       : BitVec 7
  /-- MAXABS, a binary64 pattern (R33) -/
  maxabs   : Word
  /-- WCUR (R35) -/
  wcur     : Word
  /-- RCUR (R36) -/
  rcur     : Word
  /-- the bytes of BUF written since the last reset, by index (R38; log 3) -/
  buf      : List Host.Cell
  /-- how many resets there were: the index of the free bytes of BUF (log 3) -/
  bufEpoch : Nat
  /-- how many free read values were drawn (log 4) -/
  fresh    : Nat
  /-- the turns to come (log 2) -/
  agenda   : List Turn
  /-- what the HOST's reads returned, newest first (log 13) -/
  observed : List Observation
deriving DecidableEq, Repr

/-- The reasons the machine stops with a fault: NONE. A fault of the spec is recorded in STATUS and
the machine goes on (60_exceptions.md R203), so it is a next state. -/
inductive Fault where
deriving DecidableEq, Repr

/-- The reasons a step is refused. -/
inductive Refusal where
  /-- Raised by an arm of `exec` whose command has no meaning yet; no arm raises it. Safe. -/
  | notModelled (mnemonic : String)
deriving DecidableEq, Repr

/-- The machine right after reset (70_reset_and_hazards.md R230), of the reference instance (log 1):
every register 0, STATUS 0, PENDING invalid, no byte of BUF listed (each is a free value, log 3), the
HOST with no transaction to make (log 2). -/
def State.reset : State :=
  { params := Params.reference
    pending := { valid := false, word := 0, opa := 0 }
    opa := 0
    result := 0
    err := false
    sat := false
    ovrn := false
    cause := 0
    stepReg := 0
    scale := 0
    bw := 0
    maxabs := 0
    wcur := 0
    rcur := 0
    buf := []
    bufEpoch := 0
    fresh := 0
    agenda := []
    observed := [] }

end Sys2Proof.Machine
end

