-- ==== Sys2Proof/Machine/Ops.lean ====
section
/-! DEFINITION. The shared operations: BUF by byte and by bit (20_memory.md R50 to R53), completing a command and taking a fault (10_state.md R23, 60_exceptions.md R203), fault return (R205), and reset (70_reset_and_hazards.md R230). -/

namespace Sys2Proof.Machine

/-- The bytes of BUF written since the last reset, by index. -/
abbrev Memory := List Host.Cell

/-- The canonical form for a buffer of `n` bytes: indices strictly rising and inside the buffer. An
unlisted byte has no value here (it is the free value of the last reset, log 3), so no entry repeats
what an unlisted byte reads as. -/
abbrev Memory.wf (n : Nat) (m : Memory) : Prop :=
  m.Pairwise (fun c d => c.1 < d.1) ∧ ∀ c ∈ m, c.1 < n

/-- The byte listed at index `i`, if any. -/
def Memory.get : Memory → Nat → Option Byte
  | [], _ => none
  | (a, b) :: m, i => if a = i then some b else Memory.get m i

/-- Writes byte `i`, keeping the canonical form. -/
def Memory.set : Memory → Nat → Byte → Memory
  | [], i, v => [(i, v)]
  | (a, b) :: m, i, v =>
    if i < a then (i, v) :: (a, b) :: m
    else if i = a then (i, v) :: m
    else (a, b) :: Memory.set m i v

/-- A buffer of `n` zero bytes. -/
def Memory.zero (n : Nat) : Memory := (List.range n).map (fun i => (i, 0))

/-- `BUF[i]` (10_state.md R38): the byte written there since the last reset, or else the free value
that reset left there (log 3). -/
def State.bufByte (s : State) (i : Nat) : Byte :=
  match Memory.get s.buf i with
  | some b => b
  | none => Config.resetByte s.bufEpoch i

/-- `BUF[i] <- b`. -/
def State.setBufByte (s : State) (i : Nat) (b : Byte) : State :=
  { s with buf := Memory.set s.buf i b }

/-- `BufBit(i)` (20_memory.md R51). -/
def State.bufBit (s : State) (i : Nat) : Bool := (s.bufByte (i / 8)).getLsbD (i % 8)

/-- `SetBufBit(i)` (20_memory.md R51, R52). -/
def State.setBufBit (s : State) (i : Nat) : State :=
  s.setBufByte (i / 8) (s.bufByte (i / 8) ||| (1#8 <<< (i % 8)))

/-- Writes the first `n` bits of the field `fld` at bit cursor `c`, lowest first; a zero bit writes
nothing (20_memory.md R52, R53, 43_bit_packer.md R153). -/
def State.setField (s : State) (c fld : Nat) : Nat → State
  | 0 => s
  | n + 1 =>
    let t := State.setField s c fld n
    if fld.testBit n then t.setBufBit (c + n) else t

/-- The first `n` bits at bit cursor `c` as a number, lowest first (20_memory.md R53,
44_bit_unpacker.md R172). -/
def State.field (s : State) (c : Nat) : Nat → Nat
  | 0 => 0
  | n + 1 => State.field s c n + (if s.bufBit (c + n) then 2 ^ n else 0)

/-- `MemRead(addr, n)`: `n` bytes, little-endian (20_memory.md R53). -/
def State.memRead (s : State) (addr : Nat) : Nat → Nat
  | 0 => 0
  | n + 1 => State.memRead s addr n + (s.bufByte (addr + n)).toNat * 2 ^ (8 * n)

/-- `MemWrite(addr, n, v)`: `BUF[addr + k] <- v[8k+7:8k]` for `k < n` (20_memory.md R53). -/
def State.memWrite (s : State) (addr : Nat) (v : Word) : Nat → State
  | 0 => s
  | n + 1 => (State.memWrite s addr v n).setBufByte (addr + n) (v.extractLsb' (8 * n) 8)

/-- `8 × BUF_BYTES`, the size of the bit space (20_memory.md R50). -/
def State.bitSpace (s : State) : Nat := 8 * s.params.bufBytes

/-- STATUS.BUSY, which equals PENDING.valid at every instant (10_state.md R25). -/
def State.busy (s : State) : Bool := s.pending.valid

/-- The fault codes by name (60_exceptions.md R201). -/
inductive Cause where
  | illegalCommand
  | stepInvalid
  | precisionOverflow
  | scaleZero
  | noScale
  | nanInput
  | badWidth
  | bounds
deriving DecidableEq, Repr

/-- The code column of 60_exceptions.md R201. -/
def Cause.code : Cause → BitVec 4
  | .illegalCommand => 0x1
  | .stepInvalid => 0x2
  | .precisionOverflow => 0x3
  | .scaleZero => 0x4
  | .noScale => 0x5
  | .nanInput => 0x6
  | .badWidth => 0x7
  | .bounds => 0x8

/-- The end of a command: PENDING.valid and with it STATUS.BUSY become 0 (10_state.md R23). PENDING's
word and operand keep their bits, which nothing reads (log 5). -/
def State.finish (s : State) : State := { s with pending := { s.pending with valid := false } }

/-- TAKING A FAULT (60_exceptions.md R203): ERR, CAUSE and PENDING.valid, and nothing else. -/
def State.takeFault (s : State) (c : Cause) : State :=
  { s.finish with err := true, cause := c.code }

/-- FAULT RETURN (60_exceptions.md R205): ERR and CAUSE become 0; nothing is restored. -/
def State.clearFault (s : State) : State := { s with err := false, cause := 0 }

/-- The one atomic step of a command (10_state.md R23, 60_exceptions.md R203): either all its effects,
or the fault it raises and none of them. -/
def State.commit (s : State) (r : Except Cause State) : Host.Outcome State Fault Refusal :=
  match r with
  | .ok t => .next t.finish
  | .error c => .next (s.takeFault c)

/-- RESET (70_reset_and_hazards.md R230, R231): every register at its reset value, PENDING abandoned,
every byte of BUF a new free value (log 3). The parameters are constants, and the HOST's side of the
run is not reset (log 2). -/
def State.resetCore (s : State) : State :=
  { s with
    pending := { valid := false, word := 0, opa := 0 }
    opa := 0
    result := 0
    err := false
    sat := false
    ovrn := false
    cause := 0
    stepReg := 0
    scale := 0
    bw := 0
    maxabs := 0
    wcur := 0
    rcur := 0
    buf := []
    bufEpoch := s.bufEpoch + 1 }

end Sys2Proof.Machine
end

