-- ==== Sys2Proof/Machine/Flags.lean ====
section
/-! DEFINITION. STATUS: its word (10_state.md R24), the flags a command or a HOST write sets (R28, R29), and the write-1-to-clear of the HOST (R30); and the PARAMS word (R37). -/

namespace Sys2Proof.Machine

/-- The STATUS register as the HOST reads it: CAUSE in bits 11:8, OVRN, SAT, ERR and BUSY in bits 3 to
0, every other bit 0 (10_state.md R24, R25). -/
def State.statusWord (s : State) : Word :=
  (0#52 ++ s.cause ++ 0#4 ++ BitVec.ofBool s.ovrn ++ BitVec.ofBool s.sat ++ BitVec.ofBool s.err
    ++ BitVec.ofBool s.busy : BitVec 64)

/-- The SAT effect of a clamp: set when the clamp changed its value, never cleared (10_state.md R28). -/
def State.noteSat (s : State) (clamped : Bool) : State := { s with sat := s.sat || clamped }

/-- The OVRN effect of a write ignored because BUSY is 1 (10_state.md R29). -/
def State.noteOverrun (s : State) : State := { s with ovrn := true }

/-- A HOST write of `v` to STATUS while BUSY is 0: each of ERR (with CAUSE), SAT and OVRN is cleared if
its bit of `v` is 1, and every other bit of `v` is ignored (10_state.md R30, 60_exceptions.md R205). -/
def State.ackStatus (s : State) (v : Word) : State :=
  let s := if v.getLsbD 1 then s.clearFault else s
  let s := if v.getLsbD 2 then { s with sat := false } else s
  if v.getLsbD 3 then { s with ovrn := false } else s

/-- PARAMS.RM (10_state.md R37). -/
def roundModeBit : RoundMode → Bool
  | .tiesEven => false
  | .tiesAway => true

/-- The PARAMS register: VERSION in bits 63:56, bits 55:41 zero, RM in bit 40, W in bits 39:32,
BUF_BYTES in bits 31:0 (10_state.md R37). -/
def State.paramsWord (s : State) : Word :=
  (BitVec.ofNat 8 Config.version ++ 0#15 ++ BitVec.ofBool (roundModeBit s.params.roundMode)
    ++ BitVec.ofNat 8 s.params.w.bits ++ BitVec.ofNat 32 s.params.bufBytes : BitVec 64)

end Sys2Proof.Machine
end

