-- ==== Sys2Proof/Machine/Float.lean ====
section
/-! DEFINITION. The numbers of the core: binary32 and binary64 patterns and the reals they stand for (00_scope.md R9), rounding a real to a format (R11), the floating primitives (R12), rounding to an integer (R13), clamp and saturation (R14), bit length (R15) and complement (R16). A pattern is always a `Word`; a binary32 pattern is zero-extended. -/

namespace Sys2Proof

/-- `p - 1`, the width of the fraction field (00_scope.md R9). -/
def Fmt.fracBits : Fmt → Nat
  | .S => 23
  | .D => 52

/-- The width of the exponent field (00_scope.md R9). -/
def Fmt.expBits : Fmt → Nat
  | .S => 8
  | .D => 11

/-- The index of the sign bit (00_scope.md R9). -/
def Fmt.signBit : Fmt → Nat
  | .S => 31
  | .D => 63

/-- `p - 1 - emin`: the finite values of a format are the multiples `n × 2^-quantumExp` that fit it
(00_scope.md R9: `23 + 126` and `52 + 1022`). -/
def Fmt.quantumExp : Fmt → Nat
  | .S => 149
  | .D => 1074

/-- The exponent and fraction fields of an infinity, read as one number: the exponent field all ones,
the fraction zero (00_scope.md R9). -/
def Fmt.infMag (F : Fmt) : Nat := (2 ^ F.expBits - 1) * 2 ^ F.fracBits

/-- The sign of a pattern (00_scope.md R9). -/
def Fmt.neg (F : Fmt) (x : Word) : Bool := x.getLsbD F.signBit

/-- The exponent and fraction fields of a pattern, read as one number (00_scope.md R9). -/
def Fmt.mag (F : Fmt) (x : Word) : Nat := x.toNat % 2 ^ F.signBit

/-- The pattern with this sign and these exponent and fraction fields (00_scope.md R9). -/
def Fmt.pattern (F : Fmt) (neg : Bool) (mag : Nat) : Word :=
  BitVec.ofNat 64 ((if neg then 2 ^ F.signBit else 0) + mag)

/-- The infinity of a sign (00_scope.md R9). -/
def Fmt.inf (F : Fmt) (neg : Bool) : Word := F.pattern neg F.infMag

/-- `isNaN_F` (00_scope.md R12): the exponent field all ones and a nonzero fraction (R9). -/
def Fmt.isNaN (F : Fmt) (x : Word) : Bool := decide (F.infMag < F.mag x)

/-- The magnitude of a finite pattern in units of `2^-quantumExp` (00_scope.md R9): with exponent field
0 the fraction itself, otherwise the fraction with the hidden bit, scaled by the exponent. -/
def Fmt.units (F : Fmt) (mag : Nat) : Nat :=
  let e := mag / 2 ^ F.fracBits
  let f := mag % 2 ^ F.fracBits
  if e = 0 then f else (2 ^ F.fracBits + f) * 2 ^ (e - 1)

/-- The real a finite pattern stands for (00_scope.md R9). -/
def Fmt.value (F : Fmt) (x : Word) : Rat :=
  let v : Rat := (F.units (F.mag x) : Rat) / ((2 ^ F.quantumExp : Nat) : Rat)
  if F.neg x then -v else v

/-- The extended real a pattern stands for (00_scope.md R9). A NaN stands for none: every rule tests
`isNaN` first, and what is answered for it here is never used (log 12). -/
def Fmt.real (F : Fmt) (x : Word) : Ext Rat :=
  if F.mag x < F.infMag then .fin (F.value x)
  else if F.neg x then .negInf else .posInf

/-- `x ≤ 0`, read from the pattern: the sign bit, or zero exponent and fraction fields; it includes
`-0.0` and `-∞` (40_precision.md R101, 00_scope.md R9). -/
def Fmt.nonpos (F : Fmt) (x : Word) : Bool := F.neg x || F.mag x == 0

/-- `roundInt(x)` (00_scope.md R13): the nearest integer; exactly half-way, the even one or the one of
larger magnitude, by the tie rule. -/
def roundInt (mode : RoundMode) (x : Rat) : Int :=
  let n := x.floor
  let r := x - (n : Rat)
  if r < 1 / 2 then n
  else if 1 / 2 < r then n + 1
  else match mode with
    | .tiesEven => if n % 2 = 0 then n else n + 1
    | .tiesAway => if 0 ≤ n then n + 1 else n

/-- The exponent and fraction fields of `round_F(x)` for `x ≥ 0` (00_scope.md R11). `x` is measured in
units of the format; `k` is the power of two between neighbours at `x`; the nearest multiple, ties to
even, is `m × 2^k`, whose fields are `k × 2^fracBits + m`; beyond the finite values that is infinity. -/
def Fmt.roundMag (F : Fmt) (x : Rat) : Nat :=
  let u : Rat := x * ((2 ^ F.quantumExp : Nat) : Rat)
  let k := Nat.log2 u.floor.toNat - F.fracBits
  let m := (roundInt .tiesEven (u / ((2 ^ k : Nat) : Rat))).toNat
  min (k * 2 ^ F.fracBits + m) F.infMag

/-- `round_F(x)` (00_scope.md R11): the nearest representable value, a tie to the even fraction, an
infinity from `2^emax × (2 - 2^-p)` on, `round_F(0) = +0`. A negative `x` that rounds to zero gives the
pattern of `-0` (log 10: R11 gives the value only, and no rule lets that sign be seen). -/
def Fmt.round (F : Fmt) (x : Rat) : Word :=
  if x < 0 then F.pattern true (F.roundMag (-x)) else F.pattern false (F.roundMag x)

/-- `toF_F(n)` (00_scope.md R12). -/
def Fmt.ofInt (F : Fmt) (n : Int) : Word := F.round (n : Rat)

/-- `mul_F(a, b)` (00_scope.md R12): the rounded exact product of finite values. With an infinity the
rules reach only `±∞` times a positive value; log 11 says what the other cases answer. -/
def Fmt.mul (F : Fmt) (a b : Word) : Word :=
  match F.real a, F.real b with
  | .fin x, .fin y => F.round (x * y)
  | _, _ => F.inf (F.neg a != F.neg b)

/-- `div_F(a, b)` (00_scope.md R12): the rounded exact quotient of finite `a` and finite `b ≥ 1`, the
only case the rules reach; log 11 says what the other cases answer. -/
def Fmt.div (F : Fmt) (a b : Word) : Word :=
  match F.real a, F.real b with
  | .fin x, .fin y => F.round (x / y)
  | _, _ => F.inf (F.neg a != F.neg b)

/-- `abs_F(a)` (00_scope.md R12): the sign bit cleared. -/
def Fmt.abs (F : Fmt) (a : Word) : Word := F.pattern false (F.mag a)

/-- A value of format `F` rounded to format `G`, an infinity kept. From `D` to `F` it is the
`round_F(MAXABS)` of 41_bit_width_estimator.md R114. DESIGN CHOICE, log 18: a `-0` gives `+0`, where
00_scope.md R12 fixes the value only; no command converts a `-0`. -/
def Fmt.convert (F G : Fmt) (a : Word) : Word :=
  match F.real a with
  | .fin x => G.round x
  | .posInf => G.inf false
  | .negInf => G.inf true

/-- A value of format `F` as a binary64 pattern: `widenSD` from `S` (00_scope.md R12, always exact; the sign
of a widened `-0` is log 18), and itself from `D`. -/
def Fmt.widen (F : Fmt) (a : Word) : Word :=
  match F with
  | .S => Fmt.S.convert .D a
  | .D => a

/-- `a < b` on extended reals (00_scope.md R14). -/
def Ext.lt : Ext Rat → Ext Rat → Bool
  | .negInf, .negInf => false
  | .negInf, _ => true
  | .fin _, .negInf => false
  | .fin x, .fin y => decide (x < y)
  | .fin _, .posInf => true
  | .posInf, _ => false

/-- `clamp(n, lo, hi) = min(max(n, lo), hi)` (00_scope.md R14). -/
def Ext.clamp (n : Ext Int) (lo hi : Int) : Int :=
  match n with
  | .negInf => lo
  | .fin n => min (max n lo) hi
  | .posInf => hi

/-- `sat(n, lo, hi)`: `n < lo` or `n > hi` (00_scope.md R14). -/
def Ext.sat (n : Ext Int) (lo hi : Int) : Bool :=
  match n with
  | .negInf => true
  | .fin n => decide (n < lo ∨ hi < n)
  | .posInf => true

/-- `n > hi` (00_scope.md R14). -/
def Ext.above (n : Ext Int) (hi : Int) : Bool :=
  match n with
  | .negInf => false
  | .fin n => decide (hi < n)
  | .posInf => true

/-- The integer image of an extended real: an infinity is kept, a finite value goes through `f`
(42_quantizer_scaler.md R130 with `roundInt`, 41_bit_width_estimator.md R114 with `ceil`). -/
def Ext.toInt (f : Rat → Int) : Ext Rat → Ext Int
  | .negInf => .negInf
  | .fin x => .fin (f x)
  | .posInf => .posInf

/-- `bitlen(n)`, the number of binary digits (00_scope.md R15). -/
def bitlen (n : Nat) : Nat := if n = 0 then 0 else Nat.log2 n + 1

/-- `~v = -v - 1` (00_scope.md R16). -/
def complement (v : Int) : Int := -v - 1

/-- `bits64(n)` (00_scope.md R10). -/
def bits64 (n : Int) : Word := BitVec.ofInt 64 n

/-- The lower end of the clamp range, `-2^(W-1)` (00_scope.md R5). -/
def Params.lo (p : Params) : Int := -2 ^ (p.w.bits - 1)

/-- The upper end of the clamp range, `2^(W-1) - 1` (00_scope.md R5). -/
def Params.hi (p : Params) : Int := 2 ^ (p.w.bits - 1) - 1

end Sys2Proof
end

