-- ==== Sys2Proof/Machine/Operands.lean ====
section
/-! DEFINITION. The readings of the one operand (30_encoding.md R73), and the registers read as numbers. -/

namespace Sys2Proof.Machine

/-- `A = PENDING.opa`, the operand latched when CMD was written (30_encoding.md R73). -/
def State.operand (s : State) : Word := s.pending.opa

/-- A 64-bit operand as a pattern of a format: `f64(A)` is `A`; `f32(A)` is `A[31:0]`, and `A[63:32]` is
ignored (30_encoding.md R73). -/
def floatOperand (F : Fmt) (a : Word) : Word :=
  match F with
  | .S => (a.setWidth 32).setWidth 64
  | .D => a

/-- `f64(A)`: a binary64 pattern (30_encoding.md R73). -/
def State.f64 (s : State) : Word := floatOperand .D s.operand

/-- `f32(A)`: a binary32 pattern (30_encoding.md R73). -/
def State.f32 (s : State) : Word := floatOperand .S s.operand

/-- `i64(A)`: a two's-complement integer (30_encoding.md R73). -/
def State.i64 (s : State) : Int := s.operand.toInt

/-- `u64(A)`: an unsigned integer (30_encoding.md R73). -/
def State.u64 (s : State) : Nat := s.operand.toNat

/-- The floating operand of a command of format `F` (30_encoding.md R72, R73). -/
def State.float (s : State) (F : Fmt) : Word :=
  match F with
  | .S => s.f32
  | .D => s.f64

/-- The ways a command reads its operand (30_encoding.md R73). -/
inductive Reading where
  | f64
  | f32
  | i64
  | u64
  | none
deriving DecidableEq, Repr

end Sys2Proof.Machine

namespace Sys2Proof

/-- The "used by" column of 30_encoding.md R73. -/
def Instr.reading : Instr → Machine.Reading
  | .setprec => .f64
  | .quantS => .f32
  | .quantD => .f64
  | .dequantS => .i64
  | .dequantD => .i64
  | .estClr => .none
  | .estAccS => .f32
  | .estAccD => .f64
  | .estFinS => .none
  | .estFinD => .none
  | .setbw => .u64
  | .bufclr => .none
  | .setwcur => .u64
  | .pack => .i64
  | .setrcur => .u64
  | .unpack => .none

end Sys2Proof

namespace Sys2Proof.Machine

/-- BW as a number (10_state.md R34). -/
def State.width (s : State) : Nat := s.bw.toNat

/-- `u64(WCUR)` (10_state.md R35). -/
def State.wpos (s : State) : Nat := s.wcur.toNat

/-- `u64(RCUR)` (10_state.md R36). -/
def State.rpos (s : State) : Nat := s.rcur.toNat

end Sys2Proof.Machine
end

