-- ==== Sys2Proof/Machine/Estimator.lean ====
section
/-! DEFINITION. The bit-width estimator: EST.CLR, EST.ACC.S, EST.ACC.D, EST.FIN.S, EST.FIN.D, SETBW (41_bit_width_estimator.md). -/

namespace Sys2Proof.Machine

/-- `BitWidth(smax) = bitlen(smax) + 1` (41_bit_width_estimator.md R110). -/
def bitWidth (smax : Nat) : Nat := bitlen smax + 1

/-- EST.CLR (41_bit_width_estimator.md R111). -/
def execEstClr (s : State) : Host.Outcome State Fault Refusal :=
  s.commit (.ok { s with maxabs := 0 })

/-- The new MAXABS after a value `x` of format `F`: `|x|`, widened to binary64, where that is greater as
a value (41_bit_width_estimator.md R112, R113). -/
def accumulate (maxabs : Word) (F : Fmt) (x : Word) : Except Cause Word :=
  if F.isNaN x then .error .nanInput
  else
    let a := F.widen (F.abs x)
    .ok (if (Fmt.D.real maxabs).lt (Fmt.D.real a) then a else maxabs)

/-- EST.ACC of format `F` (41_bit_width_estimator.md R112, R113). -/
def estAcc (F : Fmt) (s : State) : Host.Outcome State Fault Refusal :=
  s.commit ((accumulate s.maxabs F (s.float F)).map fun m => { s with maxabs := m })

/-- EST.ACC.S (41_bit_width_estimator.md R112). -/
def execEstAccS (s : State) : Host.Outcome State Fault Refusal := estAcc .S s

/-- EST.ACC.D (41_bit_width_estimator.md R113). -/
def execEstAccD (s : State) : Host.Outcome State Fault Refusal := estAcc .D s

/-- The value `c` before the clamp: `ceil` of the product of `m` and the scale in format `F`; an
infinite `m` or product is `+∞` (41_bit_width_estimator.md R114). -/
def scaledMax (scale : Word) (F : Fmt) (m : Word) : Ext Int :=
  match F.real m with
  | .negInf => .negInf
  | .posInf => .posInf
  | .fin _ => Ext.toInt Rat.ceil (F.real (F.mul m (F.ofInt scale.toNat)))

/-- `EstFinal(F)` (41_bit_width_estimator.md R114): the width, and whether the clamp was active. -/
def estFinal (p : Params) (scale maxabs : Word) (F : Fmt) : Except Cause (Nat × Bool) :=
  if scale = 0 then .error .noScale
  else
    let c := scaledMax scale F (Fmt.D.convert F maxabs)
    .ok (bitWidth (c.clamp 0 p.hi).toNat, c.above p.hi)

/-- EST.FIN of format `F`: BW, RESULT and SAT (41_bit_width_estimator.md R114). -/
def estFin (F : Fmt) (s : State) : Host.Outcome State Fault Refusal :=
  s.commit ((estFinal s.params s.scale s.maxabs F).map fun b =>
    { s.noteSat b.2 with bw := BitVec.ofNat 7 b.1, result := bits64 b.1 })

/-- EST.FIN.S (41_bit_width_estimator.md R115). -/
def execEstFinS (s : State) : Host.Outcome State Fault Refusal := estFin .S s

/-- EST.FIN.D (41_bit_width_estimator.md R116). -/
def execEstFinD (s : State) : Host.Outcome State Fault Refusal := estFin .D s

/-- SETBW (41_bit_width_estimator.md R117). -/
def execSetbw (s : State) : Host.Outcome State Fault Refusal :=
  s.commit (
    if s.u64 < 1 ∨ 64 < s.u64 then .error .badWidth
    else .ok { s with bw := BitVec.ofNat 7 s.u64 })

end Sys2Proof.Machine
end

