-- ==== Sys2Proof/Machine/Packer.lean ====
section
/-! DEFINITION. The bit packer: BUFCLR, SETWCUR, PACK (43_bit_packer.md). -/

namespace Sys2Proof.Machine

/-- `Encode(b, v)` (43_bit_packer.md R150): the low `b - 1` bits of `v`, complemented when `v` is
negative, below one sign bit. -/
def encodeField (b : Nat) (v : Int) : Nat :=
  let m := if v < 0 then complement v else v
  m.toNat % 2 ^ (b - 1) + (if v < 0 then 2 ^ (b - 1) else 0)

/-- BUFCLR (43_bit_packer.md R151). -/
def execBufclr (s : State) : Host.Outcome State Fault Refusal :=
  s.commit (.ok { s with buf := Memory.zero s.params.bufBytes })

/-- SETWCUR (43_bit_packer.md R152). -/
def execSetwcur (s : State) : Host.Outcome State Fault Refusal :=
  s.commit (.ok { s with wcur := BitVec.ofNat 64 s.u64 })

/-- PACK (43_bit_packer.md R153). -/
def execPack (s : State) : Host.Outcome State Fault Refusal :=
  s.commit (
    if s.width = 0 then .error .badWidth
    else if s.bitSpace < s.wpos + s.width then .error .bounds
    else .ok { s.setField s.wpos (encodeField s.width s.i64) s.width with
      wcur := BitVec.ofNat 64 (s.wpos + s.width) })

end Sys2Proof.Machine
end

