-- ==== Sys2Proof/Machine/Precision.lean ====
section
/-! DEFINITION. The precision unit: SETPREC (40_precision.md). -/

namespace Sys2Proof.Machine

/-- `DeriveScale(s)` (40_precision.md R101). -/
def deriveScale (mode : RoundMode) (s : Word) : Except Cause Int :=
  if Fmt.D.isNaN s || Fmt.D.nonpos s then .error .stepInvalid
  else match Fmt.D.real s with
    | .negInf => .error .stepInvalid
    | .posInf => .error .scaleZero
    | .fin x =>
      match Fmt.D.real (Fmt.D.round (1 / x)) with
      | .fin r =>
        let n := roundInt mode r
        if Config.scaleMax < n then .error .precisionOverflow
        else if n = 0 then .error .scaleZero
        else .ok n
      | .posInf => .error .precisionOverflow
      | .negInf => .error .precisionOverflow

/-- SETPREC (40_precision.md R100). -/
def execSetprec (s : State) : Host.Outcome State Fault Refusal :=
  s.commit ((deriveScale s.params.roundMode s.f64).map fun n =>
    { s with stepReg := s.f64, scale := bits64 n, result := bits64 n })

end Sys2Proof.Machine
end

