-- ==== Sys2Proof/Machine/Quantizer.lean ====
section
/-! DEFINITION. The quantizer and the rescale: QUANT.S, QUANT.D, DEQUANT.S, DEQUANT.D (42_quantizer_scaler.md). -/

namespace Sys2Proof.Machine

/-- The value before the clamp: the product with the scale in format `F`, rounded to an integer; an
infinite operand or product stays infinite (42_quantizer_scaler.md R130). -/
def scaledValue (p : Params) (scale : Word) (F : Fmt) (x : Word) : Ext Int :=
  match F.real x with
  | .negInf => .negInf
  | .posInf => .posInf
  | .fin _ => Ext.toInt (roundInt p.roundMode) (F.real (F.mul x (F.ofInt scale.toNat)))

/-- `Quantize(F, x)` (42_quantizer_scaler.md R130): the integer, and whether the clamp changed it. -/
def quantize (p : Params) (scale : Word) (F : Fmt) (x : Word) : Except Cause (Int × Bool) :=
  if scale = 0 then .error .noScale
  else if F.isNaN x then .error .nanInput
  else
    let r := scaledValue p scale F x
    .ok (r.clamp p.lo p.hi, r.sat p.lo p.hi)

/-- `RESULT <- bits64(q)` and the SAT effect of a QUANT of format `F` (42_quantizer_scaler.md R131, R132). -/
def quant (F : Fmt) (s : State) : Host.Outcome State Fault Refusal :=
  s.commit ((quantize s.params s.scale F (s.float F)).map fun q =>
    { s.noteSat q.2 with result := bits64 q.1 })

/-- QUANT.S (42_quantizer_scaler.md R131). -/
def execQuantS (s : State) : Host.Outcome State Fault Refusal := quant .S s

/-- QUANT.D (42_quantizer_scaler.md R132). -/
def execQuantD (s : State) : Host.Outcome State Fault Refusal := quant .D s

/-- `Rescale(F, q)` (42_quantizer_scaler.md R133). -/
def rescale (scale : Word) (F : Fmt) (q : Int) : Except Cause Word :=
  if scale = 0 then .error .noScale
  else .ok (F.div (F.ofInt q) (F.ofInt scale.toNat))

/-- `RESULT <- bits of y`, a binary32 pattern zero-extended (42_quantizer_scaler.md R134, R135). -/
def dequant (F : Fmt) (s : State) : Host.Outcome State Fault Refusal :=
  s.commit ((rescale s.scale F s.i64).map fun y => { s with result := y })

/-- DEQUANT.S (42_quantizer_scaler.md R134). -/
def execDequantS (s : State) : Host.Outcome State Fault Refusal := dequant .S s

/-- DEQUANT.D (42_quantizer_scaler.md R135). -/
def execDequantD (s : State) : Host.Outcome State Fault Refusal := dequant .D s

end Sys2Proof.Machine
end

