-- ==== Sys2Proof/Machine/Unpacker.lean ====
section
/-! DEFINITION. The bit unpacker: SETRCUR, UNPACK (44_bit_unpacker.md). -/

namespace Sys2Proof.Machine

/-- `Decode(b, fld)` (44_bit_unpacker.md R170). -/
def decodeField (b fld : Nat) : Int :=
  let acc : Int := (fld % 2 ^ (b - 1) : Nat)
  if fld.testBit (b - 1) then complement acc else acc

/-- SETRCUR (44_bit_unpacker.md R171). -/
def execSetrcur (s : State) : Host.Outcome State Fault Refusal :=
  s.commit (.ok { s with rcur := BitVec.ofNat 64 s.u64 })

/-- UNPACK (44_bit_unpacker.md R172). -/
def execUnpack (s : State) : Host.Outcome State Fault Refusal :=
  s.commit (
    if s.width = 0 then .error .badWidth
    else if s.bitSpace < s.rpos + s.width then .error .bounds
    else .ok { s with
      result := bits64 (decodeField s.width (s.field s.rpos s.width))
      rcur := BitVec.ofNat 64 (s.rpos + s.width) })

end Sys2Proof.Machine
end

