-- ==== Sys2Proof/Machine/Dispatch.lean ====
section
/-! DEFINITION. The meaning of each command of 30_encoding.md R74: one arm per constructor. -/

namespace Sys2Proof.Machine

/-- Runs one command, as the CORE's one atomic step (10_state.md R23). -/
def exec (i : Instr) (s : State) : Host.Outcome State Fault Refusal :=
  match i with
  | .setprec => Sys2Proof.Machine.execSetprec s
  | .quantS => Sys2Proof.Machine.execQuantS s
  | .quantD => Sys2Proof.Machine.execQuantD s
  | .dequantS => Sys2Proof.Machine.execDequantS s
  | .dequantD => Sys2Proof.Machine.execDequantD s
  | .estClr => Sys2Proof.Machine.execEstClr s
  | .estAccS => Sys2Proof.Machine.execEstAccS s
  | .estAccD => Sys2Proof.Machine.execEstAccD s
  | .estFinS => Sys2Proof.Machine.execEstFinS s
  | .estFinD => Sys2Proof.Machine.execEstFinD s
  | .setbw => Sys2Proof.Machine.execSetbw s
  | .bufclr => Sys2Proof.Machine.execBufclr s
  | .setwcur => Sys2Proof.Machine.execSetwcur s
  | .pack => Sys2Proof.Machine.execPack s
  | .setrcur => Sys2Proof.Machine.execSetrcur s
  | .unpack => Sys2Proof.Machine.execUnpack s

end Sys2Proof.Machine
end

