-- ==== Sys2Proof/Machine/Host.lean ====
section
/-! DEFINITION. The HOST's transactions on the window: the register map (20_memory.md R54), access widths and alignment (R55 to R57), reserved and outside offsets (10_state.md R41, R42), and the BUSY and ERR rules (R23, R30, 60_exceptions.md R204, 70_reset_and_hazards.md R235, R236). -/

namespace Sys2Proof.Machine

/-- The bytes of an access. -/
def AccessSize.bytes : AccessSize → Nat
  | .one => 1
  | .two => 2
  | .four => 4
  | .eight => 8

/-- The registers of the host window (20_memory.md R54). -/
inductive Reg where
  | cmd
  | opa
  | result
  | status
  | step
  | scale
  | bw
  | maxabs
  | wcur
  | rcur
  | params
deriving DecidableEq, Repr

/-- The offset column of 20_memory.md R54. -/
def Reg.offset : Reg → Nat
  | .cmd => 0x000
  | .opa => 0x008
  | .result => 0x010
  | .status => 0x018
  | .step => 0x020
  | .scale => 0x028
  | .bw => 0x030
  | .maxabs => 0x038
  | .wcur => 0x040
  | .rcur => 0x048
  | .params => 0x050

/-- The register at a window offset; the other offsets below 0x1000 are reserved (20_memory.md R54,
10_state.md R42). -/
def regAt (off : Nat) : Option Reg :=
  [Reg.cmd, .opa, .result, .status, .step, .scale, .bw, .maxabs, .wcur, .rcur, .params].find?
    (fun r => r.offset == off)

/-- What a register holds, as 64 bits (10_state.md R20; CMD reads 0, R23; BW has 7 bits, R34). -/
def State.readReg (s : State) : Reg → Word
  | .cmd => 0
  | .opa => s.opa
  | .result => s.result
  | .status => s.statusWord
  | .step => s.stepReg
  | .scale => s.scale
  | .bw => s.bw.setWidth 64
  | .maxabs => s.maxabs
  | .wcur => s.wcur
  | .rcur => s.rcur
  | .params => s.paramsWord

/-- A HOST write to CMD while BUSY is 0: it latches the low 32 bits and OPA, and is discarded while ERR
is 1 (10_state.md R23, 60_exceptions.md R204). -/
def State.writeCmd (s : State) (v : Word) : State :=
  if s.err then s
  else { s with pending := { valid := true, word := v.setWidth 32, opa := s.opa } }

/-- A HOST write to a register while BUSY is 0: CMD, OPA and STATUS have effects, the others are
read-only and ignore it (10_state.md R23, R30, R41). -/
def State.writeReg (s : State) (v : Word) : Reg → State
  | .cmd => s.writeCmd v
  | .opa => { s with opa := v }
  | .status => s.ackStatus v
  | .result => s
  | .step => s
  | .scale => s
  | .bw => s
  | .maxabs => s
  | .wcur => s
  | .rcur => s
  | .params => s

/-- Whether a register reads its true value while BUSY is 1: STATUS, CMD and PARAMS do
(70_reset_and_hazards.md R236). -/
def Reg.readableBusy : Reg → Bool
  | .cmd => true
  | .status => true
  | .params => true
  | .opa => false
  | .result => false
  | .step => false
  | .scale => false
  | .bw => false
  | .maxabs => false
  | .wcur => false
  | .rcur => false

/-- Where an access of `n` bytes at a window offset falls. -/
inductive Place where
  /-- a register, aligned and 64 bits wide (20_memory.md R55) -/
  | register (r : Reg)
  /-- a reserved register offset (10_state.md R42) -/
  | reserved
  /-- the bytes of BUF from this index, all inside it (20_memory.md R55) -/
  | buffer (i : Nat)
  /-- below 0x1000, an aligned access narrower than 64 bits at an offset that is no register's: it reads 0
  as a reserved offset does (10_state.md R42), and a write has no effect (logs 6, 8) -/
  | vacant
  /-- misaligned, a register access narrower than 64 bits, or straddling the end of BUF (20_memory.md R56) -/
  | irregular
  /-- at or above `0x1000 + BUF_BYTES` (10_state.md R42, 20_memory.md R56) -/
  | outside
deriving DecidableEq, Repr

/-- The place of a unit access (20_memory.md R55, R56); a HostRead or HostWrite of 00_scope.md R17 is one
of 8 bytes. An access that starts at or above the end of the window is outside it whatever its alignment
(90_conflicts.md C13; log 7). Below 0x1000 a misaligned access is irregular: R56 and, of an offset that is no
multiple of 8, 10_state.md R42 both speak of it, and the model follows R56. A narrow access is a register
access, and irregular, at a register's offset; elsewhere it is to a reserved offset of R42 (log 6). -/
def State.place (s : State) (off : Nat) (n : AccessSize) : Place :=
  if Config.bufBase + s.params.bufBytes ≤ off then .outside
  else if off % n.bytes ≠ 0 then .irregular
  else if off < Config.bufBase then
    match regAt off with
    | some r => if n = .eight then .register r else .irregular
    | none => if n = .eight then .reserved else .vacant
  else if s.params.bufBytes < off - Config.bufBase + n.bytes then .irregular
  else .buffer (off - Config.bufBase)

/-- The place of a byte transaction of 00_scope.md R17. -/
def State.bytePlace (s : State) (i : Nat) : Place :=
  if i < s.params.bufBytes then .buffer i else .outside

/-- Records what a read returned (log 13). -/
def State.observe (s : State) (t : HostTxn) (v : Word) : State :=
  { s with observed := { txn := t, value := v } :: s.observed }

/-- A read that returns any value of `n` bytes: the next free value (log 4). -/
def State.observeFree (s : State) (t : HostTxn) (n : Nat) : State :=
  { (s.observe t (BitVec.ofNat 64 ((Config.freeRead s.fresh).toNat % 2 ^ (8 * n)))) with
    fresh := s.fresh + 1 }

/-- A HOST read of `n` bytes at a place: no state of the core changes (20_memory.md R59). While BUSY is 1
only STATUS, CMD and PARAMS read their true value (70_reset_and_hazards.md R236); a reserved or outside
place reads 0 at all times (10_state.md R42; log 9), an irregular one any value (20_memory.md R56; log 4). -/
def State.readPlace (s : State) (t : HostTxn) (n : Nat) : Place → State
  | .register r =>
    if s.busy && !r.readableBusy then s.observeFree t n else s.observe t (s.readReg r)
  | .buffer i =>
    if s.busy then s.observeFree t n else s.observe t (BitVec.ofNat 64 (s.memRead i n))
  | .reserved => s.observe t 0
  | .vacant => s.observe t 0
  | .outside => s.observe t 0
  | .irregular => s.observeFree t n

/-- A HOST write of the low `n` bytes of `v` at a place. While BUSY is 1 a write to a register offset or
to a BUF byte is ignored and sets OVRN (70_reset_and_hazards.md R235); an irregular, vacant or outside write
has no effect on any state (20_memory.md R56, 10_state.md R42; log 8). -/
def State.writePlace (s : State) (n : Nat) (v : Word) : Place → State
  | .register r => if s.busy then s.noteOverrun else s.writeReg v r
  | .reserved => if s.busy then s.noteOverrun else s
  | .buffer i => if s.busy then s.noteOverrun else s.memWrite i v n
  | .vacant => s
  | .outside => s
  | .irregular => s

/-- One HOST transaction, one atomic step (00_scope.md R17, 20_memory.md R55, R59). -/
def State.hostStep (s : State) (t : HostTxn) : State :=
  match t with
  | .write off v => s.writePlace 8 v (s.place off .eight)
  | .read off => s.readPlace t 8 (s.place off .eight)
  | .bufWrite i b => s.writePlace 1 (b.setWidth 64) (s.bytePlace i)
  | .bufRead i => s.readPlace t 1 (s.bytePlace i)
  | .busWrite off n v => s.writePlace n.bytes v (s.place off n)
  | .busRead off n => s.readPlace t n.bytes (s.place off n)
  | .reset => s.resetCore

end Sys2Proof.Machine
end

