-- ==== Sys2Proof/Machine/Step.lean ====
section
/-! DEFINITION. One step of the machine: a HOST transaction or the CORE's step, as the agenda says (20_memory.md R60; log 2). -/

namespace Sys2Proof.Machine

/-- The CORE's one step (10_state.md R23, 30_encoding.md R75): the pending word is decoded and executed,
or faults with ILLEGAL_COMMAND before any other check. With nothing pending the CORE is idle and holds
its state (60_exceptions.md R217). -/
def coreStep (s : State) : Host.Outcome State Fault Refusal :=
  if s.busy then
    match decode s.pending.word with
    | .ok i => exec i s
    | .error _ => .next (s.takeFault .illegalCommand)
  else .next s

/-- The HOST reads STATUS, as `wait` does (30_encoding.md R80). -/
def pollStatus (s : State) : State := s.hostStep (.read Reg.status.offset)

/-- One step: the turn at the head of the agenda, or the CORE's when no turn is left (log 2). A `wait`
stays at the head until a poll finds BUSY = 0 (30_encoding.md R80). -/
def step (s : State) : Host.Outcome State Fault Refusal :=
  match s.agenda with
  | [] => coreStep s
  | .core :: rest => coreStep { s with agenda := rest }
  | .host t :: rest => .next (State.hostStep { s with agenda := rest } t)
  | .wait polls :: rest =>
    if s.busy then
      match polls with
      | 0 => coreStep s
      | n + 1 => .next (pollStatus { s with agenda := .wait n :: rest })
    else .next (pollStatus { s with agenda := rest })

/-- The state in which the CORE takes the very next step and the command it executes is the word with
the table bits `w`: what a HOST write of that word to CMD latches, with the OPA of the moment
(10_state.md R23), and the CORE's turn first. Log 2. -/
def State.withFetchWord (s : State) (nbits w : Nat) : State :=
  { s with
    pending := { valid := true, word := BitVec.ofNat 32 (w % 2 ^ nbits), opa := s.opa }
    agenda := .core :: s.agenda }

end Sys2Proof.Machine
end

