-- ==== Sys2Proof/Machine/Assembler.lean ====
section
/-! DEFINITION. The assembler (30_encoding.md R78 to R81): from a source line to the HOST's turns. What R78 to R80 leave open in the notation is log 14. -/

namespace Sys2Proof.Machine

/-- An operand literal (30_encoding.md R79). -/
inductive Literal where
  /-- `0x...`: the pattern itself -/
  | hex (v : Word)
  /-- a decimal integer -/
  | dec (n : Int)
  /-- a decimal floating literal: its sign and its magnitude -/
  | float (neg : Bool) (magnitude : Rat)
  /-- `inf` -/
  | inf (neg : Bool)
  /-- `nan` -/
  | nan (neg : Bool)
deriving DecidableEq, Repr

/-- One line: a command or a pseudo-instruction (30_encoding.md R78, R80). -/
inductive AsmLine where
  | command (i : Instr) (lit : Option Literal)
  | wait
  | rd (r : Reg)
  | wr (r : Reg) (v : Word)
  | rdbuf (i n : Nat)
  | wrbuf (i : Nat) (bytes : List Byte)
  | clrerr
  | clrsat
  | clrovrn
  | issue (w : CmdWord) (v : Word)
deriving DecidableEq, Repr

/-- Why a line is an assembly error (30_encoding.md R78, R79). -/
inductive AsmError where
  /-- the first word of the line is no mnemonic and no pseudo-instruction -/
  | unknownName
  /-- an operand has not the form the line asks for -/
  | badOperand
  /-- a floating literal for an integer reading, an integer that does not fit 64 bits, or a decimal
  integer for a floating reading -/
  | badLiteral
deriving DecidableEq, Repr

/-- The binary32 or binary64 pattern of a floating literal (30_encoding.md R79). -/
def Literal.float? (F : Fmt) : Literal → Option Word
  | .float neg q => some (F.pattern neg (F.roundMag q))
  | .inf neg => some (F.inf neg)
  | .nan neg => some (F.pattern neg (F.infMag + 2 ^ (F.fracBits - 1)))
  | .hex _ => none
  | .dec _ => none

/-- The OPA value of a literal for a reading (30_encoding.md R79). A command that reads no operand takes
none (R78). -/
def Literal.encode (r : Reading) (l : Literal) : Option Word :=
  match l, r with
  | _, .none => none
  | .hex v, _ => some v
  | .dec n, .i64 => if -2 ^ 63 ≤ n ∧ n < 2 ^ 63 then some (bits64 n) else none
  | .dec n, .u64 => if -2 ^ 63 ≤ n ∧ n < 2 ^ 64 then some (bits64 n) else none
  | l, .f64 => l.float? .D
  | l, .f32 => l.float? .S
  | _, _ => none

/-- The HOST turns that write bytes to BUF from index `i` on (30_encoding.md R80). -/
def writeBytes (i : Nat) : List Byte → List Turn
  | [] => []
  | b :: bs => .host (.bufWrite i b) :: writeBytes (i + 1) bs

/-- The HOST turns that read `n` bytes of BUF from index `i` on (30_encoding.md R80). DESIGN CHOICE, log 14:
a count of 0 makes no transaction, where R80 shows only counts from 1 on. -/
def readBytes (i : Nat) : Nat → List Turn
  | 0 => []
  | n + 1 => .host (.bufRead i) :: readBytes (i + 1) n

/-- A write to a register by name. -/
def writeTurn (r : Reg) (v : Word) : Turn := .host (.write r.offset v)

/-- The turns of a line (30_encoding.md R80, R81). `polls` is how long each `wait` finds BUSY = 1, which
the spec leaves open (70_reset_and_hazards.md R237; log 2). -/
def AsmLine.expand (polls : Nat) : AsmLine → Except AsmError (List Turn)
  | .command i none => .ok [writeTurn .cmd ((Sys2Proof.encode i).setWidth 64), .wait polls]
  | .command i (some lit) =>
    match lit.encode i.reading with
    | some v =>
      .ok [writeTurn .opa v, writeTurn .cmd ((Sys2Proof.encode i).setWidth 64), .wait polls]
    | none => .error .badLiteral
  | .wait => .ok [.wait polls]
  | .rd r => .ok [.host (.read r.offset)]
  | .wr r v => .ok [writeTurn r v]
  | .rdbuf i n => .ok (readBytes i n)
  | .wrbuf i bs => .ok (writeBytes i bs)
  | .clrerr => .ok [writeTurn .status 0x2]
  | .clrsat => .ok [writeTurn .status 0x4]
  | .clrovrn => .ok [writeTurn .status 0x8]
  | .issue w v => .ok [writeTurn .opa v, writeTurn .cmd (w.setWidth 64), .wait polls]

/-- The number a list of decimal digits writes. -/
def decimal (ds : List Char) : Nat := ds.foldl (fun n c => 10 * n + (c.toNat - 48)) 0

/-- A decimal number: one or more digits and nothing else. -/
def parseNat (t : List Char) : Option Nat :=
  if t ≠ [] ∧ t.all Char.isDigit then some (decimal t) else none

/-- The value of a hexadecimal digit in lower case. -/
def hexDigit (c : Char) : Option Nat :=
  if c.isDigit then some (c.toNat - 48)
  else if 97 ≤ c.toNat ∧ c.toNat ≤ 102 then some (c.toNat - 87)
  else none

/-- The number a list of hexadecimal digits writes. -/
def hexadecimal : List Char → Nat → Option Nat
  | [], n => some n
  | c :: cs, n =>
    match hexDigit c with
    | some d => hexadecimal cs (16 * n + d)
    | none => none

/-- A hexadecimal literal after its `0x`, of at most `digits` digits (30_encoding.md R79). -/
def parseHex (digits : Nat) (t : List Char) : Option Nat :=
  if t ≠ [] ∧ t.length ≤ digits then hexadecimal t 0 else none

/-- The exponent of a floating literal after its `e` (log 14). -/
def parseExponent : List Char → Option Int
  | '-' :: t => (parseNat t).map (fun n => -(n : Int))
  | '+' :: t => (parseNat t).map (fun n => (n : Int))
  | t => (parseNat t).map (fun n => (n : Int))

/-- `n × 10^e`, exactly. -/
def scaleTen (n : Nat) (e : Int) : Rat :=
  match e with
  | .ofNat k => ((n * 10 ^ k : Nat) : Rat)
  | .negSucc k => (n : Rat) / ((10 ^ (k + 1) : Nat) : Rat)

/-- The magnitude of a decimal floating literal: digits, then `.` and a fraction, then `e` and an exponent
that may have a sign. DESIGN CHOICE, log 14: 30_encoding.md R79 says only that such a literal contains `.`,
`e`, `inf` or `nan`; here one digit before the exponent is enough, so `1.`, `.5` and `1e+5` are literals, and
a `+` before the number is none. -/
def parseMagnitude (t : List Char) : Option Rat :=
  let whole := t.takeWhile Char.isDigit
  let rest := t.dropWhile Char.isDigit
  let frac := match rest with
    | '.' :: u => u.takeWhile Char.isDigit
    | _ => []
  let rest := match rest with
    | '.' :: u => u.dropWhile Char.isDigit
    | u => u
  let expo : Option Int := match rest with
    | [] => some 0
    | 'e' :: u => parseExponent u
    | _ => none
  if whole ++ frac = [] then none
  else expo.map (fun e => scaleTen (decimal (whole ++ frac)) (e - frac.length))

/-- A decimal literal after its sign: an integer, or a floating literal when it contains `.`, `e`, `inf`
or `nan` (30_encoding.md R79; the spellings are log 14). -/
def parseUnsigned (neg : Bool) (t : List Char) : Option Literal :=
  if t = ['i', 'n', 'f'] then some (.inf neg)
  else if t = ['n', 'a', 'n'] then some (.nan neg)
  else match parseNat t with
    | some n => some (.dec (if neg then -(n : Int) else n))
    | none => (parseMagnitude t).map (.float neg)

/-- An operand literal, in lower case (30_encoding.md R79; log 14). -/
def parseLiteral : List Char → Option Literal
  | '0' :: 'x' :: t => (parseHex 16 t).map (fun n => .hex (BitVec.ofNat 64 n))
  | '-' :: t => parseUnsigned true t
  | t => parseUnsigned false t

/-- A literal written to a register as it stands: a hexadecimal or integer literal (30_encoding.md R80). -/
def parseValue (t : List Char) : Option Word := (parseLiteral t).bind (Literal.encode .u64)

/-- A command word, a BUF index or a count: a hexadecimal or unsigned decimal number. -/
def parseNumber : List Char → Option Nat
  | '0' :: 'x' :: t => parseHex 16 t
  | t => parseNat t

/-- A byte of `wrbuf` (30_encoding.md R80). -/
def parseByte (t : List Char) : Option Byte :=
  match parseNumber t with
  | some n => if n < 256 then some (BitVec.ofNat 8 n) else none
  | none => none

/-- All the bytes of `wrbuf`. -/
def parseByteList : List (List Char) → Option (List Byte)
  | [] => some []
  | t :: ts =>
    match parseByte t, parseByteList ts with
    | some b, some bs => some (b :: bs)
    | _, _ => none

/-- The mnemonics of 30_encoding.md R74, in lower case (R78: case-insensitive). -/
def mnemonics : List (String × Instr) :=
  [ ("setprec", .setprec), ("quant.s", .quantS), ("quant.d", .quantD), ("dequant.s", .dequantS),
    ("dequant.d", .dequantD), ("est.clr", .estClr), ("est.acc.s", .estAccS), ("est.acc.d", .estAccD),
    ("est.fin.s", .estFinS), ("est.fin.d", .estFinD), ("setbw", .setbw), ("bufclr", .bufclr),
    ("setwcur", .setwcur), ("pack", .pack), ("setrcur", .setrcur), ("unpack", .unpack) ]

/-- The register names of 20_memory.md R54, in lower case (log 14). -/
def regNames : List (String × Reg) :=
  [ ("cmd", .cmd), ("opa", .opa), ("result", .result), ("status", .status), ("step", .step),
    ("scale", .scale), ("bw", .bw), ("maxabs", .maxabs), ("wcur", .wcur), ("rcur", .rcur),
    ("params", .params) ]

/-- The entry of a table of names. -/
def lookupName {α : Type} (t : List Char) : List (String × α) → Option α
  | [] => none
  | (n, a) :: rows => if n.toList = t then some a else lookupName t rows

/-- A pseudo-instruction from its name and operands (30_encoding.md R80). DESIGN CHOICE, log 14: `wrbuf` with
an index and no byte is a line without a transaction, where R80 shows no empty list. -/
def parsePseudo (name : List Char) (args : List (List Char)) : Except AsmError AsmLine :=
  let orBad (l : Option AsmLine) : Except AsmError AsmLine :=
    match l with
    | some a => .ok a
    | none => .error .badOperand
  if name = "wait".toList then orBad (if args = [] then some .wait else none)
  else if name = "clrerr".toList then orBad (if args = [] then some .clrerr else none)
  else if name = "clrsat".toList then orBad (if args = [] then some .clrsat else none)
  else if name = "clrovrn".toList then orBad (if args = [] then some .clrovrn else none)
  else if name = "rd".toList then
    orBad (match args with
      | [r] => (lookupName r regNames).map .rd
      | _ => none)
  else if name = "wr".toList then
    orBad (match args with
      | [r, v] =>
        match lookupName r regNames, parseValue v with
        | some r, some v => some (.wr r v)
        | _, _ => none
      | _ => none)
  else if name = "rdbuf".toList then
    orBad (match args with
      | [i, n] =>
        match parseNumber i, parseNumber n with
        | some i, some n => some (.rdbuf i n)
        | _, _ => none
      | _ => none)
  else if name = "wrbuf".toList then
    orBad (match args with
      | i :: bs =>
        match parseNumber i, parseByteList bs with
        | some i, some bs => some (.wrbuf i bs)
        | _, _ => none
      | [] => none)
  else if name = "issue".toList then
    orBad (match args with
      | [w, v] =>
        match parseNumber w, parseValue v with
        | some w, some v => if w < 2 ^ 32 then some (.issue (BitVec.ofNat 32 w) v) else none
        | _, _ => none
      | _ => none)
  else .error .unknownName

/-- The words of a line, split at blanks and commas. -/
def splitWords : List Char → List Char → List (List Char)
  | [], cur => if cur = [] then [] else [cur.reverse]
  | c :: cs, cur =>
    if c = ' ' ∨ c = '\t' ∨ c = ',' then
      if cur = [] then splitWords cs [] else cur.reverse :: splitWords cs []
    else splitWords cs (c :: cur)

/-- One source line (30_encoding.md R78); `;` starts a comment. DESIGN CHOICE, log 14: R78 says that a line
holds one command or one pseudo-instruction, and here a line with nothing before the comment is accepted as
no line (`none`). R78 makes the mnemonic case-insensitive; that case is ignored in the rest of the line
too (pseudo-instructions, register names, `0X`, `E`, `INF`, `NAN`) is a DESIGN CHOICE, log 14. -/
def parseLine (line : List Char) : Except AsmError (Option AsmLine) :=
  match splitWords ((line.takeWhile (fun c => c != ';')).map Char.toLower) [] with
  | [] => .ok none
  | name :: args =>
    match lookupName name mnemonics with
    | some i =>
      match args with
      | [] => .ok (some (.command i none))
      | [t] =>
        match parseLiteral t with
        | some l => .ok (some (.command i (some l)))
        | none => .error .badOperand
      | _ => .error .badOperand
    | none => (parsePseudo name args).map some

/-- The turns of a source line (30_encoding.md R78 to R81). -/
def assembleLine (polls : Nat) (line : List Char) : Except AsmError (List Turn) :=
  match parseLine line with
  | .ok (some a) => a.expand polls
  | .ok none => .ok []
  | .error e => .error e

/-- The turns of a source text, line by line. A line holds at most one `wait`; `polls n` is how long that of
line `n` finds BUSY = 1, each line's latency its own (70_reset_and_hazards.md R237; log 2). -/
def assemble (polls : Nat → Nat) : List (List Char) → Except AsmError (List Turn)
  | [] => .ok []
  | l :: ls =>
    match assembleLine (polls 0) l, assemble (fun n => polls (n + 1)) ls with
    | .ok t, .ok ts => .ok (t ++ ts)
    | .error e, _ => .error e
    | _, .error e => .error e

end Sys2Proof.Machine
end

