-- ==== Sys2Proof/Safety.lean ====
section
/-! DEFINITION. What claims are stated in terms of: the invariant of the reachable states (10_state.md R44), the end of a run (70_reset_and_hazards.md R243), and the HOST's obligations (R234, R238). -/

namespace Sys2Proof

/-- `x ≤ y` on extended reals (00_scope.md R14). -/
def Ext.le (x y : Ext Rat) : Prop := Ext.lt y x = false

/-- The magnitude of an extended real. -/
def Ext.magnitude : Ext Rat → Ext Rat
  | .negInf => .posInf
  | .fin x => .fin (if x < 0 then -x else x)
  | .posInf => .posInf

/-- `emax` of a format (00_scope.md R9). -/
def Fmt.emax : Fmt → Nat
  | .S => 127
  | .D => 1023

/-- The magnitude from which `round_F` gives an infinity, `2^emax × (2 - 2^-p)` (00_scope.md R11). -/
def Fmt.overflowAt : Fmt → Rat
  | .S => 2 ^ 128 - 2 ^ 103
  | .D => 2 ^ 1024 - 2 ^ 970

end Sys2Proof

namespace Sys2Proof.Machine

/-- What holds in every reachable state. -/
structure State.Inv (s : State) : Prop where
  /-- `BUF_BYTES` is in its range (00_scope.md R7) -/
  params_wf : s.params.wf
  /-- BUF lists bytes of the buffer, in canonical form -/
  buf_wf : Memory.wf s.params.bufBytes s.buf
  /-- no command is pending while ERR is 1 (60_exceptions.md R204) -/
  no_err_while_busy : s.busy = true → s.err = false
  /-- CAUSE is 0 while ERR is 0 (10_state.md R27) -/
  no_cause : s.err = false → s.cause = 0
  /-- CAUSE is one of the codes 1 to 8 while ERR is 1 (10_state.md R27, 60_exceptions.md R201) -/
  cause_is_code : s.err = true → ∃ c : Cause, s.cause = c.code
  /-- no precision is set and STEP is `+0.0`, or SCALE is derived from STEP (10_state.md R44) -/
  precision : (s.scale = 0 ∧ s.stepReg = 0) ∨
    ∃ n, deriveScale s.params.roundMode s.stepReg = .ok n ∧ s.scale = bits64 n
  /-- BW is 0 or a width (10_state.md R34, R44) -/
  width_le : s.width ≤ 64
  /-- the sign of MAXABS is 0 (10_state.md R33) -/
  maxabs_sign : Fmt.D.neg s.maxabs = false
  /-- MAXABS is never a NaN (10_state.md R33) -/
  maxabs_number : Fmt.D.isNaN s.maxabs = false

/-- The end of a run: the HOST has performed its last transaction and BUSY is 0
(70_reset_and_hazards.md R243). It says nothing of faults. -/
def State.ended (s : State) : Bool := s.agenda.all (fun t => t == Turn.core) && !s.busy

/-- Whether a turn writes CMD. -/
def Turn.issues : Turn → Bool
  | .host (.write off _) => off == Reg.cmd.offset
  | .host (.busWrite off .eight _) => off == Reg.cmd.offset
  | _ => false

/-- Whether a turn reads STATUS. -/
def Turn.polls : Turn → Bool
  | .host (.read off) => off == Reg.status.offset
  | .host (.busRead off .eight) => off == Reg.status.offset
  | _ => false

/-- The HOST's obligation of 70_reset_and_hazards.md R234 on the turns to come: after a CMD write it
only reads STATUS until a `wait` has ended (or it resets the core). `issued` says that a CMD write
still lacks its `wait`. -/
def obeysWait : Bool → List Turn → Bool
  | _, [] => true
  | true, .wait _ :: ts => obeysWait false ts
  | true, .core :: ts => obeysWait true ts
  | true, .host .reset :: ts => obeysWait false ts
  | true, t :: ts => t.polls && obeysWait true ts
  | false, t :: ts => obeysWait t.issues ts

/-- The HOST's obligation of 70_reset_and_hazards.md R238 before a PACK: the `b` bits at cursor `c` are 0. -/
def State.fieldClear (s : State) (c b : Nat) : Prop := ∀ j, j < b → s.bufBit (c + j) = false

/-- A scaled integer that a field of width `b` stores without truncation (44_bit_unpacker.md R173,
70_reset_and_hazards.md R241). -/
def fitsWidth (b : Nat) (v : Int) : Prop := -2 ^ (b - 1) ≤ v ∧ v ≤ 2 ^ (b - 1) - 1

/-- The state in which a command is pending with an operand: what a HOST write of OPA and CMD leaves. -/
def State.withCommand (s : State) (i : Instr) (a : Word) : State :=
  { s with opa := a, pending := { valid := true, word := encode i, opa := a } }

/-- One command of the HOST, run to its completion. -/
def issue (i : Instr) (a : Word) (s : State) : Host.Outcome State Fault Refusal :=
  exec i (s.withCommand i a)

/-- The same command on each operand of a list, one after the other. -/
def issueAll (i : Instr) : List Word → State → Host.Outcome State Fault Refusal
  | [], s => .next s
  | a :: as, s =>
    match issue i a s with
    | .next t => issueAll i as t
    | .fault r => .fault r
    | .refused r => .refused r

/-- The next thing to do once an outcome is a next state. -/
def andThen (o : Host.Outcome State Fault Refusal) (f : State → Host.Outcome State Fault Refusal) :
    Host.Outcome State Fault Refusal :=
  match o with
  | .next s => f s
  | .fault r => .fault r
  | .refused r => .refused r

/-- EST.ACC of a format (30_encoding.md R72). -/
def estAccOf : Fmt → Instr
  | .S => .estAccS
  | .D => .estAccD

/-- EST.FIN of a format (30_encoding.md R72). -/
def estFinOf : Fmt → Instr
  | .S => .estFinS
  | .D => .estFinD

/-- QUANT of a format (30_encoding.md R72). -/
def quantOf : Fmt → Instr
  | .S => .quantS
  | .D => .quantD

/-- The steps before the CORE takes its step, while a command is pending: one for each HOST transaction before
the CORE's turn, or the polls of a `wait` that comes first (log 2). -/
def stepsBeforeCore : List Turn → Nat
  | [] => 0
  | .core :: _ => 0
  | .wait polls :: _ => polls
  | .host _ :: ts => 1 + stepsBeforeCore ts

/-- Whether a Reset stands before the CORE's turn. -/
def resetBeforeCore : List Turn → Bool
  | [] => false
  | .core :: _ => false
  | .wait _ :: _ => false
  | .host .reset :: _ => true
  | .host _ :: ts => resetBeforeCore ts

end Sys2Proof.Machine
end

