-- ==== Sys2Proof/Certificates/Slice0/Obligations.lean ====
section
/-! DEFINITION. The statements for the provers: what the rules of spec/ say the commands, the HOST's transactions and a step do, stated over every state and every instance. -/

open Sys2Proof Sys2Proof.Machine

/- Encoding. -/

/-- 30_encoding.md R74, the `word` and `mnemonic` columns, row by row. -/
def Obligations.TableWordsDecode : Prop :=
  decode 0x00000001 = .ok .setprec ∧ decode 0x00000002 = .ok .quantS ∧
  decode 0x00000102 = .ok .quantD ∧ decode 0x00000003 = .ok .dequantS ∧
  decode 0x00000103 = .ok .dequantD ∧ decode 0x00000010 = .ok .estClr ∧
  decode 0x00000011 = .ok .estAccS ∧ decode 0x00000111 = .ok .estAccD ∧
  decode 0x00000012 = .ok .estFinS ∧ decode 0x00000112 = .ok .estFinD ∧
  decode 0x00000013 = .ok .setbw ∧ decode 0x00000020 = .ok .bufclr ∧
  decode 0x00000021 = .ok .setwcur ∧ decode 0x00000022 = .ok .pack ∧
  decode 0x00000030 = .ok .setrcur ∧ decode 0x00000031 = .ok .unpack

/-- 30_encoding.md R75, R76: a word decodes to a command exactly when it is that command's word, which
is exactly when its three fields are legal (R71, R72). -/
def Obligations.DecodeAcceptsExactlyTheTable : Prop :=
  (∀ (w : CmdWord) (i : Instr), decode w = .ok i ↔ w = encode i) ∧
  (∀ w : CmdWord, (∃ i, decode w = .ok i) ↔ (CmdFields.ofWord w).wf = true)

/-- 30_encoding.md R75: a pending word that is none of the 16 faults with ILLEGAL_COMMAND, and no state
other than STATUS (and with BUSY, PENDING.valid) changes, on each turn on which the CORE takes its step (the
turns are the model's form, log 2). -/
def Obligations.IllegalWordFaults : Prop :=
  ∀ s : State, s.busy = true → (∀ i, s.pending.word ≠ encode i) →
    (s.agenda = [] → step s = .next { s with
      err := true, cause := 1, pending := { s.pending with valid := false } }) ∧
    (∀ ts, s.agenda = .core :: ts → step s = .next { s with
      err := true, cause := 1, pending := { s.pending with valid := false }, agenda := ts }) ∧
    (∀ ts, s.agenda = .wait 0 :: ts → step s = .next { s with
      err := true, cause := 1, pending := { s.pending with valid := false } })

/- The step. -/

/-- 10_state.md R23: when a pending word decodes, the CORE's step is the execution of that command at that
state (the agenda's turn for it taken off). -/
def Obligations.StepRunsTheDecodedCommand : Prop :=
  ∀ (s : State) (i : Instr), s.busy = true → decode s.pending.word = .ok i →
    (s.agenda = [] → step s = exec i s) ∧
    (∀ ts, s.agenda = .core :: ts → step s = exec i { s with agenda := ts }) ∧
    (∀ ts, s.agenda = .wait 0 :: ts → step s = exec i s)

/-- 20_memory.md R60, 30_encoding.md R80, 60_exceptions.md R217: the other turns. A HOST turn performs its
transaction; a `wait` polls STATUS until a poll finds BUSY = 0; an idle core holds its state. The agenda is
the model's own form of the interleaving (log 2). -/
def Obligations.TurnsInterleaveTheAgents : Prop :=
  ∀ (s : State) (ts : List Turn),
    (∀ t, s.agenda = .host t :: ts → step s = .next (State.hostStep { s with agenda := ts } t)) ∧
    (∀ n, s.agenda = .wait (n + 1) :: ts → s.busy = true →
      step s = .next (State.hostStep { s with agenda := .wait n :: ts } (.read 0x018))) ∧
    (∀ n, s.agenda = .wait n :: ts → s.busy = false →
      step s = .next (State.hostStep { s with agenda := ts } (.read 0x018))) ∧
    (s.agenda = .core :: ts → s.busy = false → step s = .next { s with agenda := ts }) ∧
    (s.agenda = [] → s.busy = false → step s = .next s)

/-- 60_exceptions.md R203, 70_reset_and_hazards.md R237: nothing stops the machine. Every step, in every
state, gives a next state. -/
def Obligations.NoStepStops : Prop := ∀ s : State, ∃ t, step s = .next t

/-- 70_reset_and_hazards.md R237, 10_state.md R23: a pending command completes after finitely many steps. In
the steps of the turns before the CORE's it stays pending, latched as it was, and the next step completes it:
BUSY is then 0, by the execution of the command if the word is one. If a Reset comes before the CORE's turn,
BUSY is 0 by then because the command is abandoned (R231). The turns are the model's form (log 2). -/
def Obligations.PendingCommandCompletes : Prop :=
  ∀ s : State, s.busy = true →
    (resetBeforeCore s.agenda = false → ∃ t u : State,
      Host.Core.run Sys2Proof.core (stepsBeforeCore s.agenda) s = Host.Outcome.next t ∧
      t.pending = s.pending ∧ step t = .next u ∧ u.busy = false ∧
      ∀ i, decode s.pending.word = .ok i → exec i { t with agenda := u.agenda } = .next u) ∧
    (resetBeforeCore s.agenda = true → ∃ (k : Nat) (t : State), k ≤ stepsBeforeCore s.agenda ∧
      Host.Core.run Sys2Proof.core k s = Host.Outcome.next t ∧ t.busy = false)

/-- 30_encoding.md R81: a command line (an OPA write if it has an operand, a CMD write, `wait`) of an idle core
without a fault runs its command once, with the operand of the line or the old OPA, and ends with BUSY = 0 and
the rest of the program to do; the HOST's polls of STATUS are all that is added. -/
def Obligations.CommandLineRunsItsCommand : Prop :=
  ∀ (s u : State) (i : Instr) (operand : Option Word) (polls : Nat) (line ts : List Turn),
    s.busy = false → s.err = false →
    AsmLine.expand polls (.command i (operand.map Literal.hex)) = .ok line →
    s.agenda = line ++ ts →
    exec i { s with
      opa := operand.getD s.opa
      pending := { valid := true, word := encode i, opa := operand.getD s.opa } } = .next u →
    ∃ (k : Nat) (t : State),
      Host.Core.run Sys2Proof.core k s = Host.Outcome.next t ∧ t.busy = false ∧ t.agenda = ts ∧
      { t with agenda := s.agenda, observed := s.observed } = u

/- The invariant. -/

/-- The invariant of the reachable states (10_state.md R44 among it) holds right after reset. -/
def Obligations.ResetMeetsTheInvariant : Prop := State.reset.Inv

/-- 10_state.md R44 and R27, R33, 60_exceptions.md R204: every step keeps the invariant. -/
def Obligations.EveryStepKeepsTheInvariant : Prop :=
  ∀ s t : State, s.Inv → step s = .next t → t.Inv

/-- 10_state.md R37, 40_precision.md R102: no step changes the parameters, and STEP and SCALE change only
in a SETPREC that succeeds, then together, or by a reset; so once SCALE is `DeriveScale(STEP)` it stays so. -/
def Obligations.PrecisionChangesOnlyBySetprec : Prop :=
  ∀ s t : State, step s = .next t →
    t.params = s.params ∧
    ((t.stepReg = s.stepReg ∧ t.scale = s.scale) ∨
      (∃ ts, s.agenda = .host .reset :: ts ∧ t.stepReg = 0 ∧ t.scale = 0) ∨
      (s.busy = true ∧ decode s.pending.word = .ok .setprec ∧ t.stepReg = s.pending.opa ∧
        ∃ n, deriveScale s.params.roundMode s.pending.opa = .ok n ∧ t.scale = bits64 n)) ∧
    ((∃ n, deriveScale s.params.roundMode s.stepReg = .ok n ∧ s.scale = bits64 n) →
      (∃ ts, s.agenda = .host .reset :: ts) ∨
      ∃ n, deriveScale t.params.roundMode t.stepReg = .ok n ∧ t.scale = bits64 n)

/-- 10_state.md R22, R26, R28, R29: which step may set or clear each flag, and which may write RESULT. ERR is
set only as a pending command ends, with a code in CAUSE; SAT only by a QUANT or EST.FIN that does not fault;
OVRN only by a HOST write while BUSY = 1; and each is cleared only by reset or by a STATUS write, while
BUSY = 0, with its bit set (ERR with CAUSE). RESULT changes only by reset or by the commands of R22. -/
def Obligations.FlagsChangeOnlyByTheirRules : Prop :=
  ∀ (s t : State) (cleared : Nat → Prop),
    (∀ j, cleared j ↔ ((∃ ts, s.agenda = .host .reset :: ts) ∨ (s.busy = false ∧ ∃ (v : Word) (ts : List Turn),
      v.getLsbD j = true ∧
      (s.agenda = .host (.write 0x018 v) :: ts ∨ s.agenda = .host (.busWrite 0x018 .eight v) :: ts)))) →
    step s = .next t →
    (s.err = false → t.err = true → s.busy = true ∧ t.busy = false ∧ ∃ c : Cause, t.cause = c.code) ∧
    (s.err = true → t.err = false → cleared 1 ∧ t.cause = 0) ∧
    (s.sat = false → t.sat = true → s.busy = true ∧ t.busy = false ∧ t.err = s.err ∧
      ∃ i ∈ ([.quantS, .quantD, .estFinS, .estFinD] : List Instr), decode s.pending.word = .ok i) ∧
    (s.sat = true → t.sat = false → cleared 2) ∧
    (s.ovrn = false → t.ovrn = true → s.busy = true ∧ ∃ ts, (∃ off v, s.agenda = .host (.write off v) :: ts) ∨
      (∃ i b, s.agenda = .host (.bufWrite i b) :: ts) ∨ (∃ off n v, s.agenda = .host (.busWrite off n v) :: ts)) ∧
    (s.ovrn = true → t.ovrn = false → cleared 3) ∧
    (t.result ≠ s.result → (∃ ts, s.agenda = .host .reset :: ts) ∨ (s.busy = true ∧ t.err = s.err ∧
      ∃ i ∈ ([.setprec, .quantS, .quantD, .dequantS, .dequantD, .estFinS, .estFinD, .unpack] : List Instr),
        decode s.pending.word = .ok i))

/- Arithmetic. -/

/-- 00_scope.md R11: below the overflow threshold `round_F(x)` is a finite value nearest `x` (nearer than
`2^(emax+1)`, which stands for infinity), and when another value is as near, the fraction of the result is
even; from the threshold on it is the infinity of the sign of `x`; `round_F(0) = +0`; the result is never a
NaN, and one of binary32 is a pattern of 32 bits. -/
def Obligations.RoundGivesTheNearestValue : Prop :=
  ∀ (F : Fmt) (x : Rat),
    (|x| < F.overflowAt →
      ∃ v, F.real (F.round x) = .fin v ∧ |v - x| < 2 ^ (F.emax + 1) - |x| ∧
        ∀ (y : Word) (u : Rat), F.real y = .fin u →
          |v - x| ≤ |u - x| ∧ (u ≠ v → |u - x| = |v - x| → F.mag (F.round x) % 2 = 0)) ∧
    (F.overflowAt ≤ |x| → F.real (F.round x) = (if x < 0 then .negInf else .posInf) ∧
      F.round x = F.inf (decide (x < 0))) ∧
    F.round 0 = 0 ∧ F.isNaN (F.round x) = false ∧ (F = .S → (F.round x).toNat < 2 ^ 32)

/-- 00_scope.md R13: `roundInt` gives a nearest integer; when two integers are equally near it gives the
even one, or the one of larger magnitude, by the tie rule. -/
def Obligations.RoundIntGivesTheNearestInteger : Prop :=
  ∀ (mode : RoundMode) (x : Rat) (n : Int),
    |(roundInt mode x : Rat) - x| ≤ |(n : Rat) - x| ∧
    (n ≠ roundInt mode x → |(n : Rat) - x| = |(roundInt mode x : Rat) - x| →
      (mode = .tiesEven → roundInt mode x % 2 = 0) ∧ (mode = .tiesAway → |n| < |roundInt mode x|))

/-- 00_scope.md R12: widening a binary32 value is always exact, and a value of a format rounds to itself. -/
def Obligations.RepresentableValuesAreExact : Prop :=
  (∀ x : Word, Fmt.S.isNaN x = false → Fmt.D.real (Fmt.S.widen x) = Fmt.S.real x) ∧
  (∀ (F : Fmt) (x : Word) (v : Rat), F.real x = .fin v → F.real (F.round v) = .fin v)

/-- 00_scope.md R15: `bitlen(0) = 0`, `bitlen(n) = floor(log2 n) + 1` for `n ≥ 1`; it is the least `k` with
`n < 2^k`, which is `ceil(log2(n + 1))`. -/
def Obligations.BitlenIsTheCeilingOfTheLogarithm : Prop :=
  bitlen 0 = 0 ∧
  ∀ n : Nat, (1 ≤ n → bitlen n = Nat.log 2 n + 1) ∧ (∀ k, n < 2 ^ k ↔ bitlen n ≤ k) ∧
    bitlen n = Nat.clog 2 (n + 1)

/- SETPREC. -/

/-- 40_precision.md R101: the cases of `DeriveScale`, by the real the step stands for. -/
def Obligations.DeriveScaleFollowsTheReciprocal : Prop :=
  ∀ (mode : RoundMode) (s : Word),
    (Fmt.D.isNaN s = true → deriveScale mode s = .error .stepInvalid) ∧
    (Fmt.D.isNaN s = false → Fmt.D.real s = .negInf → deriveScale mode s = .error .stepInvalid) ∧
    (Fmt.D.isNaN s = false → Fmt.D.real s = .posInf → deriveScale mode s = .error .scaleZero) ∧
    ∀ x, Fmt.D.real s = .fin x →
      (x ≤ 0 → deriveScale mode s = .error .stepInvalid) ∧
      (0 < x → Fmt.D.real (Fmt.D.round (1 / x)) = .posInf →
        deriveScale mode s = .error .precisionOverflow) ∧
      ∀ r, 0 < x → Fmt.D.real (Fmt.D.round (1 / x)) = .fin r →
        (2 ^ 63 - 1 < roundInt mode r → deriveScale mode s = .error .precisionOverflow) ∧
        (roundInt mode r = 0 → deriveScale mode s = .error .scaleZero) ∧
        (roundInt mode r ≠ 0 → roundInt mode r ≤ 2 ^ 63 - 1 →
          deriveScale mode s = .ok (roundInt mode r))

/-- 10_state.md R32: a scale that SETPREC installs is in `[1, 2^63 - 1]`. -/
def Obligations.DerivedScaleIsInRange : Prop :=
  ∀ (mode : RoundMode) (s : Word) (n : Int), deriveScale mode s = .ok n → 1 ≤ n ∧ n ≤ 2 ^ 63 - 1

/-- 40_precision.md R103, with the rounding of the reciprocal to binary64 taken into account: for a step
below 2, half the lattice spacing is at most the step. -/
def Obligations.HalfTheLatticeSpacingIsWithinTheStep : Prop :=
  ∀ (mode : RoundMode) (s : Word) (x : Rat) (n : Int),
    Fmt.D.real s = .fin x → x < 2 → deriveScale mode s = .ok n → 1 / (2 * (n : Rat)) ≤ x

/-- 40_precision.md R100, R101, 60_exceptions.md R201: SETPREC of a positive step whose rounded reciprocal
rounds to an integer in `[1, 2^63 - 1]` installs step and scale together and returns the scale; every other
step faults and leaves everything but STATUS as it was: with code 2 a NaN, a zero, a negative value or `-inf`,
with code 3 a reciprocal that is infinite or rounds above `2^63 - 1`, with code 4 `+inf` or a reciprocal that
rounds to 0. -/
def Obligations.SetprecInstallsThePrecision : Prop :=
  ∀ s : State,
    (∀ x r : Rat, Fmt.D.real s.pending.opa = .fin x → 0 < x →
      Fmt.D.real (Fmt.D.round (1 / x)) = .fin r →
      roundInt s.params.roundMode r ≠ 0 → roundInt s.params.roundMode r ≤ 2 ^ 63 - 1 →
      exec .setprec s = .next { s with
        stepReg := s.pending.opa
        scale := bits64 (roundInt s.params.roundMode r)
        result := bits64 (roundInt s.params.roundMode r)
        pending := { s.pending with valid := false } }) ∧
    (∀ c, deriveScale s.params.roundMode s.pending.opa = .error c →
      exec .setprec s = .next { s with
        err := true, cause := c.code, pending := { s.pending with valid := false } }) ∧
    ((Fmt.D.isNaN s.pending.opa = true ∨ Fmt.D.real s.pending.opa = .negInf ∨
        ∃ x, Fmt.D.real s.pending.opa = .fin x ∧ x ≤ 0) →
      exec .setprec s = .next { s with
        err := true, cause := 2, pending := { s.pending with valid := false } }) ∧
    ((∃ x, Fmt.D.real s.pending.opa = .fin x ∧ 0 < x ∧ (Fmt.D.real (Fmt.D.round (1 / x)) = .posInf ∨
        ∃ r, Fmt.D.real (Fmt.D.round (1 / x)) = .fin r ∧ 2 ^ 63 - 1 < roundInt s.params.roundMode r)) →
      exec .setprec s = .next { s with
        err := true, cause := 3, pending := { s.pending with valid := false } }) ∧
    (((Fmt.D.isNaN s.pending.opa = false ∧ Fmt.D.real s.pending.opa = .posInf) ∨
        ∃ x r, Fmt.D.real s.pending.opa = .fin x ∧ 0 < x ∧
          Fmt.D.real (Fmt.D.round (1 / x)) = .fin r ∧ roundInt s.params.roundMode r = 0) →
      exec .setprec s = .next { s with
        err := true, cause := 4, pending := { s.pending with valid := false } })

/- QUANT and DEQUANT. -/

/-- 42_quantizer_scaler.md R130, multiply and round: the scale converted to the format is a finite value
of at least 1, the product of a finite operand is rounded to the format and then to an integer, and what
is infinite stays infinite. -/
def Obligations.ScaledValueIsTheRoundedProduct : Prop :=
  ∀ (p : Params) (scale x : Word) (F : Fmt), scale ≠ 0 →
    ∃ k, F.real (F.round (scale.toNat : Rat)) = .fin k ∧ 1 ≤ k ∧
      (F.real x = .posInf → scaledValue p scale F x = .posInf) ∧
      (F.real x = .negInf → scaledValue p scale F x = .negInf) ∧
      ∀ v, F.real x = .fin v →
        (F.real (F.round (v * k)) = .posInf → scaledValue p scale F x = .posInf) ∧
        (F.real (F.round (v * k)) = .negInf → scaledValue p scale F x = .negInf) ∧
        (∀ r, F.real (F.round (v * k)) = .fin r →
          scaledValue p scale F x = .fin (roundInt p.roundMode r))

/-- 42_quantizer_scaler.md R130, clamp, and 10_state.md R28: the result is the unclamped value where that is
in the W-bit range, and else the end of the range on its side; SAT is reported exactly when the clamp changed the value; and the
fault checks come in their order (60_exceptions.md R207). -/
def Obligations.QuantizeClampsAndReports : Prop :=
  ∀ (p : Params) (scale x : Word) (F : Fmt),
    (scale = 0 → quantize p scale F x = .error .noScale) ∧
    (scale ≠ 0 → F.isNaN x = true → quantize p scale F x = .error .nanInput) ∧
    (scale ≠ 0 → F.isNaN x = false → ∃ q sat, quantize p scale F x = .ok (q, sat) ∧
      -2 ^ (p.w.bits - 1) ≤ q ∧ q ≤ 2 ^ (p.w.bits - 1) - 1 ∧
      (sat = false ↔ scaledValue p scale F x = .fin q) ∧
      (scaledValue p scale F x = .posInf → q = 2 ^ (p.w.bits - 1) - 1) ∧
      (scaledValue p scale F x = .negInf → q = -2 ^ (p.w.bits - 1)) ∧
      (∀ r, scaledValue p scale F x = .fin r →
        (-2 ^ (p.w.bits - 1) ≤ r → r ≤ 2 ^ (p.w.bits - 1) - 1 → q = r ∧ sat = false) ∧
        (2 ^ (p.w.bits - 1) - 1 < r → q = 2 ^ (p.w.bits - 1) - 1) ∧
        (r < -2 ^ (p.w.bits - 1) → q = -2 ^ (p.w.bits - 1))))

/-- 42_quantizer_scaler.md R131, R132: with a scale set and an operand that is no NaN, QUANT.S and QUANT.D
write RESULT and, when the clamp changed the value, set SAT; without a scale they fault with NO_SCALE, and
on a NaN with NAN_INPUT, RESULT and SAT unchanged. -/
def Obligations.QuantWritesResultAndSat : Prop :=
  ∀ (s : State) (xS : Word), xS = (s.pending.opa.setWidth 32).setWidth 64 →
    (s.scale ≠ 0 → Fmt.S.isNaN xS = false → ∃ q sat,
      quantize s.params s.scale .S xS = .ok (q, sat) ∧
      exec .quantS s = .next { s with
        result := bits64 q, sat := s.sat || sat, pending := { s.pending with valid := false } }) ∧
    (s.scale ≠ 0 → Fmt.D.isNaN s.pending.opa = false → ∃ q sat,
      quantize s.params s.scale .D s.pending.opa = .ok (q, sat) ∧
      exec .quantD s = .next { s with
        result := bits64 q, sat := s.sat || sat, pending := { s.pending with valid := false } }) ∧
    (s.scale = 0 →
      exec .quantS s = .next { s with
        err := true, cause := 5, pending := { s.pending with valid := false } } ∧
      exec .quantD s = .next { s with
        err := true, cause := 5, pending := { s.pending with valid := false } }) ∧
    (s.scale ≠ 0 → Fmt.S.isNaN xS = true → exec .quantS s = .next { s with
      err := true, cause := 6, pending := { s.pending with valid := false } }) ∧
    (s.scale ≠ 0 → Fmt.D.isNaN s.pending.opa = true → exec .quantD s = .next { s with
      err := true, cause := 6, pending := { s.pending with valid := false } })

/-- 42_quantizer_scaler.md R137, first half: for a fixed scale, width and format, QUANT preserves order. -/
def Obligations.QuantizePreservesOrder : Prop :=
  ∀ (p : Params) (scale x y : Word) (F : Fmt) (qx qy : Int) (satx saty : Bool),
    quantize p scale F x = .ok (qx, satx) → quantize p scale F y = .ok (qy, saty) →
    Ext.le (F.real x) (F.real y) → qx ≤ qy

/-- 42_quantizer_scaler.md R133 to R135: with a scale set, DEQUANT writes the quotient of the two converted
operands, rounded to the format; the converted operands are finite and the divisor is at least 1. The result
of DEQUANT.S has an upper half of 0. Without a scale it faults with NO_SCALE. -/
def Obligations.DequantWritesTheRoundedQuotient : Prop :=
  ∀ s : State,
    (s.scale ≠ 0 → ∃ a k,
      Fmt.S.real (Fmt.S.round (s.pending.opa.toInt : Rat)) = .fin a ∧
      Fmt.S.real (Fmt.S.round (s.scale.toNat : Rat)) = .fin k ∧ 1 ≤ k ∧
      (Fmt.S.round (a / k)).toNat < 2 ^ 32 ∧
      exec .dequantS s = .next { s with
        result := Fmt.S.round (a / k), pending := { s.pending with valid := false } }) ∧
    (s.scale ≠ 0 → ∃ a k,
      Fmt.D.real (Fmt.D.round (s.pending.opa.toInt : Rat)) = .fin a ∧
      Fmt.D.real (Fmt.D.round (s.scale.toNat : Rat)) = .fin k ∧ 1 ≤ k ∧
      exec .dequantD s = .next { s with
        result := Fmt.D.round (a / k), pending := { s.pending with valid := false } }) ∧
    (s.scale = 0 →
      exec .dequantS s = .next { s with
        err := true, cause := 5, pending := { s.pending with valid := false } } ∧
      exec .dequantD s = .next { s with
        err := true, cause := 5, pending := { s.pending with valid := false } })

/-- 42_quantizer_scaler.md R133: for a 64-bit integer the result of a rescale is never a NaN or an
infinity, and 0 gives `+0.0`. -/
def Obligations.RescaleIsFinite : Prop :=
  ∀ (scale : Word) (F : Fmt) (q : Int) (y : Word), -2 ^ 63 ≤ q → q < 2 ^ 63 →
    rescale scale F q = .ok y →
    F.isNaN y = false ∧ (∃ v, F.real y = .fin v) ∧ (q = 0 → y = 0)

/-- 42_quantizer_scaler.md R137, second half: for a fixed scale and format, rescaling preserves order. -/
def Obligations.RescalePreservesOrder : Prop :=
  ∀ (scale : Word) (F : Fmt) (q q' : Int) (y y' : Word),
    -2 ^ 63 ≤ q → q ≤ q' → q' < 2 ^ 63 →
    rescale scale F q = .ok y → rescale scale F q' = .ok y' → Ext.le (F.real y) (F.real y')

/- The estimator. -/

/-- 41_bit_width_estimator.md R111 to R113: EST.CLR sets MAXABS to `+0.0`; EST.ACC.S and EST.ACC.D fault on a
NaN and otherwise set MAXABS to the magnitude of the operand (widened to binary64) if that is greater as a
value. None of them changes anything else; SCALE is not read. -/
def Obligations.EstClrAndEstAccTrackTheMaximum : Prop :=
  ∀ (s : State) (xS : Word), xS = (s.pending.opa.setWidth 32).setWidth 64 →
    exec .estClr s = .next { s with maxabs := 0, pending := { s.pending with valid := false } } ∧
    (Fmt.S.isNaN xS = false → ∃ m,
      exec .estAccS s = .next { s with maxabs := m, pending := { s.pending with valid := false } } ∧
      (Ext.lt (Fmt.D.real s.maxabs) (Ext.magnitude (Fmt.S.real xS)) = true →
        Fmt.D.real m = Ext.magnitude (Fmt.S.real xS) ∧ Fmt.D.neg m = false ∧ Fmt.D.isNaN m = false) ∧
      (Ext.lt (Fmt.D.real s.maxabs) (Ext.magnitude (Fmt.S.real xS)) = false → m = s.maxabs)) ∧
    (Fmt.D.isNaN s.pending.opa = false → ∃ m,
      exec .estAccD s = .next { s with maxabs := m, pending := { s.pending with valid := false } } ∧
      (Ext.lt (Fmt.D.real s.maxabs) (Ext.magnitude (Fmt.D.real s.pending.opa)) = true →
        Fmt.D.real m = Ext.magnitude (Fmt.D.real s.pending.opa) ∧
        Fmt.D.neg m = false ∧ Fmt.D.isNaN m = false) ∧
      (Ext.lt (Fmt.D.real s.maxabs) (Ext.magnitude (Fmt.D.real s.pending.opa)) = false →
        m = s.maxabs)) ∧
    (Fmt.S.isNaN xS = true → exec .estAccS s = .next { s with
      err := true, cause := 6, pending := { s.pending with valid := false } }) ∧
    (Fmt.D.isNaN s.pending.opa = true → exec .estAccD s = .next { s with
      err := true, cause := 6, pending := { s.pending with valid := false } })

/-- 41_bit_width_estimator.md R114, before the clamp: MAXABS rounded to the format, multiplied by the
converted scale in the format, and rounded up; what is infinite stays infinite, an infinite MAXABS too. -/
def Obligations.ScaledMaxIsTheCeilingOfTheProduct : Prop :=
  ∀ (scale maxabs : Word) (F : Fmt), scale ≠ 0 →
    ∃ k, F.real (F.round (scale.toNat : Rat)) = .fin k ∧ 1 ≤ k ∧
      (Fmt.D.real maxabs = .posInf → scaledMax scale F (Fmt.D.convert F maxabs) = .posInf) ∧
      ∀ v, Fmt.D.real maxabs = .fin v → 0 ≤ v →
        (F.real (F.round v) = .posInf → scaledMax scale F (Fmt.D.convert F maxabs) = .posInf) ∧
        ∀ m, F.real (F.round v) = .fin m →
          (F.real (F.round (m * k)) = .posInf →
            scaledMax scale F (Fmt.D.convert F maxabs) = .posInf) ∧
          (∀ r, F.real (F.round (m * k)) = .fin r →
            scaledMax scale F (Fmt.D.convert F maxabs) = .fin ⌈r⌉)

/-- 41_bit_width_estimator.md R114 to R116: with a scale set, EST.FIN writes the width of the clamped
scaledMax to BW and RESULT and sets SAT when scaledMax is above the W-bit maximum; without a scale it faults
with NO_SCALE. MAXABS is not changed. -/
def Obligations.EstFinWritesTheWidth : Prop :=
  ∀ (s : State) (cS cD : Ext Int),
    cS = scaledMax s.scale .S (Fmt.D.convert .S s.maxabs) →
    cD = scaledMax s.scale .D (Fmt.D.convert .D s.maxabs) →
    (s.scale ≠ 0 →
      exec .estFinS s = .next { s with
        bw := BitVec.ofNat 7 (bitlen (cS.clamp 0 (2 ^ (s.params.w.bits - 1) - 1)).toNat + 1)
        result := BitVec.ofNat 64 (bitlen (cS.clamp 0 (2 ^ (s.params.w.bits - 1) - 1)).toNat + 1)
        sat := s.sat || cS.above (2 ^ (s.params.w.bits - 1) - 1)
        pending := { s.pending with valid := false } } ∧
      exec .estFinD s = .next { s with
        bw := BitVec.ofNat 7 (bitlen (cD.clamp 0 (2 ^ (s.params.w.bits - 1) - 1)).toNat + 1)
        result := BitVec.ofNat 64 (bitlen (cD.clamp 0 (2 ^ (s.params.w.bits - 1) - 1)).toNat + 1)
        sat := s.sat || cD.above (2 ^ (s.params.w.bits - 1) - 1)
        pending := { s.pending with valid := false } }) ∧
    (s.scale = 0 →
      exec .estFinS s = .next { s with
        err := true, cause := 5, pending := { s.pending with valid := false } } ∧
      exec .estFinD s = .next { s with
        err := true, cause := 5, pending := { s.pending with valid := false } })

/-- 41_bit_width_estimator.md R114, R119, 10_state.md R44: the width EST.FIN computes is in `[1, W]`, it is
`W` when the clamp was active, and it is 1 for the empty set. -/
def Obligations.EstimatedWidthIsWithinW : Prop :=
  ∀ (p : Params) (scale maxabs : Word) (F : Fmt) (b : Nat) (sat : Bool),
    estFinal p scale maxabs F = .ok (b, sat) →
    1 ≤ b ∧ b ≤ p.w.bits ∧ (sat = true → b = p.w.bits) ∧ (maxabs = 0 → b = 1 ∧ sat = false)

/-- 41_bit_width_estimator.md R117: SETBW loads a width in `[1, 64]`, whatever W is, and faults with
BAD_WIDTH otherwise; RESULT and the flags are not written. -/
def Obligations.SetbwLoadsTheWidth : Prop :=
  ∀ s : State,
    (1 ≤ s.pending.opa.toNat → s.pending.opa.toNat ≤ 64 → ∃ w : BitVec 7,
      w.toNat = s.pending.opa.toNat ∧
      exec .setbw s = .next { s with bw := w, pending := { s.pending with valid := false } }) ∧
    (s.pending.opa.toNat < 1 ∨ 64 < s.pending.opa.toNat →
      exec .setbw s = .next { s with
        err := true, cause := 7, pending := { s.pending with valid := false } })

/-- 41_bit_width_estimator.md R118, the fit guarantee, on the machine: after EST.CLR, EST.ACC of every value
of a set (none a NaN) and EST.FIN in one format, QUANT of any value of the set gives a RESULT that fits the
width in BW. -/
def Obligations.EstimatedWidthFitsEveryValue : Prop :=
  ∀ (F : Fmt) (s : State) (xs : List Word) (x : Word),
    s.scale ≠ 0 → (∀ y ∈ xs, F.isNaN (floatOperand F y) = false) → x ∈ xs →
    ∃ t u,
      andThen (issue .estClr 0 s) (fun s1 =>
        andThen (issueAll (estAccOf F) xs s1) (issue (estFinOf F) 0)) = .next t ∧
      issue (quantOf F) x t = .next u ∧
      u.err = s.err ∧ fitsWidth t.width u.result.toInt

/- The packer and the unpacker. -/

/-- 43_bit_packer.md R150: bit by bit, the field is the low `b - 1` bits of the value, complemented when it
is negative, and then the sign. -/
def Obligations.EncodeIsComplementSignCoding : Prop :=
  ∀ (b : Nat) (v : Int), 1 ≤ b → b ≤ 64 → -2 ^ 63 ≤ v → v < 2 ^ 63 →
    encodeField b v < 2 ^ b ∧
    ∀ j, (encodeField b v).testBit j =
      if j < b - 1 then (if v < 0 then ~~~(bits64 v) else bits64 v).getLsbD j
      else decide (j = b - 1 ∧ v < 0)

/-- 44_bit_unpacker.md R173, 43_bit_packer.md R154: decoding an encoded value that fits gives it back; a
value that does not fit is truncated as R154 says; and every field is the encoding of the value it decodes
to, which fits. -/
def Obligations.FieldCodingRoundTrips : Prop :=
  ∀ b : Nat, 1 ≤ b →
    (∀ v : Int, fitsWidth b v → decodeField b (encodeField b v) = v) ∧
    (∀ v : Int, 0 ≤ v → decodeField b (encodeField b v) = v % 2 ^ (b - 1)) ∧
    (∀ v : Int, v < 0 → decodeField b (encodeField b v) = -1 - (-v - 1) % 2 ^ (b - 1)) ∧
    (∀ fld : Nat, fld < 2 ^ b →
      encodeField b (decodeField b fld) = fld ∧ fitsWidth b (decodeField b fld))

/-- 43_bit_packer.md R151, R152, 44_bit_unpacker.md R171: BUFCLR makes every byte of the buffer 0 and
writes no other; SETWCUR and SETRCUR set their cursor to any value, checked nowhere. None of them
changes anything else. -/
def Obligations.BufclrAndTheCursorCommands : Prop :=
  ∀ s : State,
    (∃ t, exec .bufclr s = .next t ∧
      { t with buf := s.buf } = { s with pending := { s.pending with valid := false } } ∧
      (∀ i, i < s.params.bufBytes → t.bufByte i = 0) ∧
      (Memory.wf s.params.bufBytes s.buf →
        ∀ i, s.params.bufBytes ≤ i → t.bufByte i = s.bufByte i)) ∧
    exec .setwcur s = .next { s with
      wcur := s.pending.opa, pending := { s.pending with valid := false } } ∧
    exec .setrcur s = .next { s with
      rcur := s.pending.opa, pending := { s.pending with valid := false } }

/-- 43_bit_packer.md R153, 20_memory.md R52, R53: PACK faults with BAD_WIDTH, then with BOUNDS (exact
integers, no wrap); otherwise it ORs the field into the `BW` bits at WCUR, lowest first, leaves every other
bit and every byte outside those bits as it was, advances WCUR by BW and changes nothing else. -/
def Obligations.PackWritesTheField : Prop :=
  ∀ s : State,
    (s.bw.toNat = 0 → exec .pack s = .next { s with
      err := true, cause := 7, pending := { s.pending with valid := false } }) ∧
    (s.bw.toNat ≠ 0 → 8 * s.params.bufBytes < s.wcur.toNat + s.bw.toNat →
      exec .pack s = .next { s with
        err := true, cause := 8, pending := { s.pending with valid := false } }) ∧
    (s.bw.toNat ≠ 0 → s.wcur.toNat + s.bw.toNat ≤ 8 * s.params.bufBytes →
      ∃ t, exec .pack s = .next t ∧
        (∀ i, t.bufBit i = (s.bufBit i ||
          (decide (s.wcur.toNat ≤ i ∧ i < s.wcur.toNat + s.bw.toNat) &&
            (encodeField s.bw.toNat s.pending.opa.toInt).testBit (i - s.wcur.toNat)))) ∧
        (∀ a, 8 * a + 8 ≤ s.wcur.toNat ∨ s.wcur.toNat + s.bw.toNat ≤ 8 * a →
          t.bufByte a = s.bufByte a) ∧
        (s.params.wf → t.wcur.toNat = s.wcur.toNat + s.bw.toNat) ∧
        { t with buf := s.buf, wcur := s.wcur } =
          { s with pending := { s.pending with valid := false } })

/-- 44_bit_unpacker.md R172: UNPACK faults with BAD_WIDTH, then with BOUNDS; otherwise it returns the value
of the `BW` bits at RCUR, lowest first, advances RCUR by BW and changes nothing else, BUF included. -/
def Obligations.UnpackReadsTheField : Prop :=
  ∀ s : State,
    (s.bw.toNat = 0 → exec .unpack s = .next { s with
      err := true, cause := 7, pending := { s.pending with valid := false } }) ∧
    (s.bw.toNat ≠ 0 → 8 * s.params.bufBytes < s.rcur.toNat + s.bw.toNat →
      exec .unpack s = .next { s with
        err := true, cause := 8, pending := { s.pending with valid := false } }) ∧
    (s.bw.toNat ≠ 0 → s.rcur.toNat + s.bw.toNat ≤ 8 * s.params.bufBytes →
      ∃ (fld : Nat) (c : Word), fld < 2 ^ s.bw.toNat ∧
        (∀ j, j < s.bw.toNat → fld.testBit j = s.bufBit (s.rcur.toNat + j)) ∧
        (s.params.wf → c.toNat = s.rcur.toNat + s.bw.toNat) ∧
        exec .unpack s = .next { s with
          result := bits64 (decodeField s.bw.toNat fld), rcur := c,
          pending := { s.pending with valid := false } })

/-- 44_bit_unpacker.md R173: PACK of a value that fits into bits that are 0, and then UNPACK at the same
cursor with the same width, returns the value. -/
def Obligations.PackThenUnpackReturnsTheValue : Prop :=
  ∀ (s : State) (v : Word) (c : Nat),
    s.bw.toNat ≠ 0 → s.bw.toNat ≤ 64 → s.params.wf →
    c = s.wcur.toNat → c + s.bw.toNat ≤ 8 * s.params.bufBytes →
    s.fieldClear c s.bw.toNat → fitsWidth s.bw.toNat v.toInt →
    ∃ t u, issue .pack v s = .next t ∧
      issue .unpack 0 { t with rcur := s.wcur } = .next u ∧
      u.err = s.err ∧ u.result = v ∧ u.rcur = t.wcur

/-- 43_bit_packer.md R155, 20_memory.md R64, 44_bit_unpacker.md R173: values packed back to back into clear
bits at a fixed width leave WCUR at `c0 + k × BW`, change no bit outside the `k × BW` bits from `c0`, and
each field read back at `c0 + j × BW` decodes to its value. -/
def Obligations.PackedStreamHoldsTheValues : Prop :=
  ∀ (s : State) (vs : List Word) (c0 b : Nat),
    c0 = s.wcur.toNat → b = s.bw.toNat → b ≠ 0 → b ≤ 64 → s.params.wf →
    c0 + vs.length * b ≤ 8 * s.params.bufBytes →
    s.fieldClear c0 (vs.length * b) → (∀ v ∈ vs, fitsWidth b v.toInt) →
    ∃ t, issueAll .pack vs s = .next t ∧ t.err = s.err ∧
      t.wcur.toNat = c0 + vs.length * b ∧
      (∀ i, i < c0 ∨ c0 + vs.length * b ≤ i → t.bufBit i = s.bufBit i) ∧
      ∀ (j : Nat) (v : Word), vs[j]? = some v → decodeField b (t.field (c0 + j * b) b) = v.toInt

/- Faults and frames. -/

/-- 60_exceptions.md R203, R206, R208: every command completes with all its effects or faults with none. A
fault sets ERR and CAUSE to one of the codes and ends the command, and nothing else changes, SAT included; a
command that completes leaves ERR and CAUSE alone; both end with PENDING invalid. -/
def Obligations.CommandsCompleteOrFaultWhole : Prop :=
  ∀ (i : Instr) (s : State), ∃ t, exec i s = .next t ∧
    t.pending = { s.pending with valid := false } ∧
    ((∃ c : Cause, t = { s with
        err := true, cause := c.code, pending := { s.pending with valid := false } }) ∨
      (t.err = s.err ∧ t.cause = s.cause))

/-- 10_state.md R20 to R38 ("written by"), R22, R28, 40_precision.md R102: what each command may write. OPA,
OVRN, the parameters and the HOST's side are written by none; RESULT, SAT, STEP, SCALE, BW, MAXABS, WCUR,
RCUR and BUF only by the commands named. -/
def Obligations.CommandsWriteOnlyTheirRegisters : Prop :=
  ∀ (i : Instr) (s t : State), exec i s = .next t →
    (t.params = s.params ∧ t.opa = s.opa ∧ t.ovrn = s.ovrn ∧ t.bufEpoch = s.bufEpoch ∧
      t.fresh = s.fresh ∧ t.agenda = s.agenda ∧ t.observed = s.observed) ∧
    (i ∉ [.setprec, .quantS, .quantD, .dequantS, .dequantD, .estFinS, .estFinD, .unpack] →
      t.result = s.result) ∧
    (i ∉ [.quantS, .quantD, .estFinS, .estFinD] → t.sat = s.sat) ∧
    (s.sat = true → t.sat = true) ∧
    (i ≠ .setprec → t.stepReg = s.stepReg ∧ t.scale = s.scale) ∧
    (i ∉ [.estFinS, .estFinD, .setbw] → t.bw = s.bw) ∧
    (i ∉ [.estClr, .estAccS, .estAccD] → t.maxabs = s.maxabs) ∧
    (i ∉ [.setwcur, .pack] → t.wcur = s.wcur) ∧
    (i ∉ [.setrcur, .unpack] → t.rcur = s.rcur) ∧
    (i ∉ [.bufclr, .pack] → ∀ a, t.bufByte a = s.bufByte a)

/-- 10_state.md R21, R40: no command reads OPA (only the copy in PENDING), a flag, ERR or CAUSE: with OPA,
SAT, OVRN, ERR and CAUSE replaced the command does the same, the flags it sets being set on top, and ERR and
CAUSE as replaced or, in a fault, as the fault sets them. That ERR = 1 prevents execution (60_exceptions.md
R204) is at the CMD write; that the CORE does not look at ERR again is the model's reading, log 15. -/
def Obligations.CommandsReadNoFlagAndNotOpa : Prop :=
  ∀ (i : Instr) (s t : State) (a : Word) (sat ovrn err : Bool) (cause : BitVec 4), exec i s = .next t →
    ∃ t', exec i { s with opa := a, sat := sat, ovrn := ovrn, err := err, cause := cause } = .next t' ∧
      { t' with opa := t.opa, sat := t.sat, ovrn := t.ovrn, err := t.err, cause := t.cause } = t ∧
      t'.opa = a ∧ t'.ovrn = ovrn ∧ (s.sat = false → t'.sat = (sat || t.sat)) ∧
      ((t.err = s.err ∧ t.cause = s.cause ∧ t'.err = err ∧ t'.cause = cause) ∨
        (t.err = true ∧ t'.err = true ∧ t'.cause = t.cause))

/-- 30_encoding.md R73: a command whose reading is "none" does not read its operand, and QUANT.S and
EST.ACC.S ignore the upper half of it. -/
def Obligations.OperandsAreReadAsTabled : Prop :=
  ∀ (i : Instr) (s t : State) (a : Word), exec i s = .next t →
    (i.reading = .none ∨
      (i.reading = .f32 ∧ a.setWidth 32 = s.pending.opa.setWidth 32)) →
    exec i { s with pending := { s.pending with opa := a } } =
      .next { t with pending := { t.pending with opa := a } }

/-- 30_encoding.md R79: what an operand literal is encoded as. A hexadecimal literal is the pattern itself for
any reading of an operand; a decimal integer is `bits64(n)` for an integer reading and no literal where it does
not fit 64 bits; a floating literal is the rounding of its exact value for a floating reading (negative zero and
a negative value that rounds to zero keep their sign), and no literal for an integer reading. Where the ranges of
integers end is the model's choice (log 14), and so is the sign of a rounded zero (log 10). -/
def Obligations.LiteralsEncodeAsTabled : Prop :=
  (∀ (r : Reading) (v : Word), r ≠ .none → (Literal.hex v).encode r = some v) ∧
  (∀ n : Int, (-2 ^ 63 ≤ n → n < 2 ^ 63 → (Literal.dec n).encode .i64 = some (bits64 n)) ∧
    (-2 ^ 63 ≤ n → n < 2 ^ 64 → (Literal.dec n).encode .u64 = some (bits64 n)) ∧
    (n < -2 ^ 63 ∨ 2 ^ 64 ≤ n → (Literal.dec n).encode .i64 = none ∧ (Literal.dec n).encode .u64 = none)) ∧
  (∀ (q : Rat) (neg : Bool), 0 ≤ q → ∃ x y : Word,
    (Literal.float neg q).encode .f64 = some x ∧ (Literal.float neg q).encode .f32 = some y ∧
    Fmt.D.real x = Fmt.D.real (Fmt.D.round (if neg then -q else q)) ∧ Fmt.D.neg x = neg ∧
    Fmt.S.real y = Fmt.S.real (Fmt.S.round (if neg then -q else q)) ∧ Fmt.S.neg y = neg ∧
    Fmt.D.isNaN x = false ∧ Fmt.S.isNaN y = false ∧ y.toNat < 2 ^ 32) ∧
  (∀ neg : Bool,
    (Literal.inf neg).encode .f64 = some (if neg then 0xFFF0000000000000 else 0x7FF0000000000000) ∧
    (Literal.inf neg).encode .f32 = some (if neg then 0xFF800000 else 0x7F800000)) ∧
  (Literal.nan false).encode .f64 = some 0x7FF8000000000000 ∧ (Literal.nan false).encode .f32 = some 0x7FC00000 ∧
  (∀ (q : Rat) (neg : Bool) (r : Reading), r ∈ ([.i64, .u64, .none] : List Reading) →
    (Literal.float neg q).encode r = none ∧ (Literal.inf neg).encode r = none ∧
    (Literal.nan neg).encode r = none)

/- The HOST. -/

/-- 10_state.md R23, 60_exceptions.md R204: a CMD write while BUSY = 0 latches `v[31:0]` and OPA and sets BUSY
while ERR = 0, and is discarded while ERR = 1. -/
def Obligations.CmdWriteLatchesTheCommand : Prop :=
  ∀ (s : State) (v : Word), s.busy = false →
    (s.err = false → s.hostStep (.write 0x000 v) = { s with
      pending := { valid := true, word := v.setWidth 32, opa := s.opa } }) ∧
    (s.err = true → s.hostStep (.write 0x000 v) = s)

/-- 10_state.md R24, R25: the layout of STATUS. -/
def Obligations.StatusLayout : Prop :=
  ∀ s : State,
    s.statusWord.getLsbD 0 = s.pending.valid ∧ s.statusWord.getLsbD 1 = s.err ∧
    s.statusWord.getLsbD 2 = s.sat ∧ s.statusWord.getLsbD 3 = s.ovrn ∧
    s.statusWord.extractLsb' 8 4 = s.cause ∧
    (∀ j, 4 ≤ j ∧ j < 8 ∨ 12 ≤ j → s.statusWord.getLsbD j = false)

/-- 10_state.md R30, 60_exceptions.md R205: a STATUS write while BUSY = 0 clears exactly what its bits 1 to 3
name, ERR together with CAUSE, and changes nothing else. -/
def Obligations.StatusWriteOneToClear : Prop :=
  ∀ (s : State) (v : Word), s.busy = false →
    s.hostStep (.write 0x018 v) = { s with
      err := s.err && !v.getLsbD 1
      cause := if v.getLsbD 1 then 0 else s.cause
      sat := s.sat && !v.getLsbD 2
      ovrn := s.ovrn && !v.getLsbD 3 }

/-- 10_state.md R41, R42: while BUSY = 0 an OPA write sets OPA, and a write to a read-only register, to a
reserved offset or outside the window changes no state. -/
def Obligations.OtherRegisterWrites : Prop :=
  ∀ (s : State) (v : Word), s.busy = false →
    s.hostStep (.write 0x008 v) = { s with opa := v } ∧
    (∀ off, off < 0x1000 → off ≠ 0x000 → off ≠ 0x008 → off ≠ 0x018 → s.hostStep (.write off v) = s) ∧
    (∀ off, 0x1000 + s.params.bufBytes ≤ off → s.hostStep (.write off v) = s)

/-- 70_reset_and_hazards.md R235, 10_state.md R29: while BUSY = 1 a write to any register offset or BUF byte, in
every unit, is ignored and sets OVRN; a second CMD write does not queue a command. That a reserved offset
(0x058 to 0xFF8) is a register offset here is the model's reading, log 8. -/
def Obligations.BusyWritesAreIgnored : Prop :=
  ∀ (s : State) (v : Word) (b : Byte), s.busy = true →
    (∀ off, off < 0x1000 → off % 8 = 0 → s.hostStep (.write off v) = { s with ovrn := true }) ∧
    (∀ off, off < 0x1000 → off % 8 = 0 → s.hostStep (.busWrite off .eight v) = { s with ovrn := true }) ∧
    (∀ i, i < s.params.bufBytes → s.hostStep (.bufWrite i b) = { s with ovrn := true }) ∧
    (∀ (a : Nat) (n : AccessSize), a % n.bytes = 0 → a + n.bytes ≤ s.params.bufBytes →
      s.hostStep (.busWrite (0x1000 + a) n v) = { s with ovrn := true })

/-- 70_reset_and_hazards.md R234, R235: a HOST that keeps the `wait` obligation never has a write ignored: in
every run the obligation stays kept and OVRN stays as it was (or is cleared). -/
def Obligations.ObeyingTheWaitAvoidsOverrun : Prop :=
  ∀ (k : Nat) (s t : State),
    obeysWait s.busy s.agenda = true → s.ovrn = false →
    Host.Core.run Sys2Proof.core k s = Host.Outcome.next t →
    obeysWait t.busy t.agenda = true ∧ t.ovrn = false

/-- 20_memory.md R59: no read has a side effect. Only what the HOST has observed (and the model's counter of
free values) changes. -/
def Obligations.ReadsHaveNoSideEffect : Prop :=
  ∀ (s : State) (t : HostTxn),
    ((∃ off, t = .read off) ∨ (∃ i, t = .bufRead i) ∨ (∃ off n, t = .busRead off n)) →
    { s.hostStep t with observed := s.observed, fresh := s.fresh } = s ∧
    ∃ v, (s.hostStep t).observed = { txn := t, value := v } :: s.observed

/-- 20_memory.md R54, 10_state.md R20, R23, R37: while BUSY = 0 every register reads at its offset. -/
def Obligations.RegistersReadAtTheirOffsets : Prop :=
  ∀ s : State, s.busy = false →
    ∀ off v, (off, v) ∈ ([(0x000, 0), (0x008, s.opa), (0x010, s.result), (0x018, s.statusWord),
      (0x020, s.stepReg), (0x028, s.scale), (0x030, s.bw.setWidth 64), (0x038, s.maxabs),
      (0x040, s.wcur), (0x048, s.rcur), (0x050, s.paramsWord)] : List (Nat × Word)) →
    s.hostStep (.read off) = { s with observed := { txn := .read off, value := v } :: s.observed }

/-- 70_reset_and_hazards.md R236, 10_state.md R42: while BUSY = 1 STATUS, CMD and PARAMS read true; a reserved
or outside offset reads 0 at all times, in every unit that is aligned. That it does so while BUSY = 1 too is the
model's reading (log 9), and so is that an outside offset does whatever its alignment (log 7), and that below
0x1000 R42 governs the aligned accesses, R56 the misaligned ones and the narrow ones at a register (log 6). -/
def Obligations.ReadsThatAreAlwaysDefined : Prop :=
  ∀ s : State,
    s.hostStep (.read 0x018) = { s with
      observed := { txn := .read 0x018, value := s.statusWord } :: s.observed } ∧
    s.hostStep (.read 0x000) = { s with
      observed := { txn := .read 0x000, value := 0 } :: s.observed } ∧
    s.hostStep (.read 0x050) = { s with
      observed := { txn := .read 0x050, value := s.paramsWord } :: s.observed } ∧
    (∀ off, (off < 0x1000 ∧ 0x058 ≤ off ∧ off % 8 = 0) ∨ 0x1000 + s.params.bufBytes ≤ off →
      s.hostStep (.read off) = { s with
        observed := { txn := .read off, value := 0 } :: s.observed }) ∧
    (∀ off (n : AccessSize),
      (off < 0x1000 ∧ off % n.bytes = 0 ∧ (0x058 ≤ off ∨ off % 8 ≠ 0)) ∨ 0x1000 + s.params.bufBytes ≤ off →
      s.hostStep (.busRead off n) = { s with
        observed := { txn := .busRead off n, value := 0 } :: s.observed })

/-- 10_state.md R37: the layout of PARAMS. -/
def Obligations.ParamsLayout : Prop :=
  ∀ s : State, s.params.wf →
    (s.paramsWord.extractLsb' 0 32).toNat = s.params.bufBytes ∧
    (s.paramsWord.extractLsb' 32 8).toNat = s.params.w.bits ∧
    s.paramsWord.getLsbD 40 = decide (s.params.roundMode = .tiesAway) ∧
    (s.paramsWord.extractLsb' 41 15) = 0 ∧
    (s.paramsWord.extractLsb' 56 8).toNat = 1

/-- 20_memory.md R53, R55, R57: while BUSY = 0 an aligned unit access inside the buffer moves the byte at the
lowest offset in the least significant 8 bits; a write changes exactly the bytes it names. -/
def Obligations.BufferWindowIsLittleEndian : Prop :=
  ∀ (s : State) (a : Nat) (n : AccessSize) (v : Word), s.busy = false →
    a % n.bytes = 0 → a + n.bytes ≤ s.params.bufBytes →
    (∃ r : Word, s.hostStep (.busRead (0x1000 + a) n) = { s with
        observed := { txn := .busRead (0x1000 + a) n, value := r } :: s.observed } ∧
      ∀ j, r.getLsbD j = (decide (j < 8 * n.bytes) && (s.bufByte (a + j / 8)).getLsbD (j % 8))) ∧
    (∃ t : State, s.hostStep (.busWrite (0x1000 + a) n v) = t ∧ { t with buf := s.buf } = s ∧
      ∀ i, t.bufByte i =
        if a ≤ i ∧ i < a + n.bytes then v.extractLsb' (8 * (i - a)) 8 else s.bufByte i)

/-- 00_scope.md R17, 10_state.md R42: while BUSY = 0 a byte transaction reads or writes exactly that byte, and
outside the buffer it reads 0 and writes nothing. -/
def Obligations.ByteTransactions : Prop :=
  ∀ (s : State) (i : Nat) (b : Byte), s.busy = false →
    (i < s.params.bufBytes →
      s.hostStep (.bufRead i) = { s with
        observed := { txn := .bufRead i, value := (s.bufByte i).setWidth 64 } :: s.observed } ∧
      { s.hostStep (.bufWrite i b) with buf := s.buf } = s ∧
      (∀ j, (s.hostStep (.bufWrite i b)).bufByte j = if j = i then b else s.bufByte j)) ∧
    (s.params.bufBytes ≤ i →
      s.hostStep (.bufRead i) = { s with
        observed := { txn := .bufRead i, value := 0 } :: s.observed } ∧
      s.hostStep (.bufWrite i b) = s)

/-- 20_memory.md R56: a misaligned access, an access below 0x1000 narrower than 64 bits and an access that
straddles the end of the buffer have no effect on any state when they are writes, BUSY or not (log 8); a
register transaction is an access of 8 bytes. -/
def Obligations.IrregularWritesHaveNoEffect : Prop :=
  ∀ (s : State) (off : Nat) (n : AccessSize) (v : Word),
    (off % n.bytes ≠ 0 ∨ (off < 0x1000 ∧ n ≠ .eight) ∨
      (off < 0x1000 + s.params.bufBytes ∧ 0x1000 ≤ off ∧ 0x1000 + s.params.bufBytes < off + n.bytes)) →
    s.hostStep (.busWrite off n v) = s ∧ (n = .eight → s.hostStep (.write off v) = s)

/-- 70_reset_and_hazards.md R230, R231: reset sets every register to its reset value and abandons a pending
command, whatever the core is doing; the parameters are constants; and `State.reset` is such a state. The
bytes of BUF are the free values of the new reset (any value: nothing is stated of them), and the HOST's side
is the model's own (log 2). -/
def Obligations.ResetSetsTheResetValues : Prop :=
  ∀ s t : State, (s.hostStep .reset = t → t.params = s.params) ∧
    (s.hostStep .reset = t ∨ t = State.reset →
      t.opa = 0 ∧ t.result = 0 ∧ t.stepReg = 0 ∧ t.scale = 0 ∧ t.bw = 0 ∧ t.maxabs = 0 ∧
      t.wcur = 0 ∧ t.rcur = 0 ∧ t.statusWord = 0 ∧ t.pending.valid = false)

/-- 70_reset_and_hazards.md R232: after reset QUANT, DEQUANT and EST.FIN fault with NO_SCALE and PACK and
UNPACK with BAD_WIDTH, whatever the operand and the buffer; the other commands complete without a fault: those
that check nothing on every operand, EST.ACC on a number, SETBW on a width, SETPREC on a step. -/
def Obligations.AfterResetConfigurationIsRequired : Prop :=
  ∀ (s : State) (a : Word),
    (∀ i ∈ ([.quantS, .quantD, .dequantS, .dequantD, .estFinS, .estFinD] : List Instr),
      ∃ t, issue i a s.resetCore = .next t ∧ t.err = true ∧ t.cause = 5) ∧
    (∀ i ∈ ([.pack, .unpack] : List Instr),
      ∃ t, issue i a s.resetCore = .next t ∧ t.err = true ∧ t.cause = 7) ∧
    (∀ i ∈ ([.estClr, .bufclr, .setwcur, .setrcur] : List Instr),
      ∃ t, issue i a s.resetCore = .next t ∧ t.err = false) ∧
    (∀ F : Fmt, F.isNaN (floatOperand F a) = false →
      ∃ t, issue (estAccOf F) a s.resetCore = .next t ∧ t.err = false) ∧
    (1 ≤ a.toNat → a.toNat ≤ 64 → ∃ t, issue .setbw a s.resetCore = .next t ∧ t.err = false) ∧
    (∀ n, deriveScale s.params.roundMode a = .ok n →
      ∃ t, issue .setprec a s.resetCore = .next t ∧ t.err = false ∧ t.scale = bits64 n)
end

