-- ==== Sys2Proof/Laws/State.lean ====
section
/-! SUPPORT. One lemma for each field after each update of the state, so that no proof unfolds an update. -/

namespace Sys2Proof.Laws

open Sys2Proof Sys2Proof.Machine

variable (s : State)

/-! `finish` -/

@[simp] theorem finish_params : (s.finish).params = s.params := rfl
@[simp] theorem finish_pending : (s.finish).pending = { s.pending with valid := false } := rfl
@[simp] theorem finish_opa : (s.finish).opa = s.opa := rfl
@[simp] theorem finish_result : (s.finish).result = s.result := rfl
@[simp] theorem finish_err : (s.finish).err = s.err := rfl
@[simp] theorem finish_sat : (s.finish).sat = s.sat := rfl
@[simp] theorem finish_ovrn : (s.finish).ovrn = s.ovrn := rfl
@[simp] theorem finish_cause : (s.finish).cause = s.cause := rfl
@[simp] theorem finish_stepReg : (s.finish).stepReg = s.stepReg := rfl
@[simp] theorem finish_scale : (s.finish).scale = s.scale := rfl
@[simp] theorem finish_bw : (s.finish).bw = s.bw := rfl
@[simp] theorem finish_maxabs : (s.finish).maxabs = s.maxabs := rfl
@[simp] theorem finish_wcur : (s.finish).wcur = s.wcur := rfl
@[simp] theorem finish_rcur : (s.finish).rcur = s.rcur := rfl
@[simp] theorem finish_buf : (s.finish).buf = s.buf := rfl
@[simp] theorem finish_bufEpoch : (s.finish).bufEpoch = s.bufEpoch := rfl
@[simp] theorem finish_fresh : (s.finish).fresh = s.fresh := rfl
@[simp] theorem finish_agenda : (s.finish).agenda = s.agenda := rfl
@[simp] theorem finish_observed : (s.finish).observed = s.observed := rfl

/-! `takeFault` -/

@[simp] theorem takeFault_params (c : Cause) : (s.takeFault c).params = s.params := rfl
@[simp] theorem takeFault_pending (c : Cause) : (s.takeFault c).pending = { s.pending with valid := false } := rfl
@[simp] theorem takeFault_opa (c : Cause) : (s.takeFault c).opa = s.opa := rfl
@[simp] theorem takeFault_result (c : Cause) : (s.takeFault c).result = s.result := rfl
@[simp] theorem takeFault_err (c : Cause) : (s.takeFault c).err = true := rfl
@[simp] theorem takeFault_sat (c : Cause) : (s.takeFault c).sat = s.sat := rfl
@[simp] theorem takeFault_ovrn (c : Cause) : (s.takeFault c).ovrn = s.ovrn := rfl
@[simp] theorem takeFault_cause (c : Cause) : (s.takeFault c).cause = c.code := rfl
@[simp] theorem takeFault_stepReg (c : Cause) : (s.takeFault c).stepReg = s.stepReg := rfl
@[simp] theorem takeFault_scale (c : Cause) : (s.takeFault c).scale = s.scale := rfl
@[simp] theorem takeFault_bw (c : Cause) : (s.takeFault c).bw = s.bw := rfl
@[simp] theorem takeFault_maxabs (c : Cause) : (s.takeFault c).maxabs = s.maxabs := rfl
@[simp] theorem takeFault_wcur (c : Cause) : (s.takeFault c).wcur = s.wcur := rfl
@[simp] theorem takeFault_rcur (c : Cause) : (s.takeFault c).rcur = s.rcur := rfl
@[simp] theorem takeFault_buf (c : Cause) : (s.takeFault c).buf = s.buf := rfl
@[simp] theorem takeFault_bufEpoch (c : Cause) : (s.takeFault c).bufEpoch = s.bufEpoch := rfl
@[simp] theorem takeFault_fresh (c : Cause) : (s.takeFault c).fresh = s.fresh := rfl
@[simp] theorem takeFault_agenda (c : Cause) : (s.takeFault c).agenda = s.agenda := rfl
@[simp] theorem takeFault_observed (c : Cause) : (s.takeFault c).observed = s.observed := rfl

/-! `clearFault` -/

@[simp] theorem clearFault_params : (s.clearFault).params = s.params := rfl
@[simp] theorem clearFault_pending : (s.clearFault).pending = s.pending := rfl
@[simp] theorem clearFault_opa : (s.clearFault).opa = s.opa := rfl
@[simp] theorem clearFault_result : (s.clearFault).result = s.result := rfl
@[simp] theorem clearFault_err : (s.clearFault).err = false := rfl
@[simp] theorem clearFault_sat : (s.clearFault).sat = s.sat := rfl
@[simp] theorem clearFault_ovrn : (s.clearFault).ovrn = s.ovrn := rfl
@[simp] theorem clearFault_cause : (s.clearFault).cause = 0 := rfl
@[simp] theorem clearFault_stepReg : (s.clearFault).stepReg = s.stepReg := rfl
@[simp] theorem clearFault_scale : (s.clearFault).scale = s.scale := rfl
@[simp] theorem clearFault_bw : (s.clearFault).bw = s.bw := rfl
@[simp] theorem clearFault_maxabs : (s.clearFault).maxabs = s.maxabs := rfl
@[simp] theorem clearFault_wcur : (s.clearFault).wcur = s.wcur := rfl
@[simp] theorem clearFault_rcur : (s.clearFault).rcur = s.rcur := rfl
@[simp] theorem clearFault_buf : (s.clearFault).buf = s.buf := rfl
@[simp] theorem clearFault_bufEpoch : (s.clearFault).bufEpoch = s.bufEpoch := rfl
@[simp] theorem clearFault_fresh : (s.clearFault).fresh = s.fresh := rfl
@[simp] theorem clearFault_agenda : (s.clearFault).agenda = s.agenda := rfl
@[simp] theorem clearFault_observed : (s.clearFault).observed = s.observed := rfl

/-! `noteSat` -/

@[simp] theorem noteSat_params (b : Bool) : (s.noteSat b).params = s.params := rfl
@[simp] theorem noteSat_pending (b : Bool) : (s.noteSat b).pending = s.pending := rfl
@[simp] theorem noteSat_opa (b : Bool) : (s.noteSat b).opa = s.opa := rfl
@[simp] theorem noteSat_result (b : Bool) : (s.noteSat b).result = s.result := rfl
@[simp] theorem noteSat_err (b : Bool) : (s.noteSat b).err = s.err := rfl
@[simp] theorem noteSat_sat (b : Bool) : (s.noteSat b).sat = (s.sat || b) := rfl
@[simp] theorem noteSat_ovrn (b : Bool) : (s.noteSat b).ovrn = s.ovrn := rfl
@[simp] theorem noteSat_cause (b : Bool) : (s.noteSat b).cause = s.cause := rfl
@[simp] theorem noteSat_stepReg (b : Bool) : (s.noteSat b).stepReg = s.stepReg := rfl
@[simp] theorem noteSat_scale (b : Bool) : (s.noteSat b).scale = s.scale := rfl
@[simp] theorem noteSat_bw (b : Bool) : (s.noteSat b).bw = s.bw := rfl
@[simp] theorem noteSat_maxabs (b : Bool) : (s.noteSat b).maxabs = s.maxabs := rfl
@[simp] theorem noteSat_wcur (b : Bool) : (s.noteSat b).wcur = s.wcur := rfl
@[simp] theorem noteSat_rcur (b : Bool) : (s.noteSat b).rcur = s.rcur := rfl
@[simp] theorem noteSat_buf (b : Bool) : (s.noteSat b).buf = s.buf := rfl
@[simp] theorem noteSat_bufEpoch (b : Bool) : (s.noteSat b).bufEpoch = s.bufEpoch := rfl
@[simp] theorem noteSat_fresh (b : Bool) : (s.noteSat b).fresh = s.fresh := rfl
@[simp] theorem noteSat_agenda (b : Bool) : (s.noteSat b).agenda = s.agenda := rfl
@[simp] theorem noteSat_observed (b : Bool) : (s.noteSat b).observed = s.observed := rfl

/-! `noteOverrun` -/

@[simp] theorem noteOverrun_params : (s.noteOverrun).params = s.params := rfl
@[simp] theorem noteOverrun_pending : (s.noteOverrun).pending = s.pending := rfl
@[simp] theorem noteOverrun_opa : (s.noteOverrun).opa = s.opa := rfl
@[simp] theorem noteOverrun_result : (s.noteOverrun).result = s.result := rfl
@[simp] theorem noteOverrun_err : (s.noteOverrun).err = s.err := rfl
@[simp] theorem noteOverrun_sat : (s.noteOverrun).sat = s.sat := rfl
@[simp] theorem noteOverrun_ovrn : (s.noteOverrun).ovrn = true := rfl
@[simp] theorem noteOverrun_cause : (s.noteOverrun).cause = s.cause := rfl
@[simp] theorem noteOverrun_stepReg : (s.noteOverrun).stepReg = s.stepReg := rfl
@[simp] theorem noteOverrun_scale : (s.noteOverrun).scale = s.scale := rfl
@[simp] theorem noteOverrun_bw : (s.noteOverrun).bw = s.bw := rfl
@[simp] theorem noteOverrun_maxabs : (s.noteOverrun).maxabs = s.maxabs := rfl
@[simp] theorem noteOverrun_wcur : (s.noteOverrun).wcur = s.wcur := rfl
@[simp] theorem noteOverrun_rcur : (s.noteOverrun).rcur = s.rcur := rfl
@[simp] theorem noteOverrun_buf : (s.noteOverrun).buf = s.buf := rfl
@[simp] theorem noteOverrun_bufEpoch : (s.noteOverrun).bufEpoch = s.bufEpoch := rfl
@[simp] theorem noteOverrun_fresh : (s.noteOverrun).fresh = s.fresh := rfl
@[simp] theorem noteOverrun_agenda : (s.noteOverrun).agenda = s.agenda := rfl
@[simp] theorem noteOverrun_observed : (s.noteOverrun).observed = s.observed := rfl

/-! `setBufByte` -/

@[simp] theorem setBufByte_params (i : Nat) (b : Byte) : (s.setBufByte i b).params = s.params := rfl
@[simp] theorem setBufByte_pending (i : Nat) (b : Byte) : (s.setBufByte i b).pending = s.pending := rfl
@[simp] theorem setBufByte_opa (i : Nat) (b : Byte) : (s.setBufByte i b).opa = s.opa := rfl
@[simp] theorem setBufByte_result (i : Nat) (b : Byte) : (s.setBufByte i b).result = s.result := rfl
@[simp] theorem setBufByte_err (i : Nat) (b : Byte) : (s.setBufByte i b).err = s.err := rfl
@[simp] theorem setBufByte_sat (i : Nat) (b : Byte) : (s.setBufByte i b).sat = s.sat := rfl
@[simp] theorem setBufByte_ovrn (i : Nat) (b : Byte) : (s.setBufByte i b).ovrn = s.ovrn := rfl
@[simp] theorem setBufByte_cause (i : Nat) (b : Byte) : (s.setBufByte i b).cause = s.cause := rfl
@[simp] theorem setBufByte_stepReg (i : Nat) (b : Byte) : (s.setBufByte i b).stepReg = s.stepReg := rfl
@[simp] theorem setBufByte_scale (i : Nat) (b : Byte) : (s.setBufByte i b).scale = s.scale := rfl
@[simp] theorem setBufByte_bw (i : Nat) (b : Byte) : (s.setBufByte i b).bw = s.bw := rfl
@[simp] theorem setBufByte_maxabs (i : Nat) (b : Byte) : (s.setBufByte i b).maxabs = s.maxabs := rfl
@[simp] theorem setBufByte_wcur (i : Nat) (b : Byte) : (s.setBufByte i b).wcur = s.wcur := rfl
@[simp] theorem setBufByte_rcur (i : Nat) (b : Byte) : (s.setBufByte i b).rcur = s.rcur := rfl
@[simp] theorem setBufByte_buf (i : Nat) (b : Byte) : (s.setBufByte i b).buf = Memory.set s.buf i b := rfl
@[simp] theorem setBufByte_bufEpoch (i : Nat) (b : Byte) : (s.setBufByte i b).bufEpoch = s.bufEpoch := rfl
@[simp] theorem setBufByte_fresh (i : Nat) (b : Byte) : (s.setBufByte i b).fresh = s.fresh := rfl
@[simp] theorem setBufByte_agenda (i : Nat) (b : Byte) : (s.setBufByte i b).agenda = s.agenda := rfl
@[simp] theorem setBufByte_observed (i : Nat) (b : Byte) : (s.setBufByte i b).observed = s.observed := rfl

/-! `setBufBit` -/

@[simp] theorem setBufBit_params (i : Nat) : (s.setBufBit i).params = s.params := rfl
@[simp] theorem setBufBit_pending (i : Nat) : (s.setBufBit i).pending = s.pending := rfl
@[simp] theorem setBufBit_opa (i : Nat) : (s.setBufBit i).opa = s.opa := rfl
@[simp] theorem setBufBit_result (i : Nat) : (s.setBufBit i).result = s.result := rfl
@[simp] theorem setBufBit_err (i : Nat) : (s.setBufBit i).err = s.err := rfl
@[simp] theorem setBufBit_sat (i : Nat) : (s.setBufBit i).sat = s.sat := rfl
@[simp] theorem setBufBit_ovrn (i : Nat) : (s.setBufBit i).ovrn = s.ovrn := rfl
@[simp] theorem setBufBit_cause (i : Nat) : (s.setBufBit i).cause = s.cause := rfl
@[simp] theorem setBufBit_stepReg (i : Nat) : (s.setBufBit i).stepReg = s.stepReg := rfl
@[simp] theorem setBufBit_scale (i : Nat) : (s.setBufBit i).scale = s.scale := rfl
@[simp] theorem setBufBit_bw (i : Nat) : (s.setBufBit i).bw = s.bw := rfl
@[simp] theorem setBufBit_maxabs (i : Nat) : (s.setBufBit i).maxabs = s.maxabs := rfl
@[simp] theorem setBufBit_wcur (i : Nat) : (s.setBufBit i).wcur = s.wcur := rfl
@[simp] theorem setBufBit_rcur (i : Nat) : (s.setBufBit i).rcur = s.rcur := rfl
@[simp] theorem setBufBit_buf (i : Nat) : (s.setBufBit i).buf = Memory.set s.buf (i / 8) (s.bufByte (i / 8) ||| (1#8 <<< (i % 8))) := rfl
@[simp] theorem setBufBit_bufEpoch (i : Nat) : (s.setBufBit i).bufEpoch = s.bufEpoch := rfl
@[simp] theorem setBufBit_fresh (i : Nat) : (s.setBufBit i).fresh = s.fresh := rfl
@[simp] theorem setBufBit_agenda (i : Nat) : (s.setBufBit i).agenda = s.agenda := rfl
@[simp] theorem setBufBit_observed (i : Nat) : (s.setBufBit i).observed = s.observed := rfl

/-! `observe` -/

@[simp] theorem observe_params (t : HostTxn) (v : Word) : (s.observe t v).params = s.params := rfl
@[simp] theorem observe_pending (t : HostTxn) (v : Word) : (s.observe t v).pending = s.pending := rfl
@[simp] theorem observe_opa (t : HostTxn) (v : Word) : (s.observe t v).opa = s.opa := rfl
@[simp] theorem observe_result (t : HostTxn) (v : Word) : (s.observe t v).result = s.result := rfl
@[simp] theorem observe_err (t : HostTxn) (v : Word) : (s.observe t v).err = s.err := rfl
@[simp] theorem observe_sat (t : HostTxn) (v : Word) : (s.observe t v).sat = s.sat := rfl
@[simp] theorem observe_ovrn (t : HostTxn) (v : Word) : (s.observe t v).ovrn = s.ovrn := rfl
@[simp] theorem observe_cause (t : HostTxn) (v : Word) : (s.observe t v).cause = s.cause := rfl
@[simp] theorem observe_stepReg (t : HostTxn) (v : Word) : (s.observe t v).stepReg = s.stepReg := rfl
@[simp] theorem observe_scale (t : HostTxn) (v : Word) : (s.observe t v).scale = s.scale := rfl
@[simp] theorem observe_bw (t : HostTxn) (v : Word) : (s.observe t v).bw = s.bw := rfl
@[simp] theorem observe_maxabs (t : HostTxn) (v : Word) : (s.observe t v).maxabs = s.maxabs := rfl
@[simp] theorem observe_wcur (t : HostTxn) (v : Word) : (s.observe t v).wcur = s.wcur := rfl
@[simp] theorem observe_rcur (t : HostTxn) (v : Word) : (s.observe t v).rcur = s.rcur := rfl
@[simp] theorem observe_buf (t : HostTxn) (v : Word) : (s.observe t v).buf = s.buf := rfl
@[simp] theorem observe_bufEpoch (t : HostTxn) (v : Word) : (s.observe t v).bufEpoch = s.bufEpoch := rfl
@[simp] theorem observe_fresh (t : HostTxn) (v : Word) : (s.observe t v).fresh = s.fresh := rfl
@[simp] theorem observe_agenda (t : HostTxn) (v : Word) : (s.observe t v).agenda = s.agenda := rfl
@[simp] theorem observe_observed (t : HostTxn) (v : Word) : (s.observe t v).observed = { txn := t, value := v } :: s.observed := rfl

/-! `observeFree` -/

@[simp] theorem observeFree_params (t : HostTxn) (n : Nat) : (s.observeFree t n).params = s.params := rfl
@[simp] theorem observeFree_pending (t : HostTxn) (n : Nat) : (s.observeFree t n).pending = s.pending := rfl
@[simp] theorem observeFree_opa (t : HostTxn) (n : Nat) : (s.observeFree t n).opa = s.opa := rfl
@[simp] theorem observeFree_result (t : HostTxn) (n : Nat) : (s.observeFree t n).result = s.result := rfl
@[simp] theorem observeFree_err (t : HostTxn) (n : Nat) : (s.observeFree t n).err = s.err := rfl
@[simp] theorem observeFree_sat (t : HostTxn) (n : Nat) : (s.observeFree t n).sat = s.sat := rfl
@[simp] theorem observeFree_ovrn (t : HostTxn) (n : Nat) : (s.observeFree t n).ovrn = s.ovrn := rfl
@[simp] theorem observeFree_cause (t : HostTxn) (n : Nat) : (s.observeFree t n).cause = s.cause := rfl
@[simp] theorem observeFree_stepReg (t : HostTxn) (n : Nat) : (s.observeFree t n).stepReg = s.stepReg := rfl
@[simp] theorem observeFree_scale (t : HostTxn) (n : Nat) : (s.observeFree t n).scale = s.scale := rfl
@[simp] theorem observeFree_bw (t : HostTxn) (n : Nat) : (s.observeFree t n).bw = s.bw := rfl
@[simp] theorem observeFree_maxabs (t : HostTxn) (n : Nat) : (s.observeFree t n).maxabs = s.maxabs := rfl
@[simp] theorem observeFree_wcur (t : HostTxn) (n : Nat) : (s.observeFree t n).wcur = s.wcur := rfl
@[simp] theorem observeFree_rcur (t : HostTxn) (n : Nat) : (s.observeFree t n).rcur = s.rcur := rfl
@[simp] theorem observeFree_buf (t : HostTxn) (n : Nat) : (s.observeFree t n).buf = s.buf := rfl
@[simp] theorem observeFree_bufEpoch (t : HostTxn) (n : Nat) : (s.observeFree t n).bufEpoch = s.bufEpoch := rfl
@[simp] theorem observeFree_fresh (t : HostTxn) (n : Nat) : (s.observeFree t n).fresh = s.fresh + 1 := rfl
@[simp] theorem observeFree_agenda (t : HostTxn) (n : Nat) : (s.observeFree t n).agenda = s.agenda := rfl
@[simp] theorem observeFree_observed (t : HostTxn) (n : Nat) : (s.observeFree t n).observed = { txn := t, value := BitVec.ofNat 64 ((Config.freeRead s.fresh).toNat % 2 ^ (8 * n)) } :: s.observed := rfl

/-! `resetCore` -/

@[simp] theorem resetCore_params : s.resetCore.params = s.params := rfl
@[simp] theorem resetCore_pending : s.resetCore.pending = { valid := false, word := 0, opa := 0 } := rfl
@[simp] theorem resetCore_opa : s.resetCore.opa = 0 := rfl
@[simp] theorem resetCore_result : s.resetCore.result = 0 := rfl
@[simp] theorem resetCore_err : s.resetCore.err = false := rfl
@[simp] theorem resetCore_sat : s.resetCore.sat = false := rfl
@[simp] theorem resetCore_ovrn : s.resetCore.ovrn = false := rfl
@[simp] theorem resetCore_cause : s.resetCore.cause = 0 := rfl
@[simp] theorem resetCore_stepReg : s.resetCore.stepReg = 0 := rfl
@[simp] theorem resetCore_scale : s.resetCore.scale = 0 := rfl
@[simp] theorem resetCore_bw : s.resetCore.bw = 0 := rfl
@[simp] theorem resetCore_maxabs : s.resetCore.maxabs = 0 := rfl
@[simp] theorem resetCore_wcur : s.resetCore.wcur = 0 := rfl
@[simp] theorem resetCore_rcur : s.resetCore.rcur = 0 := rfl
@[simp] theorem resetCore_buf : s.resetCore.buf = [] := rfl
@[simp] theorem resetCore_bufEpoch : s.resetCore.bufEpoch = s.bufEpoch + 1 := rfl
@[simp] theorem resetCore_fresh : s.resetCore.fresh = s.fresh := rfl
@[simp] theorem resetCore_agenda : s.resetCore.agenda = s.agenda := rfl
@[simp] theorem resetCore_observed : s.resetCore.observed = s.observed := rfl

/-! `setField` and `memWrite` write BUF and nothing else -/

/-- Writing a field changes BUF only. -/
theorem setField_frame (c fld n : Nat) :
    s.setField c fld n = { s with buf := (s.setField c fld n).buf } := by
  induction n with
  | zero => rfl
  | succ n ih =>
    simp only [State.setField]
    split
    · rw [ih]; rfl
    · exact ih

/-- Writing bytes changes BUF only. -/
theorem memWrite_frame (a : Nat) (v : Word) (n : Nat) :
    s.memWrite a v n = { s with buf := (s.memWrite a v n).buf } := by
  induction n with
  | zero => rfl
  | succ n ih => simp only [State.memWrite]; rw [ih]; rfl

@[simp] theorem setField_params (c fld n : Nat) : (s.setField c fld n).params = s.params :=
  by rw [setField_frame]
@[simp] theorem setField_pending (c fld n : Nat) : (s.setField c fld n).pending = s.pending :=
  by rw [setField_frame]
@[simp] theorem setField_opa (c fld n : Nat) : (s.setField c fld n).opa = s.opa :=
  by rw [setField_frame]
@[simp] theorem setField_result (c fld n : Nat) : (s.setField c fld n).result = s.result :=
  by rw [setField_frame]
@[simp] theorem setField_err (c fld n : Nat) : (s.setField c fld n).err = s.err :=
  by rw [setField_frame]
@[simp] theorem setField_sat (c fld n : Nat) : (s.setField c fld n).sat = s.sat :=
  by rw [setField_frame]
@[simp] theorem setField_ovrn (c fld n : Nat) : (s.setField c fld n).ovrn = s.ovrn :=
  by rw [setField_frame]
@[simp] theorem setField_cause (c fld n : Nat) : (s.setField c fld n).cause = s.cause :=
  by rw [setField_frame]
@[simp] theorem setField_stepReg (c fld n : Nat) : (s.setField c fld n).stepReg = s.stepReg :=
  by rw [setField_frame]
@[simp] theorem setField_scale (c fld n : Nat) : (s.setField c fld n).scale = s.scale :=
  by rw [setField_frame]
@[simp] theorem setField_bw (c fld n : Nat) : (s.setField c fld n).bw = s.bw :=
  by rw [setField_frame]
@[simp] theorem setField_maxabs (c fld n : Nat) : (s.setField c fld n).maxabs = s.maxabs :=
  by rw [setField_frame]
@[simp] theorem setField_wcur (c fld n : Nat) : (s.setField c fld n).wcur = s.wcur :=
  by rw [setField_frame]
@[simp] theorem setField_rcur (c fld n : Nat) : (s.setField c fld n).rcur = s.rcur :=
  by rw [setField_frame]
@[simp] theorem setField_bufEpoch (c fld n : Nat) : (s.setField c fld n).bufEpoch = s.bufEpoch :=
  by rw [setField_frame]
@[simp] theorem setField_fresh (c fld n : Nat) : (s.setField c fld n).fresh = s.fresh :=
  by rw [setField_frame]
@[simp] theorem setField_agenda (c fld n : Nat) : (s.setField c fld n).agenda = s.agenda :=
  by rw [setField_frame]
@[simp] theorem setField_observed (c fld n : Nat) : (s.setField c fld n).observed = s.observed :=
  by rw [setField_frame]

@[simp] theorem memWrite_params (a : Nat) (v : Word) (n : Nat) : (s.memWrite a v n).params = s.params :=
  by rw [memWrite_frame]
@[simp] theorem memWrite_pending (a : Nat) (v : Word) (n : Nat) : (s.memWrite a v n).pending = s.pending :=
  by rw [memWrite_frame]
@[simp] theorem memWrite_opa (a : Nat) (v : Word) (n : Nat) : (s.memWrite a v n).opa = s.opa :=
  by rw [memWrite_frame]
@[simp] theorem memWrite_result (a : Nat) (v : Word) (n : Nat) : (s.memWrite a v n).result = s.result :=
  by rw [memWrite_frame]
@[simp] theorem memWrite_err (a : Nat) (v : Word) (n : Nat) : (s.memWrite a v n).err = s.err :=
  by rw [memWrite_frame]
@[simp] theorem memWrite_sat (a : Nat) (v : Word) (n : Nat) : (s.memWrite a v n).sat = s.sat :=
  by rw [memWrite_frame]
@[simp] theorem memWrite_ovrn (a : Nat) (v : Word) (n : Nat) : (s.memWrite a v n).ovrn = s.ovrn :=
  by rw [memWrite_frame]
@[simp] theorem memWrite_cause (a : Nat) (v : Word) (n : Nat) : (s.memWrite a v n).cause = s.cause :=
  by rw [memWrite_frame]
@[simp] theorem memWrite_stepReg (a : Nat) (v : Word) (n : Nat) : (s.memWrite a v n).stepReg = s.stepReg :=
  by rw [memWrite_frame]
@[simp] theorem memWrite_scale (a : Nat) (v : Word) (n : Nat) : (s.memWrite a v n).scale = s.scale :=
  by rw [memWrite_frame]
@[simp] theorem memWrite_bw (a : Nat) (v : Word) (n : Nat) : (s.memWrite a v n).bw = s.bw :=
  by rw [memWrite_frame]
@[simp] theorem memWrite_maxabs (a : Nat) (v : Word) (n : Nat) : (s.memWrite a v n).maxabs = s.maxabs :=
  by rw [memWrite_frame]
@[simp] theorem memWrite_wcur (a : Nat) (v : Word) (n : Nat) : (s.memWrite a v n).wcur = s.wcur :=
  by rw [memWrite_frame]
@[simp] theorem memWrite_rcur (a : Nat) (v : Word) (n : Nat) : (s.memWrite a v n).rcur = s.rcur :=
  by rw [memWrite_frame]
@[simp] theorem memWrite_bufEpoch (a : Nat) (v : Word) (n : Nat) : (s.memWrite a v n).bufEpoch = s.bufEpoch :=
  by rw [memWrite_frame]
@[simp] theorem memWrite_fresh (a : Nat) (v : Word) (n : Nat) : (s.memWrite a v n).fresh = s.fresh :=
  by rw [memWrite_frame]
@[simp] theorem memWrite_agenda (a : Nat) (v : Word) (n : Nat) : (s.memWrite a v n).agenda = s.agenda :=
  by rw [memWrite_frame]
@[simp] theorem memWrite_observed (a : Nat) (v : Word) (n : Nat) : (s.memWrite a v n).observed = s.observed :=
  by rw [memWrite_frame]

/-! The views of STATUS.BUSY, BW and the cursors depend on their own field only -/

@[simp] theorem busy_eq : s.busy = s.pending.valid := rfl

/-- BUF reads as its own two fields say. -/
theorem bufByte_congr {t : State} (h : t.buf = s.buf) (e : t.bufEpoch = s.bufEpoch) (i : Nat) :
    t.bufByte i = s.bufByte i := by
  simp only [State.bufByte, h, e]

/-- The bits of BUF follow its bytes. -/
theorem bufBit_congr {t : State} {i : Nat} (h : t.bufByte (i / 8) = s.bufByte (i / 8)) :
    t.bufBit i = s.bufBit i := by
  simp only [State.bufBit, h]

end Sys2Proof.Laws
end

