-- ==== Sys2Proof/Laws/Memory.lean ====
section
/-! SUPPORT. BUF by byte and by bit: read after write, the canonical form, fields and multi-byte accesses (20_memory.md R50 to R53). -/

namespace Sys2Proof.Laws

open Sys2Proof Sys2Proof.Machine

/-! The list of written bytes -/

@[simp] theorem get_set (m : Memory) (i j : Nat) (v : Byte) :
    Memory.get (Memory.set m i v) j = if j = i then some v else Memory.get m j := by
  induction m with
  | nil => simp only [Memory.set, Memory.get, eq_comm]
  | cons c m ih =>
    obtain ⟨a, b⟩ := c
    simp only [Memory.set]
    split
    · simp only [Memory.get, eq_comm (a := i)]
    · split
      · rename_i h; subst h
        simp only [Memory.get]
        split
        · simp_all
        · simp_all [eq_comm]
      · simp only [Memory.get, ih]
        split
        · rename_i h1 h2 h; subst h; simp [Ne.symm h2]
        · rfl

theorem mem_set {m : Memory} {i : Nat} {v : Byte} {c : Host.Cell} (h : c ∈ Memory.set m i v) :
    c = (i, v) ∨ c ∈ m := by
  induction m with
  | nil => simpa [Memory.set] using h
  | cons d m ih =>
    obtain ⟨a, b⟩ := d
    simp only [Memory.set] at h
    split at h
    · simpa using h
    · split at h
      · rcases List.mem_cons.mp h with h | h
        · exact .inl h
        · exact .inr (List.mem_cons_of_mem _ h)
      · rcases List.mem_cons.mp h with h | h
        · exact .inr (by simp [h])
        · exact (ih h).imp_right (List.mem_cons_of_mem _)

/-- Writing a byte of the buffer keeps the canonical form. -/
theorem set_wf {n : Nat} {m : Memory} {i : Nat} (v : Byte) (h : Memory.wf n m) (hi : i < n) :
    Memory.wf n (Memory.set m i v) := by
  refine ⟨?_, fun c hc => ?_⟩
  · replace h := h.1
    induction m with
    | nil => simp [Memory.set]
    | cons d m ih =>
      obtain ⟨a, b⟩ := d
      obtain ⟨h1, h2⟩ := List.pairwise_cons.mp h
      simp only [Memory.set]
      split
      · rename_i hlt
        refine List.pairwise_cons.mpr ⟨fun c hc => ?_, h⟩
        rcases List.mem_cons.mp hc with hc | hc
        · rw [hc]; exact hlt
        · exact Nat.lt_trans hlt (h1 c hc)
      · split
        · rename_i e; subst e
          exact List.pairwise_cons.mpr ⟨h1, h2⟩
        · refine List.pairwise_cons.mpr ⟨fun c hc => ?_, ih h2⟩
          rcases mem_set hc with hc | hc
          · rw [hc]; show a < i; omega
          · exact h1 c hc
  · rcases mem_set hc with hc | hc
    · rw [hc]; exact hi
    · exact h.2 c hc

theorem wf_nil (n : Nat) : Memory.wf n [] := by simp [Memory.wf]

/-- The zero buffer is in canonical form. -/
theorem zero_wf (n : Nat) : Memory.wf n (Memory.zero n) := by
  refine ⟨?_, fun c hc => ?_⟩
  · exact List.Pairwise.map (fun i : Nat => ((i, 0) : Host.Cell)) (fun _ _ h => h) List.pairwise_lt_range
  · simp only [Memory.zero, List.mem_map, List.mem_range] at hc
    obtain ⟨i, hi, rfl⟩ := hc
    exact hi

theorem get_append (m m' : Memory) (i : Nat) :
    Memory.get (m ++ m') i = (Memory.get m i).or (Memory.get m' i) := by
  induction m with
  | nil => simp [Memory.get]
  | cons c m ih =>
    obtain ⟨a, b⟩ := c
    simp only [List.cons_append, Memory.get]
    split
    · simp
    · exact ih

@[simp] theorem get_zero (n i : Nat) : Memory.get (Memory.zero n) i = if i < n then some 0 else none := by
  induction n with
  | zero => rfl
  | succ n ih =>
    have : Memory.zero (n + 1) = Memory.zero n ++ [(n, 0)] := by simp [Memory.zero, List.range_succ]
    rw [this, get_append, ih]
    simp only [Memory.get]
    rcases Nat.lt_trichotomy i n with h | h | h
    · simp [h, show i < n + 1 by omega]
    · subst h; simp
    · simp [show ¬ i < n by omega, show ¬ n = i by omega, show ¬ i < n + 1 by omega]

/-- A byte outside the buffer is not listed. -/
theorem get_outside {n : Nat} {m : Memory} (h : ∀ c ∈ m, c.1 < n) {i : Nat} (hi : n ≤ i) :
    Memory.get m i = none := by
  induction m with
  | nil => rfl
  | cons c m ih =>
    obtain ⟨a, b⟩ := c
    have ha : a < n := h (a, b) (by simp)
    simp only [Memory.get, show ¬ a = i by omega, if_false]
    exact ih fun c hc => h c (by simp [hc])

/-! Bytes -/

variable (s : State)

/-- Read after write, of a byte. -/
@[simp] theorem bufByte_setBufByte (i j : Nat) (b : Byte) :
    (s.setBufByte i b).bufByte j = if j = i then b else s.bufByte j := by
  simp only [State.bufByte, State.setBufByte, get_set]
  by_cases h : j = i <;> simp [h]

/-- The canonical form of BUF is kept by a byte write. -/
theorem setBufByte_wf {s : State} {i : Nat} (b : Byte) (h : Memory.wf s.params.bufBytes s.buf)
    (hi : i < s.params.bufBytes) : Memory.wf s.params.bufBytes (s.setBufByte i b).buf := set_wf b h hi

/-- The bytes a multi-byte write leaves (20_memory.md R53). -/
theorem bufByte_memWrite (a : Nat) (v : Word) (n j : Nat) :
    (s.memWrite a v n).bufByte j =
      if a ≤ j ∧ j < a + n then v.extractLsb' (8 * (j - a)) 8 else s.bufByte j := by
  induction n with
  | zero => simp [State.memWrite]
  | succ n ih =>
    simp only [State.memWrite, bufByte_setBufByte, ih]
    by_cases h : j = a + n
    · subst h; simp
    · rw [if_neg h]
      by_cases h2 : a ≤ j ∧ j < a + n
      · rw [if_pos h2, if_pos (by omega)]
      · rw [if_neg h2, if_neg (by omega)]

/-- A multi-byte write inside the buffer keeps the canonical form. -/
theorem memWrite_wf {s : State} {a n : Nat} (v : Word) (h : Memory.wf s.params.bufBytes s.buf)
    (hn : a + n ≤ s.params.bufBytes) : Memory.wf s.params.bufBytes (s.memWrite a v n).buf := by
  induction n with
  | zero => exact h
  | succ n ih => exact set_wf _ (ih (by omega)) (by omega)

/-- A multi-byte read fits its bytes. -/
theorem memRead_lt (a n : Nat) : s.memRead a n < 2 ^ (8 * n) := by
  induction n with
  | zero => simp [State.memRead]
  | succ n ih =>
    simp only [State.memRead]
    have hb := (s.bufByte (a + n)).isLt
    have : 2 ^ (8 * (n + 1)) = 2 ^ (8 * n) * 256 := by rw [Nat.mul_succ, pow_add]; rfl
    rw [this]
    nlinarith

/-- The bits of a multi-byte read (20_memory.md R53, R57). -/
theorem testBit_memRead (a n j : Nat) :
    (s.memRead a n).testBit j = (decide (j < 8 * n) && (s.bufByte (a + j / 8)).getLsbD (j % 8)) := by
  induction n with
  | zero => simp [State.memRead]
  | succ n ih =>
    simp only [State.memRead]
    rw [Nat.add_comm, Nat.mul_comm, Nat.testBit_two_pow_mul_add _ (memRead_lt s a n), ih]
    by_cases h : j < 8 * n
    · simp [h, show j < 8 * (n + 1) by omega]
    · simp only [h, if_false]
      by_cases h2 : j < 8 * (n + 1)
      · have e1 : j / 8 = n := by omega
        have e2 : j - 8 * n = j % 8 := by omega
        simp [h2, e1, e2, BitVec.getLsbD]
      · have : (s.bufByte (a + n)).toNat < 2 ^ (j - 8 * n) :=
          Nat.lt_of_lt_of_le (s.bufByte (a + n)).isLt (Nat.pow_le_pow_right (by norm_num) (by omega))
        simp [h2, Nat.testBit_lt_two_pow this]

/-! Bits -/

/-- One bit set, and the others left (20_memory.md R51, R52). -/
@[simp] theorem bufBit_setBufBit (i j : Nat) :
    (s.setBufBit i).bufBit j = (s.bufBit j || decide (j = i)) := by
  simp only [State.bufBit, State.setBufBit, bufByte_setBufByte]
  by_cases h : j / 8 = i / 8
  · rw [if_pos h, h]
    have hj : j % 8 < 8 := Nat.mod_lt _ (by norm_num)
    have : (j % 8 - i % 8 = 0 ∧ ¬ j % 8 < i % 8) ↔ j = i := by omega
    simp only [BitVec.getLsbD_or, BitVec.getLsbD_shiftLeft, hj, BitVec.getLsbD_one]
    by_cases e : j = i
    · subst e; simp
    · simp [e]; omega
  · rw [if_neg h]
    have : j ≠ i := fun e => h (by rw [e])
    simp [this]

/-- The bits a field write leaves (20_memory.md R53, 43_bit_packer.md R153). -/
theorem bufBit_setField (c fld n i : Nat) :
    (s.setField c fld n).bufBit i =
      (s.bufBit i || (decide (c ≤ i ∧ i < c + n) && fld.testBit (i - c))) := by
  induction n with
  | zero => simp [State.setField]
  | succ n ih =>
    simp only [State.setField]
    by_cases hi : i = c + n
    · subst hi
      split
      · rename_i h; simp [ih, h]
      · rename_i h; simp [ih, h]
    · have e : (c ≤ i ∧ i < c + n) ↔ (c ≤ i ∧ i < c + (n + 1)) := by omega
      split <;> simp [ih, hi, e]

/-- A field write touches no byte outside its bits. -/
theorem bufByte_setField (c fld n : Nat) {a : Nat} (h : 8 * a + 8 ≤ c ∨ c + n ≤ 8 * a) :
    (s.setField c fld n).bufByte a = s.bufByte a := by
  induction n with
  | zero => rfl
  | succ n ih =>
    simp only [State.setField]
    split
    · simp only [State.setBufBit, bufByte_setBufByte]
      rw [if_neg (by omega), ih (by omega)]
    · exact ih (by omega)

/-- A field write inside the buffer keeps the canonical form. -/
theorem setField_wf {s : State} {c n : Nat} (fld : Nat) (h : Memory.wf s.params.bufBytes s.buf)
    (hn : c + n ≤ 8 * s.params.bufBytes) : Memory.wf s.params.bufBytes (s.setField c fld n).buf := by
  induction n with
  | zero => exact h
  | succ n ih =>
    simp only [State.setField]
    split
    · exact set_wf _ (ih (by omega)) (by omega)
    · exact ih (by omega)

/-- A field read fits its width. -/
theorem field_lt (c n : Nat) : s.field c n < 2 ^ n := by
  induction n with
  | zero => simp [State.field]
  | succ n ih =>
    simp only [State.field, pow_succ]
    split <;> omega

/-- The bits of a field read (20_memory.md R53, 44_bit_unpacker.md R172). -/
theorem testBit_field (c n j : Nat) :
    (s.field c n).testBit j = (decide (j < n) && s.bufBit (c + j)) := by
  induction n with
  | zero => simp [State.field]
  | succ n ih =>
    simp only [State.field]
    have hlt := field_lt s c n
    rcases Nat.lt_trichotomy j n with h | h | h
    · split
      · rw [Nat.add_comm, Nat.testBit_two_pow_add_gt h, ih]; simp [h, show j < n + 1 by omega]
      · rw [Nat.add_zero, ih]; simp [h, show j < n + 1 by omega]
    · subst h
      split
      · rename_i hb; rw [Nat.add_comm, Nat.testBit_two_pow_add_eq, Nat.testBit_lt_two_pow hlt]; simp [hb]
      · rename_i hb; rw [Nat.add_zero, Nat.testBit_lt_two_pow hlt]; simp [hb]
    · have : s.field c n + (if s.bufBit (c + n) then 2 ^ n else 0) < 2 ^ (n + 1) := field_lt s c (n + 1)
      rw [Nat.testBit_lt_two_pow (Nat.lt_of_lt_of_le this (Nat.pow_le_pow_right (by norm_num) h))]
      simp; omega

/-- A field read is the number with the bits of BUF. -/
theorem field_eq {c n fld : Nat} (h : fld < 2 ^ n) (hb : ∀ j, j < n → fld.testBit j = s.bufBit (c + j)) :
    s.field c n = fld := by
  apply Nat.eq_of_testBit_eq
  intro j
  rw [testBit_field]
  by_cases hj : j < n
  · simp [hj, hb j hj]
  · rw [Nat.testBit_lt_two_pow (Nat.lt_of_lt_of_le h (Nat.pow_le_pow_right (by norm_num) (by omega)))]
    simp [hj]

/-- The reset state lists no byte: the canonical form. -/
theorem reset_buf_wf : Memory.wf State.reset.params.bufBytes State.reset.buf := wf_nil _

/-- A reset lists no byte: the canonical form. -/
theorem resetCore_wf : Memory.wf s.resetCore.params.bufBytes s.resetCore.buf := wf_nil _

end Sys2Proof.Laws
end

