-- ==== Sys2Proof/Laws/Commands.lean ====
section
/-! SUPPORT. What a command, a HOST transaction and a step can do, said once: the cases that later proofs take apart instead of unfolding. -/

namespace Sys2Proof.Laws

open Sys2Proof Sys2Proof.Machine

/-! Decoding -/

/-- The decoder reads the encoder's words. -/
@[simp] theorem decode_encode (i : Instr) : decode (encode i) = .ok i := by cases i <;> rfl

/-- A row that a lookup finds is in the table. -/
theorem mem_of_lookupCommand {w : CmdWord} {i : Instr} {rows : List (CmdWord × Instr)}
    (h : lookupCommand w rows = some i) : (w, i) ∈ rows := by
  induction rows with
  | nil => simp [lookupCommand] at h
  | cons r rows ih =>
    obtain ⟨v, j⟩ := r
    simp only [lookupCommand] at h
    split at h
    · simp_all
    · exact List.mem_cons_of_mem _ (ih h)

/-- Every row of the table is a command's word. -/
theorem commandTable_encode : ∀ r ∈ commandTable, r.1 = encode r.2 := by decide

/-- A word that decodes is the encoding of what it decodes to. -/
theorem eq_encode_of_decode {w : CmdWord} {i : Instr} (h : decode w = .ok i) : w = encode i := by
  simp only [decode] at h
  split at h
  · rename_i j hj
    cases h
    exact commandTable_encode _ (mem_of_lookupCommand hj)
  · cases h

/-- Taking a word apart and putting it together (30_encoding.md R71). -/
@[simp] theorem toWord_ofWord (w : CmdWord) : (CmdFields.ofWord w).toWord = w := by
  apply BitVec.eq_of_getLsbD_eq
  intro i hi
  simp only [CmdFields.ofWord, CmdFields.toWord, BitVec.getLsbD_append, BitVec.getLsbD_extractLsb']
  by_cases h : i < 8
  · simp [h]
  · by_cases h2 : i < 9
    · simp [h, show i - 8 < 1 by omega, show 8 + (i - 8) = i by omega]
    · simp [h, show ¬ i - 8 < 1 by omega, show i - 8 - 1 < 23 by omega, show 9 + (i - 8 - 1) = i by omega]

@[simp] theorem ofWord_encode (i : Instr) : CmdFields.ofWord (encode i) = i.fields := by cases i <;> decide

/-! Completing a command -/

@[simp] theorem commit_ok (s t : State) : s.commit (.ok t) = .next t.finish := rfl

@[simp] theorem commit_error (s : State) (c : Cause) : s.commit (.error c) = .next (s.takeFault c) := rfl

/-- A command answers a next state: its effect, or its fault. -/
theorem commit_cases {s t : State} {r : Except Cause State} (h : s.commit r = .next t) :
    (∃ u, r = .ok u ∧ t = u.finish) ∨ ∃ c, r = .error c ∧ t = s.takeFault c := by
  cases r with
  | ok u => exact .inl ⟨u, rfl, by simpa using h.symm⟩
  | error c => exact .inr ⟨c, rfl, by simpa using h.symm⟩

/-- What a command that does not fault leaves before its end: every register by a new value or as it was,
and what no command writes. -/
structure Effect (s u : State) : Prop where
  params : u.params = s.params
  pending : u.pending = s.pending
  opa : u.opa = s.opa
  err : u.err = s.err
  ovrn : u.ovrn = s.ovrn
  cause : u.cause = s.cause
  bufEpoch : u.bufEpoch = s.bufEpoch
  fresh : u.fresh = s.fresh
  agenda : u.agenda = s.agenda
  observed : u.observed = s.observed

/-- `Except.map` gives a value exactly of a value. -/
theorem map_eq_ok {ε α β : Type} {r : Except ε α} {f : α → β} {b : β} (h : r.map f = .ok b) :
    ∃ a, r = .ok a ∧ b = f a := by
  cases r with
  | ok a => exact ⟨a, rfl, by simpa [Except.map] using h.symm⟩
  | error e => simp [Except.map] at h

/-- Every command is one commit of an effect or a fault. -/
theorem exec_commit (i : Instr) (s : State) :
    ∃ r, exec i s = s.commit r ∧ ∀ u, r = .ok u → Effect s u := by
  cases i <;>
    simp only [exec, execSetprec, execQuantS, execQuantD, quant, execDequantS, execDequantD, dequant,
      execEstClr, execEstAccS, execEstAccD, estAcc, execEstFinS, execEstFinD, estFin, execSetbw,
      execBufclr, execSetwcur, execPack, execSetrcur, execUnpack] <;>
    refine ⟨_, rfl, fun u hu => ?_⟩
  case estClr | bufclr | setwcur | setrcur => cases hu; constructor <;> rfl
  case setbw => split at hu <;> cases hu; constructor <;> rfl
  case pack =>
    split at hu
    · cases hu
    · split at hu <;> cases hu; constructor <;> simp
  case unpack =>
    split at hu
    · cases hu
    · split at hu <;> cases hu; constructor <;> rfl
  all_goals obtain ⟨a, -, rfl⟩ := map_eq_ok hu; constructor <;> rfl

/-- A command answers its effect, ended, or its fault. -/
theorem exec_cases {i : Instr} {s t : State} (h : exec i s = .next t) :
    (∃ u, Effect s u ∧ t = u.finish) ∨ ∃ c, t = s.takeFault c := by
  obtain ⟨r, hr, he⟩ := exec_commit i s
  rw [hr] at h
  rcases commit_cases h with ⟨u, hu, ht⟩ | ⟨c, -, ht⟩
  · exact .inl ⟨u, he u hu, ht⟩
  · exact .inr ⟨c, ht⟩

/-- A command always answers a next state. -/
theorem exec_next (i : Instr) (s : State) : ∃ t, exec i s = .next t := by
  obtain ⟨r, hr, -⟩ := exec_commit i s
  rw [hr]
  cases r with
  | ok u => exact ⟨_, rfl⟩
  | error c => exact ⟨_, rfl⟩

/-- After a command BUSY is 0. -/
theorem exec_not_busy {i : Instr} {s t : State} (h : exec i s = .next t) : t.busy = false := by
  rcases exec_cases h with ⟨u, -, rfl⟩ | ⟨c, rfl⟩ <;> rfl

/-! The HOST's transactions -/

/-- The bytes of a buffer place are inside the buffer. -/
theorem place_buffer {s : State} {off : Nat} {n : AccessSize} {i : Nat} (h : s.place off n = .buffer i) :
    i + n.bytes ≤ s.params.bufBytes ∧ off = Config.bufBase + i := by
  simp only [State.place] at h
  generalize Config.bufBase = B at h ⊢
  split at h
  · cases h
  · split at h
    · cases h
    · split at h
      · split at h <;> split at h <;> cases h
      · split at h
        · cases h
        · simp only [Place.buffer.injEq] at h; omega

/-- The register at an offset of the map (20_memory.md R54). -/
theorem regAt_eq_some {off : Nat} {r : Reg} : regAt off = some r ↔ off = r.offset := by
  constructor
  · intro h
    have := List.find?_some (p := fun r => Reg.offset r == off) h
    exact (beq_iff_eq.mp this).symm
  · rintro rfl; cases r <;> rfl

/-- An offset that is no register's (10_state.md R42). -/
theorem regAt_eq_none {off : Nat} : regAt off = none ↔ ∀ r : Reg, off ≠ r.offset := by
  cases hc : regAt off with
  | none => simpa using fun r hr => by simp [regAt_eq_some.mpr hr] at hc
  | some r => simpa using ⟨r, regAt_eq_some.mp hc⟩

theorem bufBase_eq : Config.bufBase = 0x1000 := rfl

/-- An aligned access below 0x1000 is to the register there, or to none (20_memory.md R55, R56,
10_state.md R42). -/
theorem place_below (s : State) {off : Nat} {n : AccessSize} (h : off < 0x1000) (ha : off % n.bytes = 0) :
    (∀ r, regAt off = some r → s.place off n = if n = .eight then .register r else .irregular) ∧
    (regAt off = none → s.place off n = if n = .eight then .reserved else .vacant) := by
  have hB := bufBase_eq
  have key : ∀ o, regAt off = o → s.place off n = match o with
      | some r => if n = .eight then .register r else .irregular
      | none => if n = .eight then .reserved else .vacant := by
    rintro o rfl
    simp only [State.place]
    refine (if_neg (by omega)).trans ((if_neg (by omega)).trans ((if_pos (by omega)).trans ?_))
    cases regAt off <;> rfl
  exact ⟨fun r hr => key _ hr, fun hr => key _ hr⟩

/-- A register's offset is that register's place. -/
@[simp] theorem place_offset (s : State) (r : Reg) : s.place r.offset .eight = .register r := by
  refine ((place_below s ?_ ?_).1 r (regAt_eq_some.mpr rfl)).trans (if_pos rfl) <;> cases r <;> decide

/-- An aligned offset below 0x1000 that is no register is reserved (10_state.md R42). -/
theorem place_reserved (s : State) {off : Nat} (h : off < 0x1000) (ha : off % 8 = 0)
    (hr : ∀ r : Reg, off ≠ r.offset) : s.place off .eight = .reserved :=
  ((place_below s (n := .eight) h ha).2 (regAt_eq_none.mpr hr)).trans (if_pos rfl)

/-- A narrower aligned access at an offset below 0x1000 that is no register's (10_state.md R42; log 6). -/
theorem place_vacant (s : State) {off : Nat} {n : AccessSize} (h : off < 0x1000) (ha : off % n.bytes = 0)
    (hn : n ≠ .eight) (hr : ∀ r : Reg, off ≠ r.offset) : s.place off n = .vacant :=
  ((place_below s h ha).2 (regAt_eq_none.mpr hr)).trans (if_neg hn)

/-- At or above the end of the window an access is outside it (10_state.md R42, 20_memory.md R56). -/
theorem place_outside (s : State) {off : Nat} (n : AccessSize) (h : 0x1000 + s.params.bufBytes ≤ off) :
    s.place off n = .outside := by
  have hB := bufBase_eq
  simp only [State.place]
  rw [if_pos (by omega)]

/-- An aligned access inside the buffer (20_memory.md R55). -/
theorem place_inside (s : State) {a : Nat} {n : AccessSize} (ha : a % n.bytes = 0)
    (h : a + n.bytes ≤ s.params.bufBytes) : s.place (0x1000 + a) n = .buffer a := by
  have hB := bufBase_eq
  have hn : 0 < n.bytes := by cases n <;> decide
  have hm : (0x1000 + a) % n.bytes = 0 := by
    cases n <;> simp only [AccessSize.bytes] at ha ⊢ <;> omega
  simp only [State.place]
  rw [if_neg (by omega), if_neg (by omega), if_neg (by omega), if_neg (by omega),
    show 0x1000 + a - Config.bufBase = a by omega]

/-- The accesses of 20_memory.md R56 are irregular, or vacant, or outside the window. -/
theorem place_irregular (s : State) {off : Nat} {n : AccessSize}
    (h : off % n.bytes ≠ 0 ∨ (off < 0x1000 ∧ n ≠ .eight) ∨
      (0x1000 ≤ off ∧ 0x1000 + s.params.bufBytes < off + n.bytes)) :
    s.place off n = .irregular ∨ s.place off n = .vacant ∨ s.place off n = .outside := by
  have hB := bufBase_eq
  by_cases h0 : 0x1000 + s.params.bufBytes ≤ off
  · exact .inr (.inr (place_outside s n h0))
  by_cases h1 : off % n.bytes = 0
  · by_cases h2 : off < 0x1000
    · have hn : n ≠ .eight := by
        rcases h with h | h | h
        · exact absurd h1 h
        · exact h.2
        · omega
      cases hr : regAt off with
      | some r => exact .inl (((place_below s h2 h1).1 r hr).trans (if_neg hn))
      | none => exact .inr (.inl (((place_below s h2 h1).2 hr).trans (if_neg hn)))
    · left
      simp only [State.place]
      rw [if_neg (by omega), if_neg (by omega), if_neg (by omega), if_pos (by omega)]
  · left
    simp only [State.place]
    rw [if_neg (by omega), if_pos h1]

/-- A byte of the buffer, and one outside it. -/
theorem bytePlace_inside (s : State) {i : Nat} (h : i < s.params.bufBytes) : s.bytePlace i = .buffer i := if_pos h

theorem bytePlace_outside (s : State) {i : Nat} (h : s.params.bufBytes ≤ i) : s.bytePlace i = .outside :=
  if_neg (by omega)

/-- What one HOST transaction can do (20_memory.md R55 to R59, 10_state.md R23, R30, R41, R42,
70_reset_and_hazards.md R230, R235, R236). -/
theorem hostStep_cases (s : State) (x : HostTxn) :
    s.hostStep x = s ∨
    (x = .reset ∧ s.hostStep x = s.resetCore) ∨
    (∃ v, s.hostStep x = s.observe x v) ∨
    (∃ n, s.hostStep x = s.observeFree x n) ∨
    (s.busy = true ∧ s.hostStep x = s.noteOverrun) ∨
    (s.busy = false ∧ ∃ v r, s.hostStep x = s.writeReg v r) ∨
    (s.busy = false ∧ ∃ i v n, i + n ≤ s.params.bufBytes ∧ s.hostStep x = s.memWrite i v n) := by
  have hw : ∀ (n : Nat) (v : Word) (p : Place), (∀ i, p = .buffer i → i + n ≤ s.params.bufBytes) →
      s.writePlace n v p = s ∨ (s.busy = true ∧ s.writePlace n v p = s.noteOverrun) ∨
      (s.busy = false ∧ ∃ v' r, s.writePlace n v p = s.writeReg v' r) ∨
      (s.busy = false ∧ ∃ i v' m, i + m ≤ s.params.bufBytes ∧ s.writePlace n v p = s.memWrite i v' m) := by
    intro n v p hp
    by_cases hb : s.busy = true
    · cases p with
      | register r => exact .inr (.inl ⟨hb, by simp only [State.writePlace, hb, if_true]⟩)
      | reserved => exact .inr (.inl ⟨hb, by simp only [State.writePlace, hb, if_true]⟩)
      | buffer i => exact .inr (.inl ⟨hb, by simp only [State.writePlace, hb, if_true]⟩)
      | vacant | irregular | outside => exact .inl rfl
    · have hf := Bool.eq_false_iff.mpr hb
      cases p with
      | register r => exact .inr (.inr (.inl ⟨hf, v, r, by simp only [State.writePlace, if_neg hb]⟩))
      | reserved => exact .inl (by simp only [State.writePlace, if_neg hb])
      | buffer i =>
        exact .inr (.inr (.inr ⟨hf, i, v, n, hp i rfl, by simp only [State.writePlace, if_neg hb]⟩))
      | vacant | irregular | outside => exact .inl rfl
  have hr : ∀ (n : Nat) (p : Place),
      (∃ v, s.readPlace x n p = s.observe x v) ∨ ∃ m, s.readPlace x n p = s.observeFree x m := by
    intro n p
    cases p with
    | register r =>
      simp only [State.readPlace]
      split
      · exact .inr ⟨_, rfl⟩
      · exact .inl ⟨_, rfl⟩
    | buffer i =>
      simp only [State.readPlace]
      split
      · exact .inr ⟨_, rfl⟩
      · exact .inl ⟨_, rfl⟩
    | irregular => exact .inr ⟨_, rfl⟩
    | reserved | vacant | outside => exact .inl ⟨_, rfl⟩
  have hbyte : ∀ i j, s.bytePlace i = .buffer j → j + 1 ≤ s.params.bufBytes := by
    intro i j h
    simp only [State.bytePlace] at h
    split at h
    · cases h; omega
    · cases h
  cases x with
  | reset => exact .inr (.inl ⟨rfl, rfl⟩)
  | write off v =>
    rcases hw 8 v (s.place off .eight) (fun i h => (place_buffer h).1) with h | h | h | h
    · exact .inl h
    · exact .inr (.inr (.inr (.inr (.inl h))))
    · exact .inr (.inr (.inr (.inr (.inr (.inl h)))))
    · exact .inr (.inr (.inr (.inr (.inr (.inr h)))))
  | bufWrite i b =>
    rcases hw 1 (b.setWidth 64) (s.bytePlace i) (fun j h => hbyte i j h) with h | h | h | h
    · exact .inl h
    · exact .inr (.inr (.inr (.inr (.inl h))))
    · exact .inr (.inr (.inr (.inr (.inr (.inl h)))))
    · exact .inr (.inr (.inr (.inr (.inr (.inr h)))))
  | busWrite off n v =>
    rcases hw n.bytes v (s.place off n) (fun i h => (place_buffer h).1) with h | h | h | h
    · exact .inl h
    · exact .inr (.inr (.inr (.inr (.inl h))))
    · exact .inr (.inr (.inr (.inr (.inr (.inl h)))))
    · exact .inr (.inr (.inr (.inr (.inr (.inr h)))))
  | read off =>
    rcases hr 8 (s.place off .eight) with h | h
    · exact .inr (.inr (.inl h))
    · exact .inr (.inr (.inr (.inl h)))
  | bufRead i =>
    rcases hr 1 (s.bytePlace i) with h | h
    · exact .inr (.inr (.inl h))
    · exact .inr (.inr (.inr (.inl h)))
  | busRead off n =>
    rcases hr n.bytes (s.place off n) with h | h
    · exact .inr (.inr (.inl h))
    · exact .inr (.inr (.inr (.inl h)))

/-- What a register write can do (10_state.md R23, R30, R41). -/
theorem writeReg_cases (s : State) (v : Word) (r : Reg) :
    s.writeReg v r = s ∨
    (s.err = false ∧ s.writeReg v r =
      { s with pending := { valid := true, word := v.setWidth 32, opa := s.opa } }) ∨
    s.writeReg v r = { s with opa := v } ∨
    s.writeReg v r = s.ackStatus v := by
  cases r with
  | cmd =>
    cases h : s.err with
    | false => exact .inr (.inl ⟨rfl, by simp only [State.writeReg, State.writeCmd, h, Bool.false_eq_true, if_false]⟩)
    | true => exact .inl (by simp only [State.writeReg, State.writeCmd, h, if_true])
  | opa => exact .inr (.inr (.inl rfl))
  | status => exact .inr (.inr (.inr rfl))
  | result | step | scale | bw | maxabs | wcur | rcur | params => exact .inl rfl

/-- A STATUS write, field by field (10_state.md R30). -/
theorem ackStatus_eq (s : State) (v : Word) :
    s.ackStatus v = { s with
      err := s.err && !v.getLsbD 1
      cause := if v.getLsbD 1 then 0 else s.cause
      sat := s.sat && !v.getLsbD 2
      ovrn := s.ovrn && !v.getLsbD 3 } := by
  simp only [State.ackStatus, State.clearFault]
  cases v.getLsbD 1 <;> cases v.getLsbD 2 <;> cases v.getLsbD 3 <;> simp

/-- The bits of STATUS (10_state.md R24, R25). -/
theorem getLsbD_statusWord (s : State) (j : Nat) :
    s.statusWord.getLsbD j =
      if j = 0 then s.busy else if j = 1 then s.err else if j = 2 then s.sat else if j = 3 then s.ovrn
      else decide (8 ≤ j) && s.cause.getLsbD (j - 8) := by
  change BitVec.getLsbD (w := 52 + 4 + 4 + 1 + 1 + 1 + 1)
    (0#52 ++ s.cause ++ 0#4 ++ BitVec.ofBool s.ovrn ++ BitVec.ofBool s.sat ++ BitVec.ofBool s.err
      ++ BitVec.ofBool s.busy) j = _
  simp only [BitVec.getLsbD_append]
  rcases (by omega : j = 0 ∨ j = 1 ∨ j = 2 ∨ j = 3 ∨ 4 ≤ j) with rfl | rfl | rfl | rfl | h
  · simp
  · simp
  · simp
  · simp
  · obtain ⟨k, rfl⟩ := Nat.exists_eq_add_of_le h
    simp only [show ¬ 4 + k < 1 by omega, show ¬ 4 + k - 1 < 1 by omega, show ¬ 4 + k - 1 - 1 < 1 by omega,
      show ¬ 4 + k - 1 - 1 - 1 < 1 by omega, show 4 + k - 1 - 1 - 1 - 1 = k by omega,
      show 4 + k - 8 = k - 4 by omega, show (8 ≤ 4 + k) = (4 ≤ k) from propext (by omega),
      show ¬ 4 + k = 0 by omega, show ¬ 4 + k = 1 by omega, show ¬ 4 + k = 2 by omega,
      show ¬ 4 + k = 3 by omega, if_false]
    by_cases h4 : k < 4
    · simp [h4, show ¬ 4 ≤ k by omega]
    · by_cases h8 : k - 4 < 4
      · simp [h4, h8, show 4 ≤ k by omega]
      · rw [BitVec.getLsbD_of_ge s.cause _ (by omega)]; simp [h4, h8]

/-- The bits of PARAMS (10_state.md R37). -/
theorem getLsbD_paramsWord (s : State) (j : Nat) :
    s.paramsWord.getLsbD j =
      if j < 32 then (BitVec.ofNat 32 s.params.bufBytes).getLsbD j
      else if j < 40 then (BitVec.ofNat 8 s.params.w.bits).getLsbD (j - 32)
      else if j = 40 then roundModeBit s.params.roundMode
      else decide (56 ≤ j) && (BitVec.ofNat 8 Config.version).getLsbD (j - 56) := by
  change BitVec.getLsbD (w := 8 + 15 + 1 + 8 + 32)
    (BitVec.ofNat 8 Config.version ++ 0#15 ++ BitVec.ofBool (roundModeBit s.params.roundMode)
      ++ BitVec.ofNat 8 s.params.w.bits ++ BitVec.ofNat 32 s.params.bufBytes) j = _
  simp only [BitVec.getLsbD_append]
  by_cases h1 : j < 32
  · simp only [h1, if_true]
  · by_cases h2 : j < 40
    · simp only [h1, h2, show j - 32 < 8 by omega, if_true, if_false]
    · by_cases h3 : j = 40
      · subst h3; simp
      · by_cases h4 : 56 ≤ j
        · simp only [h1, h2, h3, h4, show ¬ j - 32 < 8 by omega, show ¬ j - 32 - 8 < 1 by omega,
            show ¬ j - 32 - 8 - 1 < 15 by omega, show j - 32 - 8 - 1 - 15 = j - 56 by omega, if_false]
          simp
        · simp [h1, h2, h3, h4, show ¬ j - 32 < 8 by omega, show ¬ j - 32 - 8 < 1 by omega,
            show j - 32 - 8 - 1 < 15 by omega]

/-! Steps -/

/-- What the CORE's step can do. -/
theorem coreStep_cases {s t : State} (h : coreStep s = .next t) :
    (s.busy = false ∧ t = s) ∨
    (s.busy = true ∧ ∃ i, decode s.pending.word = .ok i ∧ exec i s = .next t) ∨
    (s.busy = true ∧ (∃ e, decode s.pending.word = .error e) ∧ t = s.takeFault .illegalCommand) := by
  simp only [coreStep] at h
  split at h
  · rename_i hb
    split at h
    · rename_i i hi; exact .inr (.inl ⟨hb, i, hi, h⟩)
    · rename_i e he
      exact .inr (.inr ⟨hb, ⟨e, he⟩, by simpa using h.symm⟩)
  · rename_i hb
    exact .inl ⟨by simpa using hb, by simpa using h.symm⟩

/-- The CORE's step answers a next state. -/
theorem coreStep_next (s : State) : ∃ t, coreStep s = .next t := by
  simp only [coreStep]
  split
  · split
    · exact exec_next _ s
    · exact ⟨_, rfl⟩
  · exact ⟨_, rfl⟩

/-- What a step can do: the CORE's step, or a HOST transaction, with the agenda as it then is. -/
theorem step_cases {s t : State} (h : step s = .next t) :
    (s.agenda = [] ∧ coreStep s = .next t) ∨
    (∃ ts, s.agenda = .core :: ts ∧ coreStep { s with agenda := ts } = .next t) ∨
    (∃ n ts, s.agenda = .wait n :: ts ∧ s.busy = true ∧ n = 0 ∧ coreStep s = .next t) ∨
    (∃ x ts, s.agenda = .host x :: ts ∧ t = State.hostStep { s with agenda := ts } x) ∨
    (∃ n ts, s.agenda = .wait (n + 1) :: ts ∧ s.busy = true ∧
      t = State.hostStep { s with agenda := .wait n :: ts } (.read 0x018)) ∨
    (∃ n ts, s.agenda = .wait n :: ts ∧ s.busy = false ∧
      t = State.hostStep { s with agenda := ts } (.read 0x018)) := by
  simp only [step] at h
  split at h
  · rename_i ha; exact .inl ⟨ha, h⟩
  · rename_i ts ha; exact .inr (.inl ⟨ts, ha, h⟩)
  · rename_i x ts ha; exact .inr (.inr (.inr (.inl ⟨x, ts, ha, by simpa using h.symm⟩)))
  · rename_i n ts ha
    split at h
    · rename_i hb
      split at h
      · exact .inr (.inr (.inl ⟨0, ts, ha, hb, rfl, h⟩))
      · rename_i n
        injection h with h
        exact .inr (.inr (.inr (.inr (.inl ⟨n, ts, ha, hb, h.symm⟩))))
    · rename_i hb
      injection h with h
      exact .inr (.inr (.inr (.inr (.inr ⟨n, ts, ha, by simpa using hb, h.symm⟩))))

/-- A poll of STATUS observes it and changes nothing else (30_encoding.md R80). -/
@[simp] theorem pollStatus_eq (s : State) : pollStatus s = s.observe (.read 0x018) s.statusWord := by
  have hp := place_offset s .status
  simp only [pollStatus, State.hostStep, hp, State.readPlace, Reg.readableBusy, Bool.not_true,
    Bool.and_false, Bool.false_eq_true, if_false]
  rfl

end Sys2Proof.Laws
end

