-- ==== Sys2Proof/Laws/Rounding.lean ====
section
/-! SUPPORT. What `roundInt` answers (00_scope.md R13): a nearest integer, monotone, odd, at most the ceiling. -/

namespace Sys2Proof.Laws

open Sys2Proof

/-- The cases of `roundInt` in terms of an integer `n ≤ x < n + 1`. -/
theorem roundInt_cases (mode : RoundMode) (x : ℚ) :
    ∃ n : ℤ, (n : ℚ) ≤ x ∧ x < n + 1 ∧
      ((x - n < 1 / 2 ∧ roundInt mode x = n) ∨ (1 / 2 < x - n ∧ roundInt mode x = n + 1) ∨
       (x - n = 1 / 2 ∧ mode = .tiesEven ∧ n % 2 = 0 ∧ roundInt mode x = n) ∨
       (x - n = 1 / 2 ∧ mode = .tiesEven ∧ n % 2 = 1 ∧ roundInt mode x = n + 1) ∨
       (x - n = 1 / 2 ∧ mode = .tiesAway ∧ 0 ≤ n ∧ roundInt mode x = n + 1) ∨
       (x - n = 1 / 2 ∧ mode = .tiesAway ∧ n < 0 ∧ roundInt mode x = n)) := by
  refine ⟨x.floor, Rat.floor_le x, by exact_mod_cast Rat.lt_floor_add_one x, ?_⟩
  unfold roundInt
  rcases lt_trichotomy (x - x.floor) (1 / 2) with h | h | h
  · left; refine ⟨h, ?_⟩; rw [if_pos h]
  · have h1 : ¬ (x - x.floor < 1 / 2) := by simp [h]
    have h2 : ¬ (1 / 2 < x - x.floor) := by simp [h]
    cases mode
    · rcases Int.emod_two_eq_zero_or_one x.floor with e | e <;> simp [h, e]
    · rcases lt_or_ge x.floor 0 with e | e
      · simp [h, e, Int.not_le.mpr e]
      · simp [h, e, Int.not_lt.mpr e]
  · have h1 : ¬ (x - x.floor < 1 / 2) := by linarith
    right; left; refine ⟨h, ?_⟩; rw [if_neg h1, if_pos h]

theorem roundInt_dist (mode : RoundMode) (x : ℚ) : |(roundInt mode x : ℚ) - x| ≤ 1 / 2 := by
  obtain ⟨n, h1, h2, h⟩ := roundInt_cases mode x
  rw [abs_le]
  rcases h with ⟨a, e⟩ | ⟨a, e⟩ | ⟨a, -, -, e⟩ | ⟨a, -, -, e⟩ | ⟨a, -, -, e⟩ | ⟨a, -, -, e⟩ <;>
    rw [e] <;> push_cast <;> constructor <;> linarith

/-- An integer within less than one half is the result. -/
theorem roundInt_eq_of_dist (mode : RoundMode) {x : ℚ} {n : ℤ} (h : |(n : ℚ) - x| < 1 / 2) :
    roundInt mode x = n := by
  have h1 := roundInt_dist mode x
  rw [abs_lt] at h; rw [abs_le] at h1
  have : |((roundInt mode x - n : ℤ) : ℚ)| < 1 := by
    push_cast; rw [abs_lt]; constructor <;> linarith
  have h2 : |roundInt mode x - n| < 1 := by exact_mod_cast this
  rw [abs_lt] at h2; omega

theorem roundInt_int (mode : RoundMode) (n : ℤ) : roundInt mode n = n :=
  roundInt_eq_of_dist mode (by simp)

/-- The result is a nearest integer. -/
theorem roundInt_nearest (mode : RoundMode) (x : ℚ) (n : ℤ) :
    |(roundInt mode x : ℚ) - x| ≤ |(n : ℚ) - x| := by
  by_contra hc
  push Not at hc
  have h := roundInt_dist mode x
  exact absurd (roundInt_eq_of_dist mode (lt_of_lt_of_le hc h)) (by rintro e; rw [e] at hc; exact lt_irrefl _ hc)

/-- At an exact tie the result is even, or of larger magnitude than the other neighbour. -/
theorem roundInt_tie (mode : RoundMode) {x : ℚ} {n : ℤ} (hn : n ≠ roundInt mode x)
    (h : |(n : ℚ) - x| = |(roundInt mode x : ℚ) - x|) :
    (mode = .tiesEven → roundInt mode x % 2 = 0) ∧ (mode = .tiesAway → |n| < |roundInt mode x|) := by
  obtain ⟨k, h1, h2, hc⟩ := roundInt_cases mode x
  -- both neighbours of a tie are at distance one half
  have key : ∀ r : ℤ, (n : ℚ) ≠ r → |(n : ℚ) - x| = |(r : ℚ) - x| → (n : ℚ) = 2 * x - r := by
    intro r hr he
    rcases abs_eq_abs.mp he with e | e
    · exact absurd (by linarith) hr
    · linarith
  have hq : (n : ℚ) = 2 * x - roundInt mode x := key _ (by exact_mod_cast hn) h
  rcases hc with ⟨a, e⟩ | ⟨a, e⟩ | ⟨a, m, p, e⟩ | ⟨a, m, p, e⟩ | ⟨a, m, p, e⟩ | ⟨a, m, p, e⟩ <;> rw [e] at hq hn ⊢
  · exfalso
    have l : (k : ℚ) ≤ n := by linarith
    have u : (n : ℚ) < k + 1 := by linarith
    have l' : k ≤ n := by exact_mod_cast l
    have u' : n < k + 1 := by exact_mod_cast u
    omega
  · exfalso
    push_cast at hq
    have l : (k : ℚ) < n := by linarith
    have u : (n : ℚ) ≤ k + 1 := by linarith
    have l' : k < n := by exact_mod_cast l
    have u' : n ≤ k + 1 := by exact_mod_cast u
    omega
  all_goals push_cast at hq
  · simp [m, p]
  · exact ⟨fun _ => by omega, by simp [m]⟩
  · have : n = k := by exact_mod_cast (show (n : ℚ) = k by linarith)
    subst this
    exact ⟨by simp [m], fun _ => by rw [abs_of_nonneg p, abs_of_nonneg (by omega)]; omega⟩
  · have : n = k + 1 := by exact_mod_cast (show (n : ℚ) = k + 1 by linarith)
    subst this
    exact ⟨by simp [m], fun _ => by rw [abs_of_nonpos (by omega), abs_of_neg p]; omega⟩

theorem roundInt_mono (mode : RoundMode) {x y : ℚ} (h : x ≤ y) : roundInt mode x ≤ roundInt mode y := by
  rcases eq_or_lt_of_le h with rfl | h
  · exact le_rfl
  by_contra hc
  push Not at hc
  have a := roundInt_nearest mode x (roundInt mode y)
  have b := roundInt_nearest mode y (roundInt mode x)
  have c : (roundInt mode y : ℚ) < roundInt mode x := by exact_mod_cast hc
  have dx := abs_le.mp (roundInt_dist mode x)
  have dy := abs_le.mp (roundInt_dist mode y)
  have gap : (roundInt mode y : ℚ) + 1 ≤ roundInt mode x := by exact_mod_cast hc
  linarith

theorem roundInt_neg (mode : RoundMode) (x : ℚ) : roundInt mode (-x) = -roundInt mode x := by
  by_cases hd : |(roundInt mode x : ℚ) - x| < 1 / 2
  · apply roundInt_eq_of_dist
    have : (((-roundInt mode x : ℤ) : ℚ) - -x) = -((roundInt mode x : ℚ) - x) := by push_cast; ring
    rw [this, abs_neg]; exact hd
  · obtain ⟨n, h1, h2, h⟩ := roundInt_cases mode x
    obtain ⟨m, k1, k2, k⟩ := roundInt_cases mode (-x)
    have hx : x - n = 1 / 2 := by
      by_contra hne
      apply hd; rw [abs_lt]
      rcases h with ⟨a, e⟩ | ⟨a, e⟩ | ⟨a, -, -, e⟩ | ⟨a, -, -, e⟩ | ⟨a, -, -, e⟩ | ⟨a, -, -, e⟩ <;>
        first | exact absurd a hne | (rw [e]; push_cast; constructor <;> linarith)
    have hm : m = -n - 1 := by
      have l : (m : ℚ) < -n := by linarith
      have u : (-n : ℚ) - 2 < m := by linarith
      have l' : m < -n := by exact_mod_cast l
      have u' : -n - 2 < m := by exact_mod_cast u
      omega
    have hmx : -x - m = 1 / 2 := by rw [hm]; push_cast; linarith
    rcases h with ⟨a, e⟩ | ⟨a, e⟩ | ⟨a, q, p, e⟩ | ⟨a, q, p, e⟩ | ⟨a, q, p, e⟩ | ⟨a, q, p, e⟩ <;>
    rcases k with ⟨a', e'⟩ | ⟨a', e'⟩ | ⟨a', q', p', e'⟩ | ⟨a', q', p', e'⟩ | ⟨a', q', p', e'⟩ | ⟨a', q', p', e'⟩ <;>
    first
      | (exfalso; linarith)
      | (rw [e, e']; omega)
      | (exfalso; rw [q] at q'; exact absurd q' (by decide))

theorem roundInt_le_ceil (mode : RoundMode) (x : ℚ) : roundInt mode x ≤ x.ceil := by
  have h := roundInt_mono mode (Rat.le_ceil (x := x))
  rwa [roundInt_int] at h

theorem roundInt_nonneg (mode : RoundMode) {x : ℚ} (h : 0 ≤ x) : 0 ≤ roundInt mode x := by
  have h := roundInt_mono mode h
  have z := roundInt_int mode 0
  push_cast at z
  omega
/-- The ceiling of the model is the usual one. -/
theorem ratCeil_eq (r : ℚ) : r.ceil = ⌈r⌉ := by
  apply le_antisymm
  · rw [Rat.ceil_le_iff]; exact Int.le_ceil r
  · rw [Int.ceil_le]; exact Rat.le_ceil

end Sys2Proof.Laws
end

