-- ==== Sys2Proof/Laws/Float.lean ====
section
/-! SUPPORT. What rounding to a format answers (00_scope.md R9, R11): the patterns in the order of their values, the nearest one, monotone, exact on the values of the format. -/

namespace Sys2Proof.Laws

open Sys2Proof

theorem fracBits_pos (F : Fmt) : 1 ≤ F.fracBits := by cases F <;> decide

theorem infMag_lt (F : Fmt) : F.infMag < 2 ^ F.signBit := by cases F <;> decide

theorem signBit_lt (F : Fmt) : F.signBit < 64 := by cases F <;> decide

theorem infMag_even (F : Fmt) : F.infMag % 2 = 0 := by cases F <;> decide

theorem infMag_pos (F : Fmt) : 0 < F.infMag := by cases F <;> decide

/-- Neighbouring patterns differ by one unit in the last place. -/
theorem units_succ (F : Fmt) (m : ℕ) :
    F.units (m + 1) = F.units m + 2 ^ (m / 2 ^ F.fracBits - 1) := by
  obtain ⟨P, hP, hP1⟩ : ∃ P, P = 2 ^ F.fracBits ∧ 0 < P := ⟨_, rfl, by positivity⟩
  simp only [Fmt.units]
  rw [← hP]
  have hm := Nat.div_add_mod m P
  have hlt := Nat.mod_lt m hP1
  set e := m / P with he
  set f := m % P with hf
  by_cases hc : f + 1 < P
  · have h1 : (m + 1) / P = e := by
      rw [← hm, Nat.add_assoc, Nat.mul_add_div hP1, Nat.div_eq_of_lt hc]; rfl
    have h2 : (m + 1) % P = f + 1 := by
      rw [← hm, Nat.add_assoc, Nat.mul_add_mod, Nat.mod_eq_of_lt hc]
    rw [h1, h2]
    by_cases h0 : e = 0
    · simp [h0]
    · simp only [h0, if_false]; ring
  · have hfP : f + 1 = P := by omega
    have hm' : m + 1 = P * (e + 1) := by rw [← hm, Nat.add_assoc, hfP]; ring
    have h1 : (m + 1) / P = e + 1 := by rw [hm', Nat.mul_div_cancel_left _ hP1]
    have h2 : (m + 1) % P = 0 := by rw [hm', Nat.mul_mod_right]
    rw [h1, h2, if_neg (Nat.succ_ne_zero e), Nat.add_zero, Nat.add_sub_cancel]
    clear_value e f
    cases e with
    | zero => simp; omega
    | succ k =>
      rw [if_neg (Nat.succ_ne_zero k), Nat.add_sub_cancel, pow_succ, ← hfP]; ring

theorem units_strictMono (F : Fmt) : StrictMono F.units :=
  strictMono_nat_of_lt_succ fun m => by rw [units_succ]; exact Nat.lt_add_of_pos_right (by positivity)

@[simp] theorem units_zero (F : Fmt) : F.units 0 = 0 := by simp [Fmt.units]

/-- The fields `k × 2^fracBits + m` stand for `m × 2^k`, for a normalised `m` or `k = 0`. -/
theorem units_fields (F : Fmt) {k m : ℕ} (hm : m ≤ 2 * 2 ^ F.fracBits) (hk : k = 0 ∨ 2 ^ F.fracBits ≤ m) :
    F.units (k * 2 ^ F.fracBits + m) = m * 2 ^ k := by
  obtain ⟨P, hP, hP1⟩ : ∃ P, P = 2 ^ F.fracBits ∧ 0 < P := ⟨_, rfl, by positivity⟩
  simp only [Fmt.units]
  rw [← hP] at hm hk ⊢
  have hdiv : (k * P + m) / P = k + m / P := by rw [Nat.mul_comm, Nat.mul_add_div hP1]
  have hmod : (k * P + m) % P = m % P := by rw [Nat.mul_comm, Nat.mul_add_mod]
  rw [hdiv, hmod]
  rcases lt_or_ge m P with h | h
  · have h0 : k = 0 := by rcases hk with h' | h' <;> omega
    simp [h0, Nat.div_eq_of_lt h, Nat.mod_eq_of_lt h]
  · rcases lt_or_eq_of_le hm with h2 | h2
    · have hd : m / P = 1 := Nat.div_eq_of_lt_le (by omega) (by omega)
      have hr : m % P = m - P := by rw [Nat.mod_eq_sub_mod h, Nat.mod_eq_of_lt (by omega)]
      rw [hd, hr, if_neg (by omega), Nat.add_sub_cancel]; congr 1; omega
    · have hd : m / P = 2 := by rw [h2, Nat.mul_div_cancel _ hP1]
      have hr : m % P = 0 := by rw [h2, Nat.mul_mod_left]
      rw [hd, hr, if_neg (by omega), h2]
      have : k + 2 - 1 = k + 1 := by omega
      rw [this, pow_succ]; ring

/-- A magnitude of at least `2^fracBits × 2^k` units is a multiple of `2^k` units. -/
theorem units_dvd (F : Fmt) {k n : ℕ} (h : 2 ^ F.fracBits * 2 ^ k ≤ F.units n) : 2 ^ k ∣ F.units n := by
  obtain ⟨P, hP, hP1⟩ : ∃ P, P = 2 ^ F.fracBits ∧ 0 < P := ⟨_, rfl, by positivity⟩
  simp only [Fmt.units] at h ⊢
  rw [← hP] at h ⊢
  have hlt := Nat.mod_lt n hP1
  by_cases h0 : n / P = 0
  · rw [if_pos h0] at h
    have : 1 ≤ 2 ^ k := Nat.one_le_two_pow
    nlinarith
  · rw [if_neg h0] at h ⊢
    have hk : k ≤ n / P - 1 := by
      by_contra hc
      push Not at hc
      have h2 : 2 ^ (n / P - 1) * 2 ≤ 2 ^ k := by
        rw [← pow_succ]; exact Nat.pow_le_pow_right (by norm_num) (by omega)
      have : 0 < 2 ^ (n / P - 1) := by positivity
      nlinarith
    exact dvd_mul_of_dvd_right (pow_dvd_pow 2 hk) _

/-- The rounding of a magnitude before it is capped at infinity. -/
def nearMag (F : Fmt) (u : ℚ) : ℕ :=
  (Nat.log2 u.floor.toNat - F.fracBits) * 2 ^ F.fracBits +
    (roundInt .tiesEven (u / ((2 ^ (Nat.log2 u.floor.toNat - F.fracBits) : ℕ) : ℚ))).toNat

theorem roundMag_eq (F : Fmt) (x : ℚ) :
    F.roundMag x = min (nearMag F (x * ((2 ^ F.quantumExp : ℕ) : ℚ))) F.infMag := rfl

/-- The power of two and the integer that `nearMag` is made of. -/
theorem nearMag_parts (F : Fmt) {u : ℚ} (hu : 0 ≤ u) :
    ∃ k m : ℕ, nearMag F u = k * 2 ^ F.fracBits + m ∧ m ≤ 2 * 2 ^ F.fracBits ∧
      (k = 0 ∨ (2 ^ F.fracBits ≤ m ∧ ((2 ^ F.fracBits * 2 ^ k : ℕ) : ℚ) ≤ u)) ∧
      (m : ℤ) = roundInt .tiesEven (u / ((2 ^ k : ℕ) : ℚ)) := by
  set P := 2 ^ F.fracBits with hP
  set k := Nat.log2 u.floor.toNat - F.fracBits with hk
  have hk0 : (0 : ℚ) < ((2 ^ k : ℕ) : ℚ) := by positivity
  have hz : 0 ≤ u / ((2 ^ k : ℕ) : ℚ) := by positivity
  have hm : ((roundInt .tiesEven (u / ((2 ^ k : ℕ) : ℚ))).toNat : ℤ) = roundInt .tiesEven (u / ((2 ^ k : ℕ) : ℚ)) :=
    Int.toNat_of_nonneg (roundInt_nonneg _ hz)
  refine ⟨k, (roundInt .tiesEven (u / ((2 ^ k : ℕ) : ℚ))).toNat, rfl, ?_, ?_, hm⟩
  all_goals
    have hf0 : 0 ≤ u.floor := Rat.le_floor_iff.mpr (by exact_mod_cast hu)
    have hfl : ((u.floor.toNat : ℕ) : ℚ) ≤ u := by
      have := Rat.floor_le u
      rw [← Int.toNat_of_nonneg hf0] at this; exact_mod_cast this
    have hfu : u < (u.floor.toNat : ℕ) + 1 := by
      have := Rat.lt_floor_add_one u
      rw [← Int.toNat_of_nonneg hf0] at this; exact_mod_cast this
    rcases lt_or_ge u.floor.toNat (2 * P) with hs | hs
  · -- subnormal and first normal binade: k = 0
    have hk' : k = 0 := by
      rw [hk, Nat.sub_eq_zero_iff_le]
      by_cases h0 : u.floor.toNat = 0
      · rw [h0]; simp
      · exact Nat.lt_succ_iff.mp ((Nat.log2_lt h0).mpr (by rw [pow_succ, Nat.mul_comm, ← hP]; exact hs))
    have hu2 : u ≤ ((2 * P : ℕ) : ℤ) := by
      have : u.floor.toNat + 1 ≤ 2 * P := hs
      have : ((u.floor.toNat : ℕ) : ℚ) + 1 ≤ ((2 * P : ℕ) : ℚ) := by exact_mod_cast this
      push_cast at this ⊢; linarith
    have := roundInt_mono .tiesEven hu2
    rw [roundInt_int] at this
    rw [hk'] at hm ⊢
    simp only [pow_zero, Nat.cast_one, div_one] at hm ⊢
    omega
  · have hn : u.floor.toNat ≠ 0 := by
      have : 0 < P := by positivity
      omega
    have hlog : Nat.log2 u.floor.toNat = k + F.fracBits := by
      have : F.fracBits ≤ Nat.log2 u.floor.toNat := by
        rw [Nat.le_log2 hn]; omega
      omega
    have hup : u.floor.toNat < 2 * P * 2 ^ k := by
      have := Nat.lt_log2_self (n := u.floor.toNat)
      rw [hlog, pow_succ, pow_add] at this
      rw [hP]; nlinarith
    have hu2 : u / ((2 ^ k : ℕ) : ℚ) ≤ ((2 * P : ℕ) : ℤ) := by
      rw [div_le_iff₀ hk0]
      have : u.floor.toNat + 1 ≤ 2 * P * 2 ^ k := hup
      have : ((u.floor.toNat : ℕ) : ℚ) + 1 ≤ ((2 * P * 2 ^ k : ℕ) : ℚ) := by exact_mod_cast this
      push_cast at this ⊢; linarith
    have := roundInt_mono .tiesEven hu2
    rw [roundInt_int] at this
    omega
  · left
    rw [hk, Nat.sub_eq_zero_iff_le]
    by_cases h0 : u.floor.toNat = 0
    · rw [h0]; simp
    · exact Nat.lt_succ_iff.mp ((Nat.log2_lt h0).mpr (by rw [pow_succ, Nat.mul_comm, ← hP]; exact hs))
  · right
    have hn : u.floor.toNat ≠ 0 := by
      have : 0 < P := by positivity
      omega
    have hlog : Nat.log2 u.floor.toNat = k + F.fracBits := by
      have : F.fracBits ≤ Nat.log2 u.floor.toNat := by
        rw [Nat.le_log2 hn]; omega
      omega
    have hlo : P * 2 ^ k ≤ u.floor.toNat := by
      have := Nat.log2_self_le hn
      rw [hlog, pow_add] at this
      rw [hP]; nlinarith
    have hlo' : ((P * 2 ^ k : ℕ) : ℚ) ≤ u := le_trans (by exact_mod_cast hlo) hfl
    refine ⟨?_, hlo'⟩
    have hu2 : ((P : ℕ) : ℤ) ≤ u / ((2 ^ k : ℕ) : ℚ) := by
      rw [le_div_iff₀ hk0]
      push_cast at hlo' ⊢; linarith
    have := roundInt_mono .tiesEven hu2
    rw [roundInt_int] at this
    omega

theorem abs_scale {k : ℕ} (j : ℤ) (u : ℚ) :
    |(j : ℚ) * 2 ^ k - u| = |(j : ℚ) - u / ((2 ^ k : ℕ) : ℚ)| * 2 ^ k := by
  have h : (0 : ℚ) < 2 ^ k := by positivity
  rw [← abs_of_pos h, ← abs_mul, abs_of_pos h]
  congr 1; push_cast; field_simp

/-- `nearMag` is nearest among all patterns, infinity taken for the next power of two included. -/
theorem nearMag_nearest (F : Fmt) {u : ℚ} (hu : 0 ≤ u) (n : ℕ) :
    |(F.units (nearMag F u) : ℚ) - u| ≤ |(F.units n : ℚ) - u| ∧
      (n ≠ nearMag F u → |(F.units n : ℚ) - u| = |(F.units (nearMag F u) : ℚ) - u| → nearMag F u % 2 = 0) := by
  obtain ⟨k, m, hN, hm, hk, hr⟩ := nearMag_parts F hu
  have hval : F.units (nearMag F u) = m * 2 ^ k := by
    rw [hN]; exact units_fields F hm (hk.imp_right And.left)
  have hk0 : (0 : ℚ) < 2 ^ k := by positivity
  -- every multiple of `2^k` units is at least as far
  have hmul : ∀ j : ℤ, |((m : ℤ) : ℚ) * 2 ^ k - u| ≤ |(j : ℚ) * 2 ^ k - u| := by
    intro j
    rw [abs_scale, abs_scale, hr]
    exact mul_le_mul_of_nonneg_right (roundInt_nearest _ _ _) hk0.le
  have hcast : (F.units (nearMag F u) : ℚ) = ((m : ℤ) : ℚ) * 2 ^ k := by rw [hval]; push_cast; ring
  by_cases hd : 2 ^ k ∣ F.units n
  · obtain ⟨j, hj⟩ := hd
    have hj' : (F.units n : ℚ) = ((j : ℤ) : ℚ) * 2 ^ k := by rw [hj]; push_cast; ring
    rw [hcast, hj']
    refine ⟨hmul j, fun hne he => ?_⟩
    have hjm : (j : ℤ) ≠ roundInt .tiesEven (u / ((2 ^ k : ℕ) : ℚ)) := by
      rw [← hr]
      intro h
      apply hne
      apply (units_strictMono F).injective
      have : j = m := by exact_mod_cast h
      rw [hval, hj, this, Nat.mul_comm]
    rw [abs_scale, abs_scale, hr] at he
    have ht := (roundInt_tie .tiesEven hjm (mul_right_cancel₀ hk0.ne' he)).1 rfl
    rw [← hr] at ht
    have hp : 2 ∣ 2 ^ F.fracBits := dvd_pow_self 2 (by have := fracBits_pos F; omega)
    rw [hN, Nat.add_mod, Nat.mul_mod, Nat.mod_eq_zero_of_dvd hp]
    omega
  · -- a magnitude that is no multiple lies below the binade of `u`
    have hlt : F.units n < 2 ^ F.fracBits * 2 ^ k := by
      by_contra hc; exact hd (units_dvd F (not_lt.mp hc))
    have hk1 : ((2 ^ F.fracBits * 2 ^ k : ℕ) : ℚ) ≤ u := by
      rcases hk with h | h
      · rw [h] at hd; simp at hd
      · exact h.2
    have hlt' : (F.units n : ℚ) < ((2 ^ F.fracBits * 2 ^ k : ℕ) : ℚ) := by exact_mod_cast hlt
    have hb := hmul (2 ^ F.fracBits : ℕ)
    have hb' : |((m : ℤ) : ℚ) * 2 ^ k - u| ≤ u - ((2 ^ F.fracBits * 2 ^ k : ℕ) : ℚ) := by
      refine hb.trans (le_of_eq ?_)
      have : (((2 ^ F.fracBits : ℕ) : ℤ) : ℚ) * 2 ^ k = ((2 ^ F.fracBits * 2 ^ k : ℕ) : ℚ) := by push_cast; ring
      rw [this, abs_of_nonpos (by linarith)]; ring
    have hn : |(F.units n : ℚ) - u| = u - F.units n := by
      rw [abs_of_nonpos (by linarith)]; ring
    rw [hcast, hn]
    refine ⟨by linarith, fun _ he => ?_⟩
    linarith

/-- Rounding is monotone. -/
theorem nearMag_mono (F : Fmt) {u v : ℚ} (hu : 0 ≤ u) (h : u ≤ v) : nearMag F u ≤ nearMag F v := by
  rcases eq_or_lt_of_le h with rfl | h
  · exact le_rfl
  by_contra hc
  push Not at hc
  have a := (nearMag_nearest F hu (nearMag F v)).1
  have b := (nearMag_nearest F (hu.trans h.le) (nearMag F u)).1
  have c : (F.units (nearMag F v) : ℚ) < F.units (nearMag F u) := by exact_mod_cast units_strictMono F hc
  rcases abs_cases ((F.units (nearMag F u) : ℚ) - u) with ⟨e1, _⟩ | ⟨e1, _⟩ <;>
  rcases abs_cases ((F.units (nearMag F v) : ℚ) - u) with ⟨e2, _⟩ | ⟨e2, _⟩ <;>
  rcases abs_cases ((F.units (nearMag F v) : ℚ) - v) with ⟨e3, _⟩ | ⟨e3, _⟩ <;>
  rcases abs_cases ((F.units (nearMag F u) : ℚ) - v) with ⟨e4, _⟩ | ⟨e4, _⟩ <;>
  rw [e1, e2] at a <;> rw [e3, e4] at b <;> linarith

/-- A magnitude of the format rounds to itself. -/
theorem nearMag_units (F : Fmt) (n : ℕ) : nearMag F (F.units n) = n := by
  have h := (nearMag_nearest F (u := F.units n) (by positivity) n).1
  simp only [sub_self, abs_zero, abs_nonpos_iff, sub_eq_zero] at h
  exact (units_strictMono F).injective (by exact_mod_cast h)

theorem pattern_toNat (F : Fmt) (b : Bool) {m : ℕ} (h : m < 2 ^ F.signBit) :
    (F.pattern b m).toNat = (if b then 2 ^ F.signBit else 0) + m := by
  have : (if b then 2 ^ F.signBit else 0) + m < 2 ^ 64 := by
    cases F <;> cases b <;> simp only [Fmt.signBit, reduceIte, Bool.false_eq_true] at h ⊢ <;> omega
  simp only [Fmt.pattern, BitVec.toNat_ofNat]
  exact Nat.mod_eq_of_lt this

@[simp] theorem mag_pattern (F : Fmt) (b : Bool) {m : ℕ} (h : m < 2 ^ F.signBit) : F.mag (F.pattern b m) = m := by
  rw [Fmt.mag, pattern_toNat F b h]
  cases b <;> simp [Nat.mod_eq_of_lt h]

@[simp] theorem neg_pattern (F : Fmt) (b : Bool) {m : ℕ} (h : m < 2 ^ F.signBit) : F.neg (F.pattern b m) = b := by
  rw [Fmt.neg, BitVec.getLsbD, pattern_toNat F b h]
  cases b
  · simpa using Nat.testBit_lt_two_pow h
  · simp [Nat.testBit_two_pow_add_eq, Nat.testBit_lt_two_pow h]

theorem mag_lt (F : Fmt) (x : Word) : F.mag x < 2 ^ F.signBit := Nat.mod_lt _ (by positivity)

theorem word_eq_pattern_D (x : Word) : x = Fmt.D.pattern (Fmt.D.neg x) (Fmt.D.mag x) := by
  apply BitVec.eq_of_toNat_eq
  rw [pattern_toNat _ _ (mag_lt _ x), Fmt.neg, Fmt.mag, BitVec.getLsbD]
  have h := x.isLt
  have hd := Nat.div_add_mod x.toNat (2 ^ 63)
  have hq : x.toNat / 2 ^ 63 < 2 := by omega
  rw [show Fmt.D.signBit = 63 from rfl, Nat.testBit_eq_decide_div_mod_eq, Nat.mod_eq_of_lt hq]
  generalize x.toNat / 2 ^ 63 = q at *
  generalize x.toNat % 2 ^ 63 = r at *
  rcases (by omega : q = 0 ∨ q = 1) with rfl | rfl
  · rw [← hd]; simp
  · rw [← hd]; simp

theorem quantum_pos (F : Fmt) : (0 : ℚ) < ((2 ^ F.quantumExp : ℕ) : ℚ) := by positivity

/-- The value of a pattern, by sign and fields. -/
theorem value_pattern (F : Fmt) (b : Bool) {m : ℕ} (h : m < 2 ^ F.signBit) :
    F.value (F.pattern b m) =
      (if b then -1 else 1) * ((F.units m : ℚ) / ((2 ^ F.quantumExp : ℕ) : ℚ)) := by
  simp only [Fmt.value, mag_pattern F b h, neg_pattern F b h]
  cases b <;> simp

theorem real_pattern (F : Fmt) (b : Bool) {m : ℕ} (h : m < F.infMag) :
    F.real (F.pattern b m) =
      .fin ((if b then -1 else 1) * ((F.units m : ℚ) / ((2 ^ F.quantumExp : ℕ) : ℚ))) := by
  have hl := h.trans (infMag_lt F)
  rw [Fmt.real, mag_pattern F b hl, if_pos h, value_pattern F b hl]

theorem real_inf (F : Fmt) (b : Bool) : F.real (F.inf b) = if b then .negInf else .posInf := by
  simp [Fmt.real, Fmt.inf, mag_pattern F b (infMag_lt F), neg_pattern F b (infMag_lt F)]

theorem real_fin (F : Fmt) {x : Word} {v : ℚ} (h : F.real x = .fin v) : F.mag x < F.infMag ∧ v = F.value x := by
  unfold Fmt.real at h
  split at h
  · exact ⟨by assumption, by simpa using h.symm⟩
  · split at h <;> simp at h

theorem value_eq (F : Fmt) (x : Word) :
    F.value x = (if F.neg x then -1 else 1) * ((F.units (F.mag x) : ℚ) / ((2 ^ F.quantumExp : ℕ) : ℚ)) := by
  simp only [Fmt.value]; split <;> simp

theorem roundMag_le (F : Fmt) (x : ℚ) : F.roundMag x ≤ F.infMag := by rw [roundMag_eq]; exact min_le_right _ _

theorem roundMag_lt (F : Fmt) (x : ℚ) : F.roundMag x < 2 ^ F.signBit := (roundMag_le F x).trans_lt (infMag_lt F)

theorem roundMag_mono (F : Fmt) {x y : ℚ} (hx : 0 ≤ x) (h : x ≤ y) : F.roundMag x ≤ F.roundMag y := by
  rw [roundMag_eq, roundMag_eq]
  exact min_le_min_right _ (nearMag_mono F (mul_nonneg hx (quantum_pos F).le)
    (mul_le_mul_of_nonneg_right h (quantum_pos F).le))

theorem roundMag_value (F : Fmt) {n : ℕ} (h : n ≤ F.infMag) :
    F.roundMag ((F.units n : ℚ) / ((2 ^ F.quantumExp : ℕ) : ℚ)) = n := by
  rw [roundMag_eq, div_mul_cancel₀ _ (quantum_pos F).ne', nearMag_units, min_eq_left h]

@[simp] theorem roundMag_zero (F : Fmt) : F.roundMag 0 = 0 := by
  have := roundMag_value F (n := 0) (Nat.zero_le _)
  simpa using this

theorem round_eq (F : Fmt) (x : ℚ) : F.round x = F.pattern (decide (x < 0)) (F.roundMag |x|) := by
  unfold Fmt.round
  split
  · rename_i h; simp [h, abs_of_neg h]
  · rename_i h; simp [h, abs_of_nonneg (not_lt.mp h)]

@[simp] theorem round_zero (F : Fmt) : F.round 0 = 0 := by
  rw [round_eq]; simp [Fmt.pattern]

@[simp] theorem isNaN_round (F : Fmt) (x : ℚ) : F.isNaN (F.round x) = false := by
  rw [round_eq, Fmt.isNaN, mag_pattern F _ (roundMag_lt F _)]
  simpa using roundMag_le F |x|

/-- What a rounded real stands for. -/
theorem real_round (F : Fmt) (x : ℚ) :
    F.real (F.round x) =
      if F.roundMag |x| < F.infMag then
        .fin ((if x < 0 then -1 else 1) * ((F.units (F.roundMag |x|) : ℚ) / ((2 ^ F.quantumExp : ℕ) : ℚ)))
      else if x < 0 then .negInf else .posInf := by
  rw [round_eq]
  by_cases h : F.roundMag |x| < F.infMag
  · rw [if_pos h, real_pattern F _ h]; simp
  · have he : F.roundMag |x| = F.infMag := le_antisymm (roundMag_le F _) (not_lt.mp h)
    rw [if_neg h, he]
    have := real_inf F (decide (x < 0))
    simpa [Fmt.inf] using this

/-- `round_F` is odd, up to the sign of zero. -/
theorem real_round_neg (F : Fmt) {x : ℚ} (hx : x ≠ 0) :
    F.real (F.round (-x)) = match F.real (F.round x) with
      | .negInf => .posInf
      | .fin v => .fin (-v)
      | .posInf => .negInf := by
  rw [real_round, real_round, abs_neg]
  rcases lt_or_gt_of_ne hx with h | h
  · have h' : ¬ (-x < 0) := by linarith
    by_cases hm : F.roundMag |x| < F.infMag <;> simp [h, h', hm]
  · have h' : ¬ (x < 0) := by linarith
    by_cases hm : F.roundMag |x| < F.infMag <;> simp [h, h', hm]

/-- Values of the format round to themselves. -/
theorem real_round_value (F : Fmt) {x : Word} {v : ℚ} (h : F.real x = .fin v) : F.real (F.round v) = .fin v := by
  obtain ⟨hm, rfl⟩ := real_fin F h
  have hu : (0 : ℚ) ≤ (F.units (F.mag x) : ℚ) / ((2 ^ F.quantumExp : ℕ) : ℚ) := by positivity
  have habs : |F.value x| = (F.units (F.mag x) : ℚ) / ((2 ^ F.quantumExp : ℕ) : ℚ) := by
    rw [value_eq, abs_mul, abs_of_nonneg hu]; split <;> simp
  rw [real_round, habs, roundMag_value F hm.le, if_pos hm, value_eq]
  congr 1
  generalize (F.units (F.mag x) : ℚ) / ((2 ^ F.quantumExp : ℕ) : ℚ) = a at hu
  cases F.neg x
  · rw [if_neg Bool.false_ne_true, one_mul, if_neg (not_lt.mpr hu), one_mul]
  · rw [if_pos rfl, neg_one_mul]
    rcases eq_or_lt_of_le hu with h0 | h0
    · simp [← h0]
    · rw [if_pos (by linarith), neg_one_mul]

theorem le_def (x y : Ext ℚ) : Ext.le x y ↔ match x, y with
    | .negInf, _ => True
    | .fin _, .negInf => False
    | .fin a, .fin b => a ≤ b
    | .fin _, .posInf => True
    | .posInf, .posInf => True
    | .posInf, _ => False := by
  cases x <;> cases y <;> simp [Ext.le, Ext.lt]

theorem le_refl (x : Ext ℚ) : Ext.le x x := by rw [le_def]; cases x <;> simp

theorem le_trans' {x y z : Ext ℚ} (h : Ext.le x y) (k : Ext.le y z) : Ext.le x z := by
  rw [le_def] at *; cases x <;> cases y <;> cases z <;> simp_all; exact h.trans k

theorem units_div_mono (F : Fmt) {m n : ℕ} (h : m ≤ n) :
    (F.units m : ℚ) / ((2 ^ F.quantumExp : ℕ) : ℚ) ≤ (F.units n : ℚ) / ((2 ^ F.quantumExp : ℕ) : ℚ) :=
  div_le_div_of_nonneg_right (by exact_mod_cast (units_strictMono F).monotone h) (quantum_pos F).le

/-- `round_F` is monotone (42_quantizer_scaler.md R137). -/
theorem round_mono (F : Fmt) {x y : ℚ} (h : x ≤ y) : Ext.le (F.real (F.round x)) (F.real (F.round y)) := by
  have hq := quantum_pos F
  rw [le_def, real_round, real_round]
  rcases lt_or_ge x 0 with hx | hx <;> rcases lt_or_ge y 0 with hy | hy
  · -- both negative
    have hm : F.roundMag |y| ≤ F.roundMag |x| :=
      roundMag_mono F (abs_nonneg y) (by rw [abs_of_neg hx, abs_of_neg hy]; linarith)
    simp only [hx, hy, if_true]
    by_cases h1 : F.roundMag |x| < F.infMag
    · have h2 := hm.trans_lt h1
      simp only [h1, h2, if_true]
      have := units_div_mono F hm
      linarith
    · simp only [h1, if_false]
  · -- a negative and a nonnegative number
    have hy' : ¬ y < 0 := not_lt.mpr hy
    simp only [hx, hy', if_true, if_false]
    by_cases h1 : F.roundMag |x| < F.infMag <;> by_cases h2 : F.roundMag |y| < F.infMag <;> simp only [h1, h2, if_true, if_false]
    have a : (0 : ℚ) ≤ (F.units (F.roundMag |x|) : ℚ) / ((2 ^ F.quantumExp : ℕ) : ℚ) := by positivity
    have b : (0 : ℚ) ≤ (F.units (F.roundMag |y|) : ℚ) / ((2 ^ F.quantumExp : ℕ) : ℚ) := by positivity
    linarith
  · linarith
  · have hx' : ¬ x < 0 := not_lt.mpr hx
    have hy' : ¬ y < 0 := not_lt.mpr hy
    have hm : F.roundMag |x| ≤ F.roundMag |y| :=
      roundMag_mono F (abs_nonneg x) (by rw [abs_of_nonneg hx, abs_of_nonneg hy]; exact h)
    simp only [hx', hy', if_false]
    by_cases h2 : F.roundMag |y| < F.infMag
    · have h1 := hm.trans_lt h2
      simp only [h1, h2, if_true]
      have := units_div_mono F hm
      linarith
    · by_cases h1 : F.roundMag |x| < F.infMag <;> simp only [h1, h2, if_true, if_false]

/-- The pattern of infinity read as a number is the next power of two. -/
theorem units_infMag (F : Fmt) : F.units F.infMag = 2 ^ (F.emax + 1 + F.quantumExp) := by
  cases F <;> decide +kernel

/-- The spacing below the pattern of infinity. -/
theorem units_max (F : Fmt) : F.units (F.infMag - 1) + 2 ^ (F.emax - F.fracBits + F.quantumExp) = F.units F.infMag := by
  cases F <;> decide +kernel

/-- The threshold of R11 is half-way between the largest value and the next power of two. -/
theorem overflowAt_units (F : Fmt) : F.overflowAt * ((2 ^ F.quantumExp : ℕ) : ℚ) * 2 =
    (F.units (F.infMag - 1) : ℚ) + F.units F.infMag := by
  have h : F.overflowAt * ((2 ^ F.quantumExp : ℕ) : ℚ) * 2 = ((F.units (F.infMag - 1) + F.units F.infMag : ℕ) : ℚ) := by
    cases F <;> decide +kernel
  rw [h]; push_cast; ring

/-- The magnitudes that round to infinity are those from the threshold on. -/
theorem infMag_le_nearMag (F : Fmt) {x : ℚ} (hx : 0 ≤ x) :
    F.infMag ≤ nearMag F (x * ((2 ^ F.quantumExp : ℕ) : ℚ)) ↔ F.overflowAt ≤ x := by
  have hq := quantum_pos F
  have hu : 0 ≤ x * ((2 ^ F.quantumExp : ℕ) : ℚ) := mul_nonneg hx hq.le
  have ho := overflowAt_units F
  have hgap : (F.units (F.infMag - 1) : ℚ) < F.units F.infMag := by
    exact_mod_cast units_strictMono F (Nat.sub_lt (infMag_pos F) one_pos)
  have hiff : F.overflowAt ≤ x ↔ F.overflowAt * ((2 ^ F.quantumExp : ℕ) : ℚ) ≤ x * ((2 ^ F.quantumExp : ℕ) : ℚ) :=
    (mul_le_mul_iff_left₀ hq).symm
  rw [hiff]
  generalize x * ((2 ^ F.quantumExp : ℕ) : ℚ) = u at hu ⊢
  generalize F.overflowAt * ((2 ^ F.quantumExp : ℕ) : ℚ) = T at ho ⊢
  set N := nearMag F u
  constructor
  · intro h
    by_contra hc
    push Not at hc
    have hn := (nearMag_nearest F hu (F.infMag - 1)).1
    have hN : (F.units F.infMag : ℚ) ≤ F.units N := by exact_mod_cast (units_strictMono F).monotone h
    rw [abs_of_nonneg (a := (F.units N : ℚ) - u) (by linarith)] at hn
    rcases abs_cases ((F.units (F.infMag - 1) : ℚ) - u) with ⟨e, _⟩ | ⟨e, _⟩ <;> rw [e] at hn <;> linarith
  · intro h
    by_contra hc
    have hle : N ≤ F.infMag - 1 := by omega
    have hN : (F.units N : ℚ) ≤ F.units (F.infMag - 1) := by exact_mod_cast (units_strictMono F).monotone hle
    obtain ⟨hn, ht⟩ := nearMag_nearest F hu F.infMag
    have hNu : (F.units N : ℚ) - u ≤ 0 := by linarith
    rw [abs_of_nonpos hNu] at hn
    rcases abs_cases ((F.units F.infMag : ℚ) - u) with ⟨e, _⟩ | ⟨e, _⟩
    · rw [e] at hn
      -- then `u` is the threshold, and the tie goes to an even pattern, which the largest finite one is not
      have hN' : (F.units N : ℚ) = F.units (F.infMag - 1) := by linarith
      have hNe : N = F.infMag - 1 := (units_strictMono F).injective (by exact_mod_cast hN')
      have : N % 2 = 0 := ht (by have := infMag_pos F; omega) (by rw [abs_of_nonpos hNu, e]; linarith)
      have := infMag_even F
      have := infMag_pos F
      omega
    · rw [e] at hn; linarith

theorem roundMag_lt_infMag (F : Fmt) {x : ℚ} (hx : 0 ≤ x) : F.roundMag x < F.infMag ↔ x < F.overflowAt := by
  rw [roundMag_eq, min_lt_iff, ← not_le, infMag_le_nearMag F hx, not_le]
  simp

theorem roundMag_eq_nearMag (F : Fmt) {x : ℚ} (h : F.roundMag x < F.infMag) :
    F.roundMag x = nearMag F (x * ((2 ^ F.quantumExp : ℕ) : ℚ)) := by
  rw [roundMag_eq] at h ⊢
  exact min_eq_left (by by_contra hc; rw [min_eq_right (by omega)] at h; omega)

theorem mag_round (F : Fmt) (x : ℚ) : F.mag (F.round x) = F.roundMag |x| := by
  rw [round_eq, mag_pattern F _ (roundMag_lt F _)]

theorem abs_value (F : Fmt) (x : Word) : |F.value x| = (F.units (F.mag x) : ℚ) / ((2 ^ F.quantumExp : ℕ) : ℚ) := by
  have hu : (0 : ℚ) ≤ (F.units (F.mag x) : ℚ) / ((2 ^ F.quantumExp : ℕ) : ℚ) := by positivity
  rw [value_eq, abs_mul, abs_of_nonneg hu]; split <;> simp

/-- Scaling a distance to units of the format. -/
theorem abs_units (F : Fmt) (n : ℕ) (x : ℚ) :
    |(F.units n : ℚ) - x * ((2 ^ F.quantumExp : ℕ) : ℚ)| =
      |(F.units n : ℚ) / ((2 ^ F.quantumExp : ℕ) : ℚ) - x| * ((2 ^ F.quantumExp : ℕ) : ℚ) := by
  have hq := quantum_pos F
  rw [← abs_of_pos hq, ← abs_mul, abs_of_pos hq]; congr 1; field_simp

theorem roundMag_nearest (F : Fmt) {x : ℚ} (hx : 0 ≤ x) (h : x < F.overflowAt) (n : ℕ) :
    |(F.units (F.roundMag x) : ℚ) / ((2 ^ F.quantumExp : ℕ) : ℚ) - x| ≤
        |(F.units n : ℚ) / ((2 ^ F.quantumExp : ℕ) : ℚ) - x| ∧
      (n ≠ F.roundMag x →
        |(F.units n : ℚ) / ((2 ^ F.quantumExp : ℕ) : ℚ) - x| =
          |(F.units (F.roundMag x) : ℚ) / ((2 ^ F.quantumExp : ℕ) : ℚ) - x| → F.roundMag x % 2 = 0) := by
  have hq := quantum_pos F
  have hm := (roundMag_lt_infMag F hx).mpr h
  have hN := roundMag_eq_nearMag F hm
  have hn := nearMag_nearest F (mul_nonneg hx hq.le) n
  rw [← hN, abs_units, abs_units] at hn
  exact ⟨le_of_mul_le_mul_right hn.1 hq, fun hne he => hn.2 hne (by rw [he])⟩

theorem units_infMag_div (F : Fmt) : (F.units F.infMag : ℚ) / ((2 ^ F.quantumExp : ℕ) : ℚ) = 2 ^ (F.emax + 1) := by
  rw [units_infMag, pow_add]; push_cast; field_simp

end Sys2Proof.Laws
end

