-- ==== Sys2Proof/Laws/PerInstr.lean ====
section
/-! SUPPORT. One lemma per constructor of `Instr`: the command word of a command has the legal shape of 30_encoding.md R71 and carries exactly its OPC and F. -/

namespace Sys2Proof.Laws.WordShape

/-- The fields of a command are legal, and its word has these fields (30_encoding.md R71, R74). -/
def Statement (i : Instr) : Prop := i.fields.wf = true ∧ CmdFields.ofWord (encode i) = i.fields

theorem setprec : Statement .setprec := by unfold Statement; decide
theorem quantS : Statement .quantS := by unfold Statement; decide
theorem quantD : Statement .quantD := by unfold Statement; decide
theorem dequantS : Statement .dequantS := by unfold Statement; decide
theorem dequantD : Statement .dequantD := by unfold Statement; decide
theorem estClr : Statement .estClr := by unfold Statement; decide
theorem estAccS : Statement .estAccS := by unfold Statement; decide
theorem estAccD : Statement .estAccD := by unfold Statement; decide
theorem estFinS : Statement .estFinS := by unfold Statement; decide
theorem estFinD : Statement .estFinD := by unfold Statement; decide
theorem setbw : Statement .setbw := by unfold Statement; decide
theorem bufclr : Statement .bufclr := by unfold Statement; decide
theorem setwcur : Statement .setwcur := by unfold Statement; decide
theorem pack : Statement .pack := by unfold Statement; decide
theorem setrcur : Statement .setrcur := by unfold Statement; decide
theorem unpack : Statement .unpack := by unfold Statement; decide

end Sys2Proof.Laws.WordShape
end

