-- ==== Sys2Proof/Laws/Scaling.lean ====
section
/-! SUPPORT. The floating values the commands meet: signs, widening and narrowing, the converted scale and integers, and the cases of `DeriveScale` (00_scope.md R12, 40_precision.md R101, 41_bit_width_estimator.md R112 to R114). -/

namespace Sys2Proof.Laws

open Sys2Proof Sys2Proof.Machine

/-- The magnitude of a pattern as a number. -/
theorem absValue_nonneg (F : Fmt) (m : ℕ) : (0 : ℚ) ≤ (F.units m : ℚ) / ((2 ^ F.quantumExp : ℕ) : ℚ) := by positivity

theorem absValue_eq_zero (F : Fmt) (m : ℕ) : (F.units m : ℚ) / ((2 ^ F.quantumExp : ℕ) : ℚ) = 0 ↔ m = 0 := by
  rw [div_eq_zero_iff, or_iff_left (quantum_pos F).ne']
  constructor
  · intro h
    have : F.units m = F.units 0 := by rw [units_zero]; exact_mod_cast h
    exact (units_strictMono F).injective this
  · rintro rfl; simp

/-- The sign test of `DeriveScale` on a finite value. -/
theorem nonpos_iff (F : Fmt) {s : Word} {x : ℚ} (h : F.real s = .fin x) : F.nonpos s = true ↔ x ≤ 0 := by
  obtain ⟨-, rfl⟩ := real_fin F h
  have hu := absValue_nonneg F (F.mag s)
  rw [value_eq]
  simp only [Fmt.nonpos, Bool.or_eq_true, beq_iff_eq]
  rw [← absValue_eq_zero F]
  generalize (F.units (F.mag s) : ℚ) / ((2 ^ F.quantumExp : ℕ) : ℚ) = a at hu
  cases F.neg s
  · simp only [Bool.false_eq_true, false_or, if_false, one_mul]
    exact ⟨fun h => h.le, fun h => le_antisymm h hu⟩
  · simp only [true_or, if_true, true_iff]; linarith

/-- A pattern with a number is no NaN. -/
theorem isNaN_of_fin {F : Fmt} {s : Word} {x : ℚ} (h : F.real s = .fin x) : F.isNaN s = false := by
  have := (real_fin F h).1
  simp only [Fmt.isNaN, decide_eq_false_iff_not]; omega

/-- The three kinds of a pattern that is no NaN. -/
theorem real_cases (F : Fmt) {s : Word} (h : F.isNaN s = false) :
    (F.mag s < F.infMag ∧ F.real s = .fin (F.value s)) ∨
    (F.mag s = F.infMag ∧ F.neg s = false ∧ F.real s = .posInf) ∨
    (F.mag s = F.infMag ∧ F.neg s = true ∧ F.real s = .negInf) := by
  simp only [Fmt.isNaN, decide_eq_false_iff_not, not_lt] at h
  rcases lt_or_eq_of_le h with h | h
  · exact .inl ⟨h, by simp only [Fmt.real, h, if_true]⟩
  · have hl : ¬ F.mag s < F.infMag := by omega
    cases hn : F.neg s
    · exact .inr (.inl ⟨h, rfl, by simp only [Fmt.real, hl, hn, if_false, Bool.false_eq_true]⟩)
    · exact .inr (.inr ⟨h, rfl, by simp only [Fmt.real, hl, hn, if_false, if_true]⟩)

theorem real_zero (F : Fmt) : F.real 0 = .fin 0 := by
  have := real_pattern F false (m := 0) (infMag_pos F)
  simpa [Fmt.pattern] using this

/-- Rounding keeps the sign. -/
theorem real_round_nonneg {F : Fmt} {x v : ℚ} (hx : 0 ≤ x) (h : F.real (F.round x) = .fin v) : 0 ≤ v := by
  have := round_mono F hx
  rwa [h, round_zero, real_zero, le_def] at this

theorem real_round_ne_negInf {F : Fmt} {x : ℚ} (hx : 0 ≤ x) : F.real (F.round x) ≠ .negInf := by
  rw [real_round]
  split
  · simp
  · rw [if_neg (not_lt.mpr hx)]; simp

/-- The powers of two a format holds are exact. -/
theorem real_round_two_pow (F : Fmt) {j : ℕ} (hj : j ≤ F.emax) :
    F.real (F.round ((2 : ℚ) ^ j)) = .fin ((2 : ℚ) ^ j) := by
  have hq : F.fracBits ≤ F.quantumExp := by cases F <;> decide
  have hu : F.units ((j + F.quantumExp - F.fracBits) * 2 ^ F.fracBits + 2 ^ F.fracBits) =
      2 ^ (j + F.quantumExp) := by
    rw [units_fields F (by omega) (.inr le_rfl), ← pow_add]; congr 1; omega
  set m := (j + F.quantumExp - F.fracBits) * 2 ^ F.fracBits + 2 ^ F.fracBits with hm
  have hlt : m < F.infMag := by
    have he : F.infMag = (F.emax + 1 + F.quantumExp - F.fracBits) * 2 ^ F.fracBits + 2 ^ F.fracBits := by
      cases F <;> decide
    have hl := Nat.mul_lt_mul_of_pos_right (show j + F.quantumExp - F.fracBits < F.emax + 1 + F.quantumExp - F.fracBits by omega)
      (show 0 < 2 ^ F.fracBits by positivity)
    omega
  have hv : ((F.units m : ℚ) / ((2 ^ F.quantumExp : ℕ) : ℚ)) = 2 ^ j := by
    rw [hu, pow_add]; push_cast; field_simp
  have hp := real_pattern F false hlt
  rw [hv] at hp
  simp only [Bool.false_eq_true, if_false, one_mul] at hp
  exact real_round_value F hp

/-- A value between two powers of two that a format holds rounds to a number between them. -/
theorem round_between (F : Fmt) {i j : ℕ} {x : ℚ} (hj : j ≤ F.emax) (hi : (2 : ℚ) ^ i ≤ x) (hx : x ≤ 2 ^ j) :
    ∃ v, F.real (F.round x) = .fin v ∧ (2 : ℚ) ^ i ≤ v ∧ v ≤ 2 ^ j := by
  have hij : i ≤ j := by
    by_contra hc
    have := pow_lt_pow_right₀ (show (1 : ℚ) < 2 by norm_num) (not_le.mp hc)
    linarith
  have a := round_mono F hi
  have b := round_mono F hx
  rw [real_round_two_pow F (hij.trans hj)] at a
  rw [real_round_two_pow F hj] at b
  rw [le_def] at a b
  generalize F.real (F.round x) = r at a b
  cases r with
  | negInf => exact a.elim
  | posInf => exact b.elim
  | fin v => exact ⟨v, rfl, a, b⟩

/-- The converted scale is a number of at least 1 (42_quantizer_scaler.md R133). -/
theorem scale_value (F : Fmt) {scale : Word} (h : scale ≠ 0) :
    ∃ k, F.real (F.ofInt scale.toNat) = .fin k ∧ 1 ≤ k := by
  have h1 : 1 ≤ scale.toNat := by
    rcases Nat.eq_zero_or_pos scale.toNat with h0 | h0
    · exact absurd (BitVec.eq_of_toNat_eq (by simpa using h0)) h
    · exact h0
  have h2 := scale.isLt
  obtain ⟨v, hv, hl, -⟩ := round_between F (i := 0) (j := 64) (x := ((scale.toNat : ℤ) : ℚ)) (by cases F <;> decide)
    (by rw [pow_zero]; exact_mod_cast h1) (by exact_mod_cast h2.le)
  exact ⟨v, hv, by simpa using hl⟩

/-- A converted 64-bit integer is a number (42_quantizer_scaler.md R133). -/
theorem int_value (F : Fmt) {q : ℤ} (h1 : -2 ^ 63 ≤ q) (h2 : q < 2 ^ 63) :
    ∃ a, F.real (F.ofInt q) = .fin a ∧ |a| ≤ 2 ^ 63 := by
  have he : 63 ≤ F.emax := by cases F <;> decide
  have hp : (q : ℚ) ≤ 2 ^ 63 := by exact_mod_cast h2.le
  have hn : -(2 : ℚ) ^ 63 ≤ q := by exact_mod_cast h1
  have a := round_mono F hp
  have b := round_mono F hn
  rw [real_round_two_pow F he] at a
  rw [real_round_neg F (by positivity), real_round_two_pow F he] at b
  rw [le_def] at a b
  show ∃ a, F.real (F.round (q : ℚ)) = .fin a ∧ _
  generalize F.real (F.round (q : ℚ)) = r at a b
  cases r with
  | negInf => exact b.elim
  | posInf => exact a.elim
  | fin v => exact ⟨v, rfl, abs_le.mpr ⟨b, a⟩⟩

/-- `mul_F` of numbers. -/
theorem mul_fin {F : Fmt} {a b : Word} {x y : ℚ} (ha : F.real a = .fin x) (hb : F.real b = .fin y) :
    F.mul a b = F.round (x * y) := by simp only [Fmt.mul, ha, hb]

/-- `div_F` of numbers. -/
theorem div_fin {F : Fmt} {a b : Word} {x y : ℚ} (ha : F.real a = .fin x) (hb : F.real b = .fin y) :
    F.div a b = F.round (x / y) := by simp only [Fmt.div, ha, hb]

/-! `abs_F`, widening and narrowing -/

theorem mag_abs (F : Fmt) (x : Word) : F.mag (F.abs x) = F.mag x := mag_pattern F false (mag_lt F x)

@[simp] theorem neg_abs (F : Fmt) (x : Word) : F.neg (F.abs x) = false := neg_pattern F false (mag_lt F x)

@[simp] theorem isNaN_abs (F : Fmt) (x : Word) : F.isNaN (F.abs x) = F.isNaN x := by
  simp only [Fmt.isNaN, mag_abs]

/-- `abs_F` is the magnitude (00_scope.md R12). -/
theorem real_abs (F : Fmt) {x : Word} (h : F.isNaN x = false) : F.real (F.abs x) = Ext.magnitude (F.real x) := by
  rcases real_cases F h with ⟨hm, hr⟩ | ⟨hm, -, hr⟩ | ⟨hm, -, hr⟩
  · rw [hr, Fmt.abs, real_pattern F false hm, Ext.magnitude, value_eq]
    have hu := absValue_nonneg F (F.mag x)
    generalize (F.units (F.mag x) : ℚ) / ((2 ^ F.quantumExp : ℕ) : ℚ) = a at hu
    cases F.neg x
    · simp only [Bool.false_eq_true, if_false, one_mul]; rw [if_neg (not_lt.mpr hu)]
    · simp only [Bool.false_eq_true, if_false, if_true, one_mul]
      rcases eq_or_lt_of_le hu with h0 | h0
      · rw [← h0]; simp
      · rw [if_pos (by linarith)]; simp
  · rw [hr, Fmt.abs, hm]; exact real_inf F false
  · rw [hr, Fmt.abs, hm]; exact real_inf F false

/-- A binary32 number is a binary64 number (00_scope.md R12: `widenSD` is exact). -/
theorem real_round_D_of_S {x : Word} {v : ℚ} (h : Fmt.S.real x = .fin v) : Fmt.D.real (Fmt.D.round v) = .fin v := by
  obtain ⟨hm, rfl⟩ := real_fin .S h
  -- the number of binary64 units, and a pattern with that many
  have hu : ∃ n < Fmt.D.infMag, Fmt.D.units n = Fmt.S.units (Fmt.S.mag x) * 2 ^ 925 := by
    have hd : ∃ f < 2 ^ 24, ∃ e ≤ 253, Fmt.S.units (Fmt.S.mag x) = f * 2 ^ e := by
      have hm' : Fmt.S.mag x / 2 ^ 23 ≤ 254 := by
        have : Fmt.S.infMag = 255 * 2 ^ 23 := by decide
        omega
      have hf := Nat.mod_lt (Fmt.S.mag x) (show 0 < 2 ^ 23 by norm_num)
      simp only [Fmt.units, show Fmt.S.fracBits = 23 from rfl]
      by_cases h0 : Fmt.S.mag x / 2 ^ 23 = 0
      · exact ⟨Fmt.S.mag x % 2 ^ 23, by omega, 0, by omega, by rw [if_pos h0]; simp⟩
      · exact ⟨2 ^ 23 + Fmt.S.mag x % 2 ^ 23, by omega, Fmt.S.mag x / 2 ^ 23 - 1, by omega, by rw [if_neg h0]⟩
    obtain ⟨f, hf, e, he, hU⟩ := hd
    rw [hU, Nat.mul_assoc, ← pow_add]
    rcases Nat.eq_zero_or_pos f with h0 | h0
    · exact ⟨0, infMag_pos _, by rw [h0]; simp⟩
    -- normalise the fraction to 53 bits
    have hl : Nat.log2 f < 24 := (Nat.log2_lt (by omega)).mpr hf
    have hlo := Nat.log2_self_le (show f ≠ 0 by omega)
    have hhi := Nat.lt_log2_self (n := f)
    set l := Nat.log2 f with hl'
    have h52 : f * 2 ^ (52 - l) < 2 * 2 ^ 52 := by
      have : f * 2 ^ (52 - l) < 2 ^ (l + 1) * 2 ^ (52 - l) := Nat.mul_lt_mul_of_pos_right hhi (by positivity)
      rw [← pow_add, show l + 1 + (52 - l) = 53 by omega] at this
      omega
    have h52' : 2 ^ 52 ≤ f * 2 ^ (52 - l) := by
      have : 2 ^ l * 2 ^ (52 - l) ≤ f * 2 ^ (52 - l) := Nat.mul_le_mul_right _ hlo
      rwa [← pow_add, show l + (52 - l) = 52 by omega] at this
    have hunits := units_fields .D (k := e + 925 - (52 - l)) (m := f * 2 ^ (52 - l)) h52.le (.inr h52')
    refine ⟨_, ?_, hunits.trans ?_⟩
    · have hk : e + 925 - (52 - l) ≤ 1178 := by omega
      have hi : Fmt.D.infMag = 2047 * 2 ^ 52 := by decide
      show (e + 925 - (52 - l)) * 2 ^ 52 + f * 2 ^ (52 - l) < Fmt.D.infMag
      rw [hi]
      omega
    · rw [Nat.mul_assoc, ← pow_add]; congr 2; omega
  obtain ⟨n, hn, hU⟩ := hu
  have hp := real_pattern .D (Fmt.S.neg x) hn
  have hv : (if Fmt.S.neg x then -1 else 1) * ((Fmt.D.units n : ℚ) / ((2 ^ Fmt.D.quantumExp : ℕ) : ℚ)) = Fmt.S.value x := by
    have e : (2 ^ Fmt.D.quantumExp : ℕ) = 2 ^ Fmt.S.quantumExp * 2 ^ 925 := by
      rw [show Fmt.D.quantumExp = Fmt.S.quantumExp + 925 from rfl, pow_add]
    have hA : 0 < (2 ^ 925 : ℕ) := by positivity
    rw [value_eq, hU, e]
    generalize 2 ^ 925 = A at hA
    rw [Nat.cast_mul, Nat.cast_mul, mul_div_mul_right _ _ (by exact_mod_cast hA.ne')]
  rw [hv] at hp
  exact real_round_value .D hp

@[simp] theorem neg_round (F : Fmt) (x : ℚ) : F.neg (F.round x) = decide (x < 0) := by
  rw [round_eq, neg_pattern F _ (roundMag_lt F _)]

theorem isNaN_inf (F : Fmt) (b : Bool) : F.isNaN (F.inf b) = false := by
  simp [Fmt.isNaN, Fmt.inf, mag_pattern F b (infMag_lt F)]

/-- Widening is exact (00_scope.md R12). -/
theorem real_widen (F : Fmt) {x : Word} (h : F.isNaN x = false) : Fmt.D.real (F.widen x) = F.real x := by
  cases F with
  | D => rfl
  | S =>
    rcases real_cases .S h with ⟨-, hr⟩ | ⟨-, -, hr⟩ | ⟨-, -, hr⟩
    · simp only [Fmt.widen, Fmt.convert, hr]; exact real_round_D_of_S hr
    · simp only [Fmt.widen, Fmt.convert, hr]; exact real_inf .D false
    · simp only [Fmt.widen, Fmt.convert, hr]; exact real_inf .D true

/-- A widened number is a number. -/
theorem isNaN_widen (F : Fmt) {x : Word} (h : F.isNaN x = false) : Fmt.D.isNaN (F.widen x) = false := by
  cases F with
  | D => exact h
  | S =>
    rcases real_cases .S h with ⟨-, hr⟩ | ⟨-, -, hr⟩ | ⟨-, -, hr⟩ <;>
      simp only [Fmt.widen, Fmt.convert, hr, isNaN_round, isNaN_inf]

/-- A widened magnitude has the sign 0. -/
theorem neg_widen_abs (F : Fmt) {x : Word} (h : F.isNaN x = false) : Fmt.D.neg (F.widen (F.abs x)) = false := by
  cases F with
  | D => exact neg_abs _ _
  | S =>
    have hr := real_abs .S h
    cases hx : Fmt.S.real x <;> rw [hx] at hr <;> simp only [Ext.magnitude] at hr <;>
      simp only [Fmt.widen, Fmt.convert, hr]
    · exact neg_pattern .D false (infMag_lt .D)
    · rw [neg_round]; split <;> simp_all; linarith
    · exact neg_pattern .D false (infMag_lt .D)

/-- Narrowing of an extended real (41_bit_width_estimator.md R114). -/
theorem convert_fin {F G : Fmt} {m : Word} {v : ℚ} (h : F.real m = .fin v) : F.convert G m = G.round v := by
  simp only [Fmt.convert, h]

theorem real_convert_posInf {F G : Fmt} {m : Word} (h : F.real m = .posInf) : G.real (F.convert G m) = .posInf := by
  simp only [Fmt.convert, h]; exact real_inf G false

/-- Narrowing to a format is monotone. -/
theorem convert_mono {F G : Fmt} {m m' : Word} (h : Ext.le (F.real m) (F.real m')) :
    Ext.le (G.real (F.convert G m)) (G.real (F.convert G m')) := by
  rw [le_def] at h
  cases hm : F.real m <;> cases hm' : F.real m' <;> rw [hm, hm'] at h <;> simp only [Fmt.convert, hm, hm', real_inf]
  case fin.fin => exact round_mono G h
  all_goals first | exact h.elim | (rw [le_def]; simp; done) | (rw [le_def]; cases G.real (G.round _) <;> simp)

/-! `DeriveScale` -/

/-- What `DeriveScale` has found when it answers a scale (40_precision.md R101). -/
theorem deriveScale_ok {mode : RoundMode} {s : Word} {n : ℤ} (h : deriveScale mode s = .ok n) :
    ∃ x r : ℚ, Fmt.D.real s = .fin x ∧ 0 < x ∧ Fmt.D.real (Fmt.D.round (1 / x)) = .fin r ∧
      n = roundInt mode r ∧ 1 ≤ n ∧ n ≤ 2 ^ 63 - 1 := by
  unfold deriveScale at h
  split at h
  · cases h
  · rename_i hn
    split at h
    · cases h
    · cases h
    · rename_i x hx
      have hx0 : 0 < x := by
        by_contra hc
        have := (nonpos_iff .D hx).mpr (not_lt.mp hc)
        simp [this] at hn
      split at h
      · rename_i r hr
        simp only at h
        split at h
        · cases h
        · rename_i h2
          split at h
          · cases h
          · rename_i h3
            injection h with h
            have h0 := roundInt_nonneg mode (real_round_nonneg (by positivity) hr)
            refine ⟨x, r, hx, hx0, hr, h.symm, by omega, ?_⟩
            rw [← h]
            unfold Config.scaleMax at h2
            omega
      · cases h
      · cases h

/-- A derived scale is no zero register (10_state.md R32). -/
theorem bits64_ne_zero {n : ℤ} (h1 : 1 ≤ n) (h2 : n ≤ 2 ^ 63 - 1) : bits64 n ≠ 0 ∧ (bits64 n).toNat = n.toNat := by
  have : (bits64 n).toNat = n.toNat := by
    simp only [bits64, BitVec.toNat_ofInt]
    omega
  refine ⟨fun h => ?_, this⟩
  rw [h] at this
  simp at this
  omega

end Sys2Proof.Laws
end

