-- ==== Sys2Proof/Tests/Slice0.lean ====
section
/-! SUPPORT. Tests: ill-formed terms, the words of 30_encoding.md R74, one step of each command with the results of the spec's own examples, and for each statement of Obligations.lean a witness of its hypotheses. -/

namespace Sys2Proof.Tests

open Sys2Proof Sys2Proof.Machine

/- One test at a time: each `decide +kernel` waits for what stands before it, and dozens that wait at once
run out of threads when the package is compiled as one text. -/
set_option Elab.async false

/-- Whether an outcome is a next state with a property. -/
def gives (o : Host.Outcome State Fault Refusal) (p : State → Bool) : Bool :=
  match o with
  | .next s => p s
  | .fault _ => false
  | .refused _ => false

/-- One command from a state, as the HOST issues it. -/
def run (i : Instr) (a : Word) (s : State) (p : State → Bool) : Bool := gives (issue i a s) p

/-- A reset core with this scale. -/
def withScale (n : Word) : State := { State.reset with scale := n }

/-- A reset core with a zero buffer and this width. -/
def zeroed (b : BitVec 7) : State := { State.reset with buf := Memory.zero 16, bw := b }

/-- A reset core with a pending word and operand. -/
def pend (w : CmdWord) (a : Word) : State := { State.reset with pending := { valid := true, word := w, opa := a } }

/-! Well-formedness: each check refuses an ill-formed term. -/

theorem test_rsv_refused : (CmdFields.rsvOk { opc := 0x02, f := 0, rsv := 1 }) = false ∧
    (CmdFields.wf { opc := 0x02, f := 0, rsv := 1 }) = false := by decide

theorem test_opc_refused : (CmdFields.opcOk { opc := 0x04, f := 0, rsv := 0 }) = false ∧
    (CmdFields.wf { opc := 0x04, f := 0, rsv := 0 }) = false := by decide

theorem test_f_refused : (CmdFields.fOk { opc := 0x01, f := 1, rsv := 0 }) = false ∧
    (CmdFields.wf { opc := 0x01, f := 1, rsv := 0 }) = false := by decide

theorem test_params_refused :
    ¬ ({ w := .w64, roundMode := .tiesEven, bufBytes := 0 } : Params).wf ∧
    ¬ ({ w := .w64, roundMode := .tiesEven, bufBytes := 2 ^ 32 } : Params).wf := by decide

/-! Decoding: the words written out from 30_encoding.md R71 and R74, RSV, then F, then OPC. -/

theorem test_decode_setprec : decode 0b00000000000000000000000000000001#32 = .ok .setprec := by decide
theorem test_decode_quantS : decode 0b00000000000000000000000000000010#32 = .ok .quantS := by decide
theorem test_decode_quantD : decode 0b00000000000000000000000100000010#32 = .ok .quantD := by decide
theorem test_decode_dequantS : decode 0b00000000000000000000000000000011#32 = .ok .dequantS := by decide
theorem test_decode_dequantD : decode 0b00000000000000000000000100000011#32 = .ok .dequantD := by decide
theorem test_decode_estClr : decode 0b00000000000000000000000000010000#32 = .ok .estClr := by decide
theorem test_decode_estAccS : decode 0b00000000000000000000000000010001#32 = .ok .estAccS := by decide
theorem test_decode_estAccD : decode 0b00000000000000000000000100010001#32 = .ok .estAccD := by decide
theorem test_decode_estFinS : decode 0b00000000000000000000000000010010#32 = .ok .estFinS := by decide
theorem test_decode_estFinD : decode 0b00000000000000000000000100010010#32 = .ok .estFinD := by decide
theorem test_decode_setbw : decode 0b00000000000000000000000000010011#32 = .ok .setbw := by decide
theorem test_decode_bufclr : decode 0b00000000000000000000000000100000#32 = .ok .bufclr := by decide
theorem test_decode_setwcur : decode 0b00000000000000000000000000100001#32 = .ok .setwcur := by decide
theorem test_decode_pack : decode 0b00000000000000000000000000100010#32 = .ok .pack := by decide
theorem test_decode_setrcur : decode 0b00000000000000000000000000110000#32 = .ok .setrcur := by decide
theorem test_decode_unpack : decode 0b00000000000000000000000000110001#32 = .ok .unpack := by decide

/-- 30_encoding.md R75, R76: the all-zero word, F = 1 without a D form, a reserved OPC, a reserved bit. -/
theorem test_decode_illegal :
    decode 0x00000000 = .error .reservedOpcode ∧ decode 0x00000101 = .error .noDoubleForm ∧
    decode 0x00000014 = .error .reservedOpcode ∧ decode 0x80000001 = .error .reservedBits := by decide

theorem test_decodeTableWord :
    decodeTableWord 32 0x00000112 = some .estFinD ∧ decodeTableWord 32 0x00000200 = none ∧
    decodeTableWord 64 0x00000112 = none := by decide

/-- The very next step from reset runs the placed word (60_exceptions.md R201: PACK without a width). -/
theorem test_withFetchWord :
    gives (step (State.reset.withFetchWord 32 0x22)) (fun s => s.err && s.cause == 7 && !s.busy) = true := by decide

/-! One step of each command; the expected results are the examples and corner cases of its rule. -/

/-- 40_precision.md R100: `setprec 1e-4`. -/
theorem test_setprec : run .setprec 0x3F1A36E2EB1C432D State.reset
    (fun s => s.scale == 10000 && s.result == 10000 && s.stepReg == 0x3F1A36E2EB1C432D) = true := by decide +kernel

/-- 40_precision.md R100: `s = 2.0` under TIES_EVEN faults with SCALE_ZERO. -/
theorem test_setprec_zero : run .setprec 0x4000000000000000 State.reset
    (fun s => s.err && s.cause == 4 && s.scale == 0) = true := by decide +kernel

/-- 42_quantizer_scaler.md R131: the example; `A[63:32]` is ignored. -/
theorem test_quantS : run .quantS 0xFFFFFFFFC1574BC7 (withScale 10000)
    (fun s => s.result == 0xFFFFFFFFFFFDF260 && !s.sat) = true := by decide +kernel

/-- 42_quantizer_scaler.md R131: `+inf` gives `hi` and SAT. -/
theorem test_quantS_inf : run .quantS 0x7F800000 (withScale 10000)
    (fun s => s.result == 0x7FFFFFFFFFFFFFFF && s.sat) = true := by decide +kernel

/-- 42_quantizer_scaler.md R132: the example. -/
theorem test_quantD : run .quantD 0x40243EF9DB22D0E5 (withScale 10000)
    (fun s => s.result == 101230) = true := by decide +kernel

/-- 42_quantizer_scaler.md R132: 2.5 under TIES_EVEN. -/
theorem test_quantD_tie : run .quantD 0x4004000000000000 (withScale 1) (fun s => s.result == 2) = true := by
  decide +kernel

/-- 42_quantizer_scaler.md R134: the example. -/
theorem test_dequantS : run .dequantS (bits64 (-134560)) (withScale 10000)
    (fun s => s.result == 0x00000000C1574BC7) = true := by decide +kernel

/-- 42_quantizer_scaler.md R134: without a scale. -/
theorem test_dequantS_noScale : run .dequantS 1 State.reset (fun s => s.err && s.cause == 5) = true := by
  decide +kernel

/-- 42_quantizer_scaler.md R135: `q = 1`, SCALE = 3. -/
theorem test_dequantD : run .dequantD 1 (withScale 3) (fun s => s.result == 0x3FD5555555555555) = true := by
  decide +kernel

/-- 42_quantizer_scaler.md R135: `q = 2^63 - 1`, SCALE = 1. -/
theorem test_dequantD_large : run .dequantD 0x7FFFFFFFFFFFFFFF (withScale 1)
    (fun s => s.result == 0x43E0000000000000) = true := by decide +kernel

/-- 41_bit_width_estimator.md R111: the example. -/
theorem test_estClr : run .estClr 0 { State.reset with maxabs := 0x402AE978D4FDF3B6 }
    (fun s => s.maxabs == 0) = true := by decide

/-- 41_bit_width_estimator.md R112: the example. -/
theorem test_estAccS : run .estAccS 0xC1574BC7 State.reset (fun s => s.maxabs == 0x402AE978E0000000) = true := by
  decide +kernel

/-- 41_bit_width_estimator.md R112: a NaN faults and MAXABS stays. -/
theorem test_estAccS_nan : run .estAccS 0x7FC00000 State.reset
    (fun s => s.err && s.cause == 6 && s.maxabs == 0) = true := by decide +kernel

/-- 41_bit_width_estimator.md R113: the example (MAXABS = 12.345). -/
theorem test_estAccD : run .estAccD 0xC02AE978D4FDF3B6 { State.reset with maxabs := 0x4028B0A3D70A3D71 }
    (fun s => s.maxabs == 0x402AE978D4FDF3B6) = true := by decide +kernel

/-- 41_bit_width_estimator.md R113: `-0.0` changes nothing. -/
theorem test_estAccD_zero : run .estAccD 0x8000000000000000 State.reset (fun s => s.maxabs == 0) = true := by
  decide +kernel

/-- 41_bit_width_estimator.md R115: the example. -/
theorem test_estFinS : run .estFinS 0 { withScale 10000 with maxabs := 0x402AE978E0000000 }
    (fun s => s.bw == 19 && s.result == 19 && !s.sat) = true := by decide +kernel

/-- 41_bit_width_estimator.md R116: the example. -/
theorem test_estFinD : run .estFinD 0 { withScale 1000 with maxabs := 0x3FF0000000000000 }
    (fun s => s.bw == 11 && s.result == 11) = true := by decide +kernel

/-- 41_bit_width_estimator.md R116: MAXABS = 2^63 is above the maximum. -/
theorem test_estFinD_sat : run .estFinD 0 { withScale 1 with maxabs := 0x43E0000000000000 }
    (fun s => s.bw == 64 && s.sat) = true := by decide +kernel

/-- 41_bit_width_estimator.md R117: the example, and the widths 0 and 65. -/
theorem test_setbw : run .setbw 19 State.reset (fun s => s.bw == 19 && s.result == 0) = true := by decide

theorem test_setbw_bad : run .setbw 65 State.reset (fun s => s.cause == 7 && s.bw == 0) = true ∧
    run .setbw 0 State.reset (fun s => s.cause == 7) = true := by decide

/-- 43_bit_packer.md R151: every byte is 0, whatever reset left. -/
theorem test_bufclr : run .bufclr 0 State.reset
    (fun s => (List.range 16).all (fun i => s.bufByte i == 0)) = true := by decide

/-- 43_bit_packer.md R152: the example. -/
theorem test_setwcur : run .setwcur 76 State.reset (fun s => s.wcur == 76 && s.rcur == 0) = true := by decide

/-- 43_bit_packer.md R153: the example. -/
theorem test_pack : run .pack 101230 (zeroed 19)
    (fun s => s.bufByte 0 == 0x6E && s.bufByte 1 == 0x8B && s.bufByte 2 == 0x01 && s.bufByte 3 == 0 &&
      s.wcur == 19) = true := by decide +kernel

/-- 43_bit_packer.md R153: a field past the last bit faults and nothing moves. -/
theorem test_pack_bounds : run .pack 1 { zeroed 19 with wcur := 110 }
    (fun s => s.cause == 8 && s.wcur == 110) = true := by decide +kernel

/-- 44_bit_unpacker.md R171: any value is accepted. -/
theorem test_setrcur : run .setrcur 0xFFFFFFFFFFFFFFFF State.reset
    (fun s => s.rcur == 0xFFFFFFFFFFFFFFFF && !s.err) = true := by decide

/-- 44_bit_unpacker.md R172: the example. -/
theorem test_unpack : run .unpack 0
    { zeroed 19 with buf := Memory.set (Memory.set (Memory.set (Memory.zero 16) 0 0x6E) 1 0x8B) 2 0x01 }
    (fun s => s.result == 101230 && s.rcur == 19) = true := by decide +kernel

/-- 43_bit_packer.md R150: `Encode(3, -3) = 0b110`, and 44_bit_unpacker.md R170 undoes it. -/
theorem test_coding : encodeField 3 (-3) = 0b110 ∧ decodeField 3 0b110 = -3 := by decide

/-! The HOST and the assembler. -/

/-- 70_reset_and_hazards.md R235, 60_exceptions.md R204: a second CMD write, and one while ERR is 1. -/
theorem test_cmd_write :
    (pend 0x20 0).hostStep (.write 0 0x21) = { pend 0x20 0 with ovrn := true } ∧
    State.hostStep { State.reset with err := true } (.write 0 0x20) = { State.reset with err := true } := by decide

/-- 10_state.md R30: ERR and CAUSE together, SAT alone. -/
theorem test_status_write :
    State.hostStep { State.reset with err := true, cause := 5, sat := true } (.write 0x18 2) =
      { State.reset with sat := true } ∧
    State.hostStep { State.reset with err := true, cause := 5, sat := true } (.write 0x18 4) =
      { State.reset with err := true, cause := 5 } := by decide

/-- 10_state.md R37: PARAMS of the reference instance. -/
theorem test_params : State.reset.paramsWord = 0x0100004000000010 := by decide

/-- 20_memory.md R57: a 4-byte write and its lowest byte. -/
theorem test_bus_write :
    (State.reset.hostStep (.busWrite 0x1004 .four 0x01020304)).bufByte 4 = 0x04 ∧
    (State.reset.hostStep (.busWrite 0x1004 .four 0x01020304)).bufByte 7 = 0x01 := by decide

/-- 10_state.md R42, 20_memory.md R56: where a narrow access falls at a register, at a reserved offset, and
where it is misaligned. -/
theorem test_place :
    State.reset.place 0x010 .four = .irregular ∧ State.reset.place 0x058 .four = .vacant ∧
    State.reset.place 0x014 .four = .vacant ∧ State.reset.place 0x059 .four = .irregular ∧
    State.reset.place 0x059 .eight = .irregular ∧ State.reset.place 0x060 .eight = .reserved := by decide

/-- 30_encoding.md R79, R81: a floating literal of a binary32 command, and its turns. -/
theorem test_assemble : assembleLine 0 "quant.s -13.456 ; comment".toList =
    .ok [.host (.write 8 0xC1574BC7), .host (.write 0 0x2), .wait 0] := by decide +kernel

/-- 30_encoding.md R81, 70_reset_and_hazards.md R237: each line's `wait` has its own latency. -/
theorem test_assemble_latencies : assemble (fun n => 3 - n) ["bufclr".toList, "wait".toList] =
    .ok [.host (.write 0 0x20), .wait 3, .wait 2] := by decide +kernel

/-- 30_encoding.md R79: a floating literal for an integer reading. -/
theorem test_assemble_error : assembleLine 0 "pack 1.5".toList = .error .badLiteral := by decide +kernel

/-! Witnesses: for each statement with hypotheses, a state and operands that meet them, each clause. -/

theorem witness_DecodeAcceptsExactlyTheTable :
    decode 0x00000102 = .ok .quantD ∧ (CmdFields.ofWord 0x00000102).wf = true ∧
    (CmdFields.ofWord 0x00000101).wf = false := by decide

theorem witness_IllegalWordFaults :
    (pend 0 0).busy = true ∧ (∀ i, (pend 0 0).pending.word ≠ encode i) ∧ (pend 0 0).agenda = [] ∧
    ({ pend 0 0 with agenda := [.core] } : State).agenda = .core :: [] ∧
    ({ pend 0 0 with agenda := [.wait 0] } : State).agenda = .wait 0 :: [] :=
  ⟨rfl, fun i => by cases i <;> decide, rfl, rfl, rfl⟩

theorem witness_StepRunsTheDecodedCommand :
    (pend 0x22 5).busy = true ∧ decode (pend 0x22 5).pending.word = .ok .pack ∧ (pend 0x22 5).agenda = [] ∧
    ({ pend 0x22 5 with agenda := [.core, .wait 0] } : State).agenda = .core :: [.wait 0] ∧
    ({ pend 0x22 5 with agenda := [.wait 0] } : State).agenda = .wait 0 :: [] := by decide

theorem witness_TurnsInterleaveTheAgents :
    ({ pend 0x22 5 with agenda := [.wait 3] } : State).busy = true ∧
    ({ State.reset with agenda := [.wait 3] } : State).busy = false ∧
    ({ State.reset with agenda := [.core] } : State).busy = false ∧
    ({ State.reset with agenda := [.host (.read 0)] } : State).agenda = .host (.read 0) :: [] := by decide

/-- HOST turns before the CORE's, and a Reset among them. -/
theorem witness_PendingCommandCompletes :
    let s : State := { pend 0x20 0 with agenda := [.host (.read 0x18), .wait 2] }
    let r : State := { pend 0x20 0 with agenda := [.host .reset, .core] }
    s.busy = true ∧ resetBeforeCore s.agenda = false ∧ stepsBeforeCore s.agenda = 3 ∧
    decode s.pending.word = .ok .bufclr ∧ r.busy = true ∧ resetBeforeCore r.agenda = true := by decide

theorem witness_CommandLineRunsItsCommand :
    AsmLine.expand 2 (.command .setbw ((some 19).map Literal.hex)) =
      .ok [.host (.write 8 19), .host (.write 0 0x13), .wait 2] ∧
    AsmLine.expand 2 (.command .bufclr ((none : Option Word).map Literal.hex)) =
      .ok [.host (.write 0 0x20), .wait 2] ∧
    State.reset.busy = false ∧ State.reset.err = false ∧
    ∃ u, exec .setbw { State.reset with
      opa := 19
      pending := { valid := true, word := encode .setbw, opa := 19 }
      agenda := [.host (.write 8 19), .host (.write 0 0x13), .wait 2] ++ [] } = .next u :=
  ⟨by decide, by decide, rfl, rfl, Laws.exec_next _ _⟩

/-- A state that meets the invariant, with a command pending. -/
theorem pend_Inv : (pend 0x20 0).Inv where
  params_wf := by decide
  buf_wf := Laws.wf_nil _
  no_err_while_busy := fun _ => rfl
  no_cause := fun _ => rfl
  cause_is_code := fun h => by cases h
  precision := .inl ⟨rfl, rfl⟩
  width_le := by decide
  maxabs_sign := by decide
  maxabs_number := by decide

theorem witness_EveryStepKeepsTheInvariant : ∃ s t : State, s.Inv ∧ step s = .next t :=
  ⟨pend 0x20 0, _, pend_Inv, rfl⟩

theorem witness_PrecisionChangesOnlyBySetprec :
    gives (step (pend 0x01 0x3FF0000000000000)) (fun t => t.scale == 1 && t.stepReg == 0x3FF0000000000000) = true ∧
    gives (step { withScale 7 with agenda := [.host .reset] }) (fun t => t.scale == 0) = true ∧
    deriveScale .tiesEven 0x3FF0000000000000 = .ok 1 ∧ (withScale 1).scale = bits64 1 := by decide +kernel

/-- A fault that sets ERR, a clamp that sets SAT, a write while BUSY is 1, and a STATUS write. -/
theorem witness_FlagsChangeOnlyByTheirRules :
    gives (step (pend 0 0)) (fun t => t.err) = true ∧
    gives (step { withScale 1 with pending := { valid := true, word := 0x102, opa := 0x7FF0000000000000 } })
      (fun t => t.sat && t.result != 0) = true ∧
    gives (step { pend 0x20 0 with agenda := [.host (.write 0 0x20)] }) (fun t => t.ovrn) = true ∧
    gives (step { State.reset with err := true, sat := true, ovrn := true, agenda := [.host (.write 0x018 0xE)] })
      (fun t => !t.err && !t.sat && !t.ovrn) = true := by decide +kernel

/-- Below and at the overflow threshold, and a tie: `1 + 2^-53` lies half-way and goes to 1. -/
theorem witness_RoundGivesTheNearestValue :
    |(1 : Rat)| < Fmt.D.overflowAt ∧ Fmt.S.overflowAt ≤ |Fmt.S.overflowAt| ∧
    Fmt.D.real (Fmt.D.round (1 + 1 / 2 ^ 53)) = .fin 1 ∧
    Fmt.D.real 0x3FF0000000000001 = .fin (1 + 1 / 2 ^ 52) ∧
    |(1 + 1 / 2 ^ 52 : Rat) - (1 + 1 / 2 ^ 53)| = |(1 : Rat) - (1 + 1 / 2 ^ 53)| := by
  refine ⟨?_, le_abs_self _, by decide +kernel, by decide +kernel, ?_⟩
  · rw [abs_one]; decide +kernel
  · rw [abs_of_nonneg (by norm_num), abs_of_nonpos (by norm_num)]; norm_num

theorem witness_RoundIntGivesTheNearestInteger :
    roundInt .tiesEven (1 / 2) = 0 ∧ roundInt .tiesAway (1 / 2) = 1 ∧
    |((1 : Int) : Rat) - 1 / 2| = |((0 : Int) : Rat) - 1 / 2| := by
  refine ⟨by decide +kernel, by decide +kernel, ?_⟩
  norm_num [abs_of_pos, abs_of_neg]

theorem witness_RepresentableValuesAreExact :
    Fmt.S.isNaN 0x00000001 = false ∧ Fmt.S.isNaN 0x7F800000 = false ∧
    Fmt.D.real 0xBFF8000000000000 = .fin (-3 / 2) := by decide +kernel

/-- NaN, `-inf`, `+inf`, `-0.0`, the least subnormal, `2^-63`, 2.0 and 0.4. -/
theorem witness_DeriveScaleFollowsTheReciprocal :
    Fmt.D.isNaN 0x7FF8000000000000 = true ∧
    (Fmt.D.isNaN 0xFFF0000000000000 = false ∧ Fmt.D.real 0xFFF0000000000000 = .negInf) ∧
    (Fmt.D.isNaN 0x7FF0000000000000 = false ∧ Fmt.D.real 0x7FF0000000000000 = .posInf) ∧
    Fmt.D.real 0x8000000000000000 = .fin 0 ∧
    (match Fmt.D.real 0x0000000000000001 with
      | .fin x => decide (0 < x) && Fmt.D.real (Fmt.D.round (1 / x)) == .posInf
      | _ => false) = true ∧
    (Fmt.D.real 0x3C00000000000000 = .fin (1 / 2 ^ 63) ∧ Fmt.D.real (Fmt.D.round (1 / (1 / 2 ^ 63))) = .fin (2 ^ 63) ∧
      2 ^ 63 - 1 < roundInt .tiesEven (2 ^ 63)) ∧
    (Fmt.D.real 0x4000000000000000 = .fin 2 ∧ Fmt.D.real (Fmt.D.round (1 / 2)) = .fin (1 / 2) ∧
      roundInt .tiesEven (1 / 2) = 0) ∧
    (match Fmt.D.real 0x3FD999999999999A with
      | .fin x => decide (0 < x) && Fmt.D.real (Fmt.D.round (1 / x)) == .fin (5 / 2)
      | _ => false) = true ∧
    (roundInt .tiesEven (5 / 2) ≠ 0 ∧ roundInt .tiesEven (5 / 2) ≤ 2 ^ 63 - 1) := by decide +kernel

theorem witness_DerivedScaleIsInRange :
    deriveScale .tiesEven 0x3FF0000000000000 = .ok 1 ∧
    deriveScale .tiesEven 0x3C10000000000000 = .ok (2 ^ 62) := by decide +kernel

/-- A step just below 2 under TIES_AWAY, and 1.0. -/
theorem witness_HalfTheLatticeSpacingIsWithinTheStep :
    Fmt.D.real 0x3FF0000000000000 = .fin 1 ∧ deriveScale .tiesEven 0x3FF0000000000000 = .ok 1 ∧
    deriveScale .tiesAway 0x3FFFFFFFFFFFFFFF = .ok 1 := by decide +kernel

theorem witness_SetprecInstallsThePrecision :
    (Fmt.D.real (pend 1 0x3FF0000000000000).pending.opa = .fin 1 ∧
      Fmt.D.real (Fmt.D.round (1 / 1)) = .fin 1 ∧ roundInt .tiesEven 1 = 1) ∧
    deriveScale .tiesEven (pend 1 0).pending.opa = .error .stepInvalid ∧
    Fmt.D.real (pend 1 0x8000000000000000).pending.opa = .fin 0 ∧
    (Fmt.D.real (pend 1 0x3C00000000000000).pending.opa = .fin (1 / 2 ^ 63) ∧
      Fmt.D.real (Fmt.D.round (1 / (1 / 2 ^ 63))) = .fin (2 ^ 63) ∧ 2 ^ 63 - 1 < roundInt .tiesEven (2 ^ 63)) ∧
    (Fmt.D.real (pend 1 0x4000000000000000).pending.opa = .fin 2 ∧
      Fmt.D.real (Fmt.D.round (1 / 2)) = .fin (1 / 2) ∧ roundInt .tiesEven (1 / 2) = 0) := by decide +kernel

/-- A finite product, and one that overflows each way. -/
theorem witness_ScaledValueIsTheRoundedProduct :
    Fmt.S.real 0x7F800000 = .posInf ∧ Fmt.S.real 0xFF800000 = .negInf ∧
    (Fmt.S.real 0x40000000 = .fin 2 ∧ Fmt.S.real (Fmt.S.round (2 * 3)) = .fin 6) ∧
    Fmt.S.real 0x7F000000 = .fin (2 ^ 127) ∧ Fmt.S.real 0xFF000000 = .fin (-2 ^ 127) ∧
    Fmt.S.real (Fmt.S.round (2 ^ 127 * 3)) = .posInf ∧ Fmt.S.real (Fmt.S.round (-2 ^ 127 * 3)) = .negInf := by
  decide +kernel

/-- In the range, above it and below it, at W = 32, and each infinity. -/
theorem witness_QuantizeClampsAndReports :
    let p : Params := { w := .w32, roundMode := .tiesEven, bufBytes := 1 }
    Fmt.D.isNaN 0x7FF8000000000000 = true ∧ Fmt.D.isNaN 0x41DFFFFFFFC00000 = false ∧
    scaledValue p 1 .D 0x41DFFFFFFFC00000 = .fin 2147483647 ∧
    scaledValue p 1 .D 0x41E0000000000000 = .fin 2147483648 ∧
    scaledValue p 1 .D 0xC1E0000000200000 = .fin (-2147483649) ∧
    scaledValue p 1 .D 0x7FF0000000000000 = .posInf ∧
    scaledValue p 1 .D 0xFFF0000000000000 = .negInf := by decide +kernel

theorem witness_QuantWritesResultAndSat :
    (withScale 1).scale ≠ 0 ∧ State.reset.scale = 0 ∧
    Fmt.S.isNaN (((0xFFFFFFFF3F800000 : Word).setWidth 32).setWidth 64) = false ∧
    Fmt.S.isNaN (((0xFFFFFFFF7FC00000 : Word).setWidth 32).setWidth 64) = true ∧
    Fmt.D.isNaN 0x3FF0000000000000 = false ∧ Fmt.D.isNaN 0x7FF0000000000001 = true := by decide

theorem witness_QuantizePreservesOrder :
    quantize Params.reference 1 .D 0xBFF0000000000000 = .ok (-1, false) ∧
    quantize Params.reference 1 .D 0x7FF0000000000000 = .ok (2 ^ 63 - 1, true) ∧
    Ext.lt (Fmt.D.real 0x7FF0000000000000) (Fmt.D.real 0xBFF0000000000000) = false := by decide +kernel

theorem witness_DequantWritesTheRoundedQuotient : (withScale 3).scale ≠ 0 ∧ State.reset.scale = 0 := by decide

theorem witness_RescaleIsFinite :
    rescale 3 .S (-2 ^ 63) = .ok 0xDE2AAAAB ∧ rescale 3 .D 0 = .ok 0 := by decide +kernel

theorem witness_RescalePreservesOrder :
    (match rescale 3 .D (-1), rescale 3 .D (2 ^ 63 - 1) with
      | .ok _, .ok _ => true
      | _, _ => false) = true := by decide +kernel

/-- A greater magnitude and one that is not, in each format, and a NaN. -/
theorem witness_EstClrAndEstAccTrackTheMaximum :
    Fmt.S.isNaN 0xC1574BC7 = false ∧ Fmt.S.isNaN 0xFFC00000 = true ∧
    Ext.lt (Fmt.D.real 0) (Ext.magnitude (Fmt.S.real 0xC1574BC7)) = true ∧
    Ext.lt (Fmt.D.real 0) (Ext.magnitude (Fmt.S.real 0x80000000)) = false ∧
    Fmt.D.isNaN 0xC02AE978D4FDF3B6 = false ∧ Fmt.D.isNaN 0x7FFFFFFFFFFFFFFF = true ∧
    Ext.lt (Fmt.D.real 0) (Ext.magnitude (Fmt.D.real 0xC02AE978D4FDF3B6)) = true ∧
    Ext.lt (Fmt.D.real 0) (Ext.magnitude (Fmt.D.real 0x8000000000000000)) = false := by decide +kernel

/-- An infinite maximum, one that binary32 holds, one that it rounds to infinity, and a product that overflows. -/
theorem witness_ScaledMaxIsTheCeilingOfTheProduct :
    Fmt.D.real 0x7FF0000000000000 = .posInf ∧
    Fmt.D.real 0x3FE0000000000000 = .fin (1 / 2) ∧ Fmt.S.real (Fmt.S.round (1 / 2)) = .fin (1 / 2) ∧
    Fmt.S.real (Fmt.S.round (1 / 2 * 1)) = .fin (1 / 2) ∧
    Fmt.D.real 0x47F0000000000000 = .fin (2 ^ 128) ∧ Fmt.S.real (Fmt.S.round (2 ^ 128)) = .posInf ∧
    Fmt.D.real 0x47E0000000000000 = .fin (2 ^ 127) ∧ Fmt.S.real (Fmt.S.round (2 ^ 127)) = .fin (2 ^ 127) ∧
    Fmt.S.real (Fmt.S.round (2 ^ 127 * 3)) = .posInf := by decide +kernel

theorem witness_EstFinWritesTheWidth : (withScale 1).scale ≠ 0 ∧ State.reset.scale = 0 := by decide

theorem witness_EstimatedWidthIsWithinW :
    estFinal Params.reference 1 0x7FF0000000000000 .D = .ok (64, true) ∧
    estFinal Params.reference 1 0 .S = .ok (1, false) := by decide +kernel

/-- The ends of the accepted range and the values beside them. -/
theorem witness_SetbwLoadsTheWidth :
    (pend 0x13 1).pending.opa.toNat = 1 ∧ (pend 0x13 64).pending.opa.toNat = 64 ∧
    (pend 0x13 0).pending.opa.toNat < 1 ∧ 64 < (pend 0x13 65).pending.opa.toNat := by decide

theorem witness_EstimatedWidthFitsEveryValue :
    (withScale 10000).scale ≠ 0 ∧
    (∀ y ∈ ([0xC1574BC7, 0x00000000FF800000] : List Word), Fmt.S.isNaN (floatOperand .S y) = false) ∧
    (0xC1574BC7 : Word) ∈ ([0xC1574BC7, 0x00000000FF800000] : List Word) := by
  refine ⟨by decide, fun y hy => ?_, by simp⟩
  simp only [List.mem_cons, List.mem_nil_iff, or_false] at hy
  rcases hy with rfl | rfl <;> decide

theorem witness_EncodeIsComplementSignCoding :
    (1 ≤ 1 ∧ 1 ≤ 64) ∧ ((-2 ^ 63 : Int) ≤ -9223372036854775808 ∧ (-9223372036854775808 : Int) < 2 ^ 63) ∧
    encodeField 1 (-5) = 1 ∧ encodeField 64 (-1) = 0x8000000000000000 := by
  refine ⟨by decide, by omega, by decide, by decide +kernel⟩

/-- Values that fit at the ends of the range, and values that do not. -/
theorem witness_FieldCodingRoundTrips :
    fitsWidth 3 (-4) ∧ fitsWidth 3 3 ∧ fitsWidth 1 (-1) ∧ ¬ fitsWidth 3 4 ∧
    decodeField 3 (encodeField 3 4) = 0 ∧ decodeField 3 (encodeField 3 (-5)) = -1 ∧ 0b110 < 2 ^ 3 := by
  unfold fitsWidth; decide +kernel

theorem witness_BufclrAndTheCursorCommands :
    15 < State.reset.params.bufBytes ∧ State.reset.params.bufBytes ≤ 16 ∧
    Memory.wf State.reset.params.bufBytes State.reset.buf := by decide

/-- No width; a field that ends one bit late; a field that ends at the last bit. -/
theorem witness_PackWritesTheField :
    (zeroed 0).bw.toNat = 0 ∧
    8 * (zeroed 19).params.bufBytes < ({ zeroed 19 with wcur := 110 } : State).wcur.toNat + (zeroed 19).bw.toNat ∧
    ({ zeroed 19 with wcur := 109 } : State).wcur.toNat + (zeroed 19).bw.toNat ≤ 8 * (zeroed 19).params.bufBytes ∧
    (zeroed 19).params.wf ∧ 8 * 12 + 8 ≤ 109 ∧ 109 + 19 ≤ 8 * 16 := by decide

theorem witness_UnpackReadsTheField :
    (zeroed 0).bw.toNat = 0 ∧
    8 * (zeroed 64).params.bufBytes < ({ zeroed 64 with rcur := 65 } : State).rcur.toNat + (zeroed 64).bw.toNat ∧
    ({ zeroed 64 with rcur := 64 } : State).rcur.toNat + (zeroed 64).bw.toNat ≤ 8 * (zeroed 64).params.bufBytes ∧
    (zeroed 64).params.wf := by decide

theorem zeroed_clear (b : BitVec 7) (c n : Nat) (h : c + n ≤ 128) : (zeroed b).fieldClear c n := by
  intro j hj
  have : (zeroed b).bufByte ((c + j) / 8) = 0 := by
    have hl : (c + j) / 8 < 16 := by omega
    simp only [State.bufByte, zeroed, Laws.get_zero, hl, if_true]
  simp [State.bufBit, this]

theorem witness_PackThenUnpackReturnsTheValue :
    (zeroed 19).bw.toNat ≠ 0 ∧ (zeroed 19).bw.toNat ≤ 64 ∧ (zeroed 19).params.wf ∧
    0 = (zeroed 19).wcur.toNat ∧ 0 + (zeroed 19).bw.toNat ≤ 8 * (zeroed 19).params.bufBytes ∧
    (zeroed 19).fieldClear 0 (zeroed 19).bw.toNat ∧ fitsWidth (zeroed 19).bw.toNat (bits64 (-2 ^ 18)).toInt :=
  ⟨by decide, by decide, by decide, rfl, by decide, zeroed_clear 19 0 19 (by decide), by unfold fitsWidth; decide⟩

theorem witness_PackedStreamHoldsTheValues :
    0 = (zeroed 64).wcur.toNat ∧ 64 = (zeroed 64).bw.toNat ∧ (zeroed 64).params.wf ∧
    0 + ([1, 0x8000000000000000] : List Word).length * 64 ≤ 8 * (zeroed 64).params.bufBytes ∧
    (zeroed 64).fieldClear 0 (([1, 0x8000000000000000] : List Word).length * 64) ∧
    (∀ v ∈ ([1, 0x8000000000000000] : List Word), fitsWidth 64 v.toInt) ∧
    ([1, 0x8000000000000000] : List Word)[1]? = some 0x8000000000000000 := by
  refine ⟨by decide, by decide, by decide, by decide, zeroed_clear 64 0 _ (by decide), ?_, by decide⟩
  intro v _
  have h1 := BitVec.le_toInt v
  have h2 := BitVec.toInt_lt (x := v)
  unfold fitsWidth
  omega

theorem witness_CommandsWriteOnlyTheirRegisters :
    (∃ t, exec .bufclr { State.reset with sat := true } = .next t) ∧
    Instr.bufclr ∉ ([.setprec, .quantS, .quantD, .dequantS, .dequantD, .estFinS, .estFinD, .unpack] : List Instr) ∧
    (∃ t, exec .setbw (pend 0x13 5) = .next t) ∧ Instr.setbw ∉ ([.bufclr, .pack] : List Instr) :=
  ⟨Laws.exec_next _ _, by decide, Laws.exec_next _ _, by decide⟩

theorem witness_CommandsReadNoFlagAndNotOpa :
    ∃ t, exec .quantD { withScale 1 with pending := { valid := true, word := 0x102, opa := 0x7FF0000000000000 } } = .next t :=
  Laws.exec_next _ _

theorem witness_OperandsAreReadAsTabled :
    (∃ t, exec .unpack (pend 0x31 7) = .next t) ∧ Instr.reading .unpack = .none ∧
    (∃ t, exec .quantS (pend 0x02 0x3F800000) = .next t) ∧ Instr.reading .quantS = .f32 ∧
    (0xFFFFFFFF3F800000 : Word).setWidth 32 = (pend 0x02 0x3F800000).pending.opa.setWidth 32 :=
  ⟨Laws.exec_next _ _, rfl, Laws.exec_next _ _, rfl, by decide⟩

/-- The ends of the integer ranges, a value beyond them, and a negative zero. -/
theorem witness_LiteralsEncodeAsTabled :
    Reading.u64 ≠ .none ∧ (-2 ^ 63 : Int) ≤ -9223372036854775808 ∧ (18446744073709551615 : Int) < 2 ^ 64 ∧
    (18446744073709551616 : Int) ≥ 2 ^ 64 ∧ (0 : Rat) ≤ 0 ∧ Reading.i64 ∈ ([.i64, .u64, .none] : List Reading) := by
  refine ⟨by decide, by omega, by omega, by omega, le_refl _, by decide⟩

/-- For the statements about a HOST transaction while BUSY is 0, with ERR at 0 and at 1. -/
theorem witness_CmdWriteLatchesTheCommand :
    State.reset.busy = false ∧ State.reset.err = false ∧
    ({ State.reset with err := true } : State).busy = false ∧ ({ State.reset with err := true } : State).err = true := by
  decide

theorem witness_StatusWriteOneToClear :
    ({ State.reset with err := true, cause := 5, sat := true, ovrn := true } : State).busy = false := by decide

/-- The ends of the reserved range, a misaligned offset, and the first offset outside. -/
theorem witness_OtherRegisterWrites :
    State.reset.busy = false ∧ (0x010 < 0x1000 ∧ 0x010 ≠ 0x018) ∧ (0xFFF < 0x1000 ∧ 0xFFF ≠ 0x018) ∧
    0x1000 + State.reset.params.bufBytes ≤ 0x1010 := by decide

theorem witness_BusyWritesAreIgnored :
    (pend 0x20 0).busy = true ∧ 0xFF8 < 0x1000 ∧ 0xFF8 % 8 = 0 ∧ 15 < (pend 0x20 0).params.bufBytes ∧
    8 % AccessSize.eight.bytes = 0 ∧ 8 + AccessSize.eight.bytes ≤ (pend 0x20 0).params.bufBytes := by decide

theorem witness_ObeyingTheWaitAvoidsOverrun :
    let s : State := { State.reset with agenda := [.host (.write 8 19), .host (.write 0 0x13), .host (.read 0x18), .wait 1] }
    obeysWait s.busy s.agenda = true ∧ s.ovrn = false ∧
    obeysWait false [.host (.write 0 0x13), .host (.write 8 19)] = false := by decide

theorem witness_ReadsHaveNoSideEffect :
    (∃ off, HostTxn.read 0x010 = .read off) ∧ (∃ i, HostTxn.bufRead 3 = .bufRead i) ∧
    (∃ off n, HostTxn.busRead 0x1001 .two = .busRead off n) :=
  ⟨⟨_, rfl⟩, ⟨_, rfl⟩, ⟨_, _, rfl⟩⟩

theorem witness_RegistersReadAtTheirOffsets :
    State.reset.busy = false ∧ ((0x050, State.reset.paramsWord) : Nat × Word) ∈
      ([(0x048, State.reset.rcur), (0x050, State.reset.paramsWord)] : List (Nat × Word)) := by decide

theorem witness_ReadsThatAreAlwaysDefined :
    (0x058 < 0x1000 ∧ 0x058 ≤ 0x058 ∧ 0x058 % 8 = 0) ∧ (0xFF8 < 0x1000 ∧ 0x058 ≤ 0xFF8 ∧ 0xFF8 % 8 = 0) ∧
    (0x058 % AccessSize.four.bytes = 0 ∧ 0x004 % AccessSize.four.bytes = 0 ∧ 0x004 % 8 ≠ 0) ∧
    0x1000 + State.reset.params.bufBytes ≤ 0x1010 := by decide

theorem witness_ParamsLayout :
    State.reset.params.wf ∧ ({ w := .w32, roundMode := .tiesAway, bufBytes := 2 ^ 32 - 1 } : Params).wf := by decide

/-- The last bytes of the buffer in each unit. -/
theorem witness_BufferWindowIsLittleEndian :
    State.reset.busy = false ∧ 15 % AccessSize.one.bytes = 0 ∧ 15 + AccessSize.one.bytes ≤ State.reset.params.bufBytes ∧
    14 % AccessSize.two.bytes = 0 ∧ 14 + AccessSize.two.bytes ≤ State.reset.params.bufBytes ∧
    12 % AccessSize.four.bytes = 0 ∧ 12 + AccessSize.four.bytes ≤ State.reset.params.bufBytes ∧
    8 % AccessSize.eight.bytes = 0 ∧ 8 + AccessSize.eight.bytes ≤ State.reset.params.bufBytes := by decide

theorem witness_ByteTransactions :
    State.reset.busy = false ∧ 15 < State.reset.params.bufBytes ∧ State.reset.params.bufBytes ≤ 16 := by decide

/-- A misaligned access, a narrow register access, and one that straddles the end of a 6-byte buffer. -/
theorem witness_IrregularWritesHaveNoEffect :
    let s : State := { State.reset with params := { Params.reference with bufBytes := 6 } }
    0x1001 % AccessSize.two.bytes ≠ 0 ∧ 0x001 % AccessSize.eight.bytes ≠ 0 ∧ (0x010 < 0x1000 ∧ AccessSize.four ≠ .eight) ∧
    (0x1000 < 0x1000 + s.params.bufBytes ∧ 0x1000 + s.params.bufBytes < 0x1000 + AccessSize.eight.bytes) := by decide

theorem witness_ResetSetsTheResetValues :
    (∃ s t : State, s.hostStep .reset = t) ∧ ∃ t, t = State.reset :=
  ⟨⟨pend 0x20 0, _, rfl⟩, _, rfl⟩

theorem witness_AfterResetConfigurationIsRequired :
    Instr.quantS ∈ ([.quantS, .quantD, .dequantS, .dequantD, .estFinS, .estFinD] : List Instr) ∧
    Instr.unpack ∈ ([.pack, .unpack] : List Instr) ∧
    Instr.setrcur ∈ ([.estClr, .bufclr, .setwcur, .setrcur] : List Instr) ∧
    Fmt.S.isNaN (floatOperand .S 0x7F800000) = false ∧ Fmt.D.isNaN (floatOperand .D 0x7F800000) = false ∧
    (64 : Word).toNat ≤ 64 ∧ deriveScale .tiesEven 0x3FF0000000000000 = .ok 1 := by decide +kernel

end Sys2Proof.Tests
end

section
/-! PROOFS. The arithmetic of 00_scope.md: rounding to a format (R11), rounding to an integer (R13), exactness (R12), bit length (R15); and the byte transactions of the HOST (R17). -/

namespace Sys2Proof.Proofs

open Sys2Proof Sys2Proof.Machine Sys2Proof.Laws

/-! Rounding to a format (R11) -/

/-- The sign of a rounded number is the sign of the number it rounds. -/
theorem value_round (F : Fmt) (x : ℚ) :
    F.value (F.round x) = (if x < 0 then -1 else 1) * |F.value (F.round x)| := by
  rw [abs_value, value_eq, neg_round]
  simp

theorem value_round_zero (F : Fmt) : F.value (F.round 0) = 0 := by
  rw [← abs_eq_zero, abs_value, mag_round]
  simp

/-- The rounding error is the rounding error of the magnitudes. -/
theorem abs_value_round_sub (F : Fmt) (x : ℚ) :
    |F.value (F.round x) - x| = |(|F.value (F.round x)| - |x|)| := by
  rcases lt_or_ge x 0 with hx | hx
  · have hv : F.value (F.round x) = -|F.value (F.round x)| := by simpa [hx] using value_round F x
    rw [abs_of_neg hx, ← abs_neg]
    nth_rw 1 [hv]
    congr 1
    ring
  · have hv : F.value (F.round x) = |F.value (F.round x)| := by simpa [not_lt.mpr hx] using value_round F x
    rw [abs_of_nonneg hx, ← hv]

/-- Below the overflow threshold a rounded number is finite. -/
theorem real_round_of_lt (F : Fmt) {x : ℚ} (h : |x| < F.overflowAt) :
    F.real (F.round x) = .fin (F.value (F.round x)) := by
  have hm : F.mag (F.round x) < F.infMag := by
    rw [mag_round]; exact (roundMag_lt_infMag F (abs_nonneg x)).mpr h
  rw [Fmt.real, if_pos hm]

/-- Of all magnitudes of the format, `2^(emax+1)` for infinity included, that of the rounded number is nearest,
and has an even fraction when another is as near. -/
theorem abs_round_nearest (F : Fmt) {x : ℚ} (h : |x| < F.overflowAt) (y : Word) :
    |(|F.value (F.round x)| - |x|)| ≤ |(|F.value y| - |x|)| ∧
      (F.mag y ≠ F.mag (F.round x) → |(|F.value y| - |x|)| = |(|F.value (F.round x)| - |x|)| →
        F.mag (F.round x) % 2 = 0) := by
  rw [abs_value, abs_value, mag_round]
  exact roundMag_nearest F (abs_nonneg x) h (F.mag y)

/-- No value of the format is nearer than the rounded one. -/
theorem round_nearest (F : Fmt) {x : ℚ} (h : |x| < F.overflowAt) (y : Word) :
    |F.value (F.round x) - x| ≤ |F.value y - x| := by
  rw [abs_value_round_sub]
  exact (abs_round_nearest F h y).1.trans (abs_abs_sub_abs_le (F.value y) x)

/-- A tie goes to the even fraction. The opposite of the result is as near only when both are zero. -/
theorem round_tie_even (F : Fmt) {x : ℚ} (h : |x| < F.overflowAt) {y : Word}
    (hne : F.value y ≠ F.value (F.round x)) (he : |F.value y - x| = |F.value (F.round x) - x|) :
    F.mag (F.round x) % 2 = 0 := by
  obtain ⟨hle, htie⟩ := abs_round_nearest F h y
  by_cases hm : F.mag y = F.mag (F.round x)
  · have habs : |F.value y| = |F.value (F.round x)| := by rw [abs_value, abs_value, hm]
    have hopp : F.value y = -F.value (F.round x) := (abs_eq_abs.mp habs).resolve_left hne
    rw [hopp] at he hne
    rcases abs_eq_abs.mp he with e | e
    · exact absurd (by linarith) hne
    · have hx : x = 0 := by linarith
      subst hx
      exact absurd (by rw [value_round_zero, neg_zero]) hne
  · refine htie hm (le_antisymm ?_ hle)
    rw [← abs_value_round_sub, ← he]
    exact abs_abs_sub_abs_le _ _

/-- The magnitude of the largest finite pattern. -/
theorem abs_value_largest (F : Fmt) :
    |F.value (F.pattern false (F.infMag - 1))| = (F.units (F.infMag - 1) : ℚ) / ((2 ^ F.quantumExp : ℕ) : ℚ) := by
  rw [abs_value, mag_pattern F false ((Nat.sub_le _ _).trans_lt (infMag_lt F))]

theorem abs_value_largest_lt (F : Fmt) : |F.value (F.pattern false (F.infMag - 1))| < 2 ^ (F.emax + 1) := by
  rw [abs_value_largest, ← units_infMag_div]
  refine div_lt_div_of_pos_right ?_ (quantum_pos F)
  exact_mod_cast units_strictMono F (Nat.sub_lt (infMag_pos F) one_pos)

/-- The overflow threshold is half-way between the largest finite magnitude and `2^(emax+1)`. -/
theorem two_mul_overflowAt (F : Fmt) :
    2 * F.overflowAt = |F.value (F.pattern false (F.infMag - 1))| + 2 ^ (F.emax + 1) := by
  rw [abs_value_largest, ← units_infMag_div, ← add_div, ← overflowAt_units]
  have hq := (quantum_pos F).ne'
  field_simp

/-- The rounded number is nearer than `2^(emax+1)`, which stands for infinity: the largest finite magnitude
already is, and the rounded one is no farther. -/
theorem round_nearer_than_overflow (F : Fmt) {x : ℚ} (h : |x| < F.overflowAt) :
    |F.value (F.round x) - x| < 2 ^ (F.emax + 1) - |x| := by
  have hnear := (abs_round_nearest F h (F.pattern false (F.infMag - 1))).1
  have hmid := two_mul_overflowAt F
  have hmax := abs_value_largest_lt F
  rw [abs_value_round_sub]
  refine hnear.trans_lt (abs_lt.mpr ⟨?_, ?_⟩) <;> linarith

/-- From the overflow threshold on a number rounds to the infinity of its sign. -/
theorem round_of_overflow (F : Fmt) {x : ℚ} (h : F.overflowAt ≤ |x|) : F.round x = F.inf (decide (x < 0)) := by
  have hm : F.roundMag |x| = F.infMag :=
    le_antisymm (roundMag_le F _) (not_lt.mp fun hc => not_lt.mpr h ((roundMag_lt_infMag F (abs_nonneg x)).mp hc))
  rw [round_eq, hm, Fmt.inf]

/-- A rounded binary32 number is a pattern of 32 bits. -/
theorem round_S_lt (x : ℚ) : (Fmt.S.round x).toNat < 2 ^ 32 := by
  have hm : Fmt.S.roundMag |x| < 2 ^ 31 := roundMag_lt .S |x|
  rw [round_eq, pattern_toNat _ _ hm, show Fmt.S.signBit = 31 from rfl]
  split <;> omega

/-- Settles O13: below the threshold by `round_nearest`, `round_tie_even` and `round_nearer_than_overflow`, from it on by
`round_of_overflow`. -/
theorem roundGivesTheNearestValue : Obligations.RoundGivesTheNearestValue := by
  intro F x
  refine ⟨fun h => ⟨_, real_round_of_lt F h, round_nearer_than_overflow F h, fun y u hy => ?_⟩,
    fun h => ?_, round_zero F, isNaN_round F x, ?_⟩
  · obtain ⟨-, rfl⟩ := real_fin F hy
    exact ⟨round_nearest F h y, round_tie_even F h⟩
  · have hr := round_of_overflow F h
    refine ⟨?_, hr⟩
    rw [hr, real_inf]
    simp
  · rintro rfl
    exact round_S_lt x

/-! Rounding to an integer (R13) and exactness (R12) -/

/-- Settles O14: a nearest integer, and the tie rule. -/
theorem roundIntGivesTheNearestInteger : Obligations.RoundIntGivesTheNearestInteger :=
  fun mode x n => ⟨roundInt_nearest mode x n, roundInt_tie mode⟩

/-- Settles O15: a widened binary32 pattern keeps its real, and a value of a format is a magnitude that rounds to
itself. -/
theorem representableValuesAreExact : Obligations.RepresentableValuesAreExact :=
  ⟨fun _ h => real_widen .S h, fun F _ _ h => real_round_value F h⟩

/-! Bit length (R15) -/

@[simp] theorem bitlen_zero : bitlen 0 = 0 := rfl

theorem bitlen_of_pos {n : ℕ} (h : 1 ≤ n) : bitlen n = Nat.log 2 n + 1 := by
  rw [bitlen, if_neg (by omega), Nat.log2_eq_log_two]

/-- `bitlen n` is the least `k` with `n < 2^k`. -/
theorem lt_two_pow_iff_bitlen_le (n k : ℕ) : n < 2 ^ k ↔ bitlen n ≤ k := by
  rcases Nat.eq_zero_or_pos n with rfl | h
  · simp
  · rw [bitlen_of_pos h, Nat.succ_le_iff, Nat.log_lt_iff_lt_pow one_lt_two h.ne']

/-- `Nat.clog 2 (n + 1)` is the least such `k` as well. -/
theorem bitlen_eq_clog (n : ℕ) : bitlen n = Nat.clog 2 (n + 1) :=
  eq_of_forall_ge_iff fun k => by
    rw [← lt_two_pow_iff_bitlen_le, Nat.clog_le_iff_le_pow one_lt_two, Nat.succ_le_iff]

/-- Settles O16: `bitlen n` and the ceiling of the logarithm are both the least `k` with `n < 2^k`. -/
theorem bitlenIsTheCeilingOfTheLogarithm : Obligations.BitlenIsTheCeilingOfTheLogarithm :=
  ⟨bitlen_zero, fun n => ⟨bitlen_of_pos, lt_two_pow_iff_bitlen_le n, bitlen_eq_clog n⟩⟩

/-! Byte transactions (R17) -/

section

variable (s : State) {i : ℕ} (b : Byte)

/-- A one-byte read is that byte of BUF, zero-extended (20_memory.md R53). -/
theorem ofNat_memRead_one : BitVec.ofNat 64 (s.memRead i 1) = (s.bufByte i).setWidth 64 := by
  apply BitVec.eq_of_toNat_eq
  simp [State.memRead]

/-- A one-byte write sets that byte of BUF (20_memory.md R53). -/
theorem memWrite_one : s.memWrite i (b.setWidth 64) 1 = s.setBufByte i b := by
  have hb : (b.setWidth 64).extractLsb' 0 8 = b := by
    ext j hj
    simp [show j < 64 by omega, BitVec.getLsbD_eq_getElem hj]
  simp only [State.memWrite, Nat.add_zero, Nat.mul_zero, hb]

theorem hostStep_bufRead_inside (hb : s.busy = false) (hi : i < s.params.bufBytes) :
    s.hostStep (.bufRead i) = s.observe (.bufRead i) ((s.bufByte i).setWidth 64) := by
  rw [State.hostStep, bytePlace_inside s hi, State.readPlace, hb, if_neg Bool.false_ne_true, ofNat_memRead_one]

theorem hostStep_bufWrite_inside (hb : s.busy = false) (hi : i < s.params.bufBytes) :
    s.hostStep (.bufWrite i b) = s.setBufByte i b := by
  rw [State.hostStep, bytePlace_inside s hi, State.writePlace, hb, if_neg Bool.false_ne_true, memWrite_one]

theorem hostStep_bufRead_outside (hi : s.params.bufBytes ≤ i) :
    s.hostStep (.bufRead i) = s.observe (.bufRead i) 0 := by
  rw [State.hostStep, bytePlace_outside s hi, State.readPlace]

theorem hostStep_bufWrite_outside (hi : s.params.bufBytes ≤ i) : s.hostStep (.bufWrite i b) = s := by
  rw [State.hostStep, bytePlace_outside s hi, State.writePlace]

end

/-- Settles O57: inside the buffer a transaction is an access to its one byte, outside it does nothing. -/
theorem byteTransactions : Obligations.ByteTransactions := by
  intro s i b hb
  refine ⟨fun hi => ⟨hostStep_bufRead_inside s hb hi, ?_, fun j => ?_⟩,
    fun hi => ⟨hostStep_bufRead_outside s hi, hostStep_bufWrite_outside s b hi⟩⟩
  · rw [hostStep_bufWrite_inside s b hb hi]
    rfl
  · rw [hostStep_bufWrite_inside s b hb hi]
    exact bufByte_setBufByte s i j b

end Sys2Proof.Proofs
end

section
/-! PROOFS. What a command that does not fault leaves, and which command writes which register (10_state.md R20 to R38). -/

namespace Sys2Proof.Proofs

open Sys2Proof Sys2Proof.Machine Sys2Proof.Laws

/-! What a command that does not fault leaves -/

/-- `Completes s i u`: the command `i` finds no fault at `s` and leaves `u`, before its end (10_state.md R23). -/
inductive Completes (s : State) : Instr → State → Prop
  | setprec {n : ℤ} (h : deriveScale s.params.roundMode s.f64 = .ok n) :
      Completes s .setprec { s with stepReg := s.f64, scale := bits64 n, result := bits64 n }
  | quant (F : Fmt) {q : ℤ × Bool} (h : quantize s.params s.scale F (s.float F) = .ok q) :
      Completes s (quantOf F) { s.noteSat q.2 with result := bits64 q.1 }
  | dequantS {y : Word} (h : rescale s.scale .S s.i64 = .ok y) : Completes s .dequantS { s with result := y }
  | dequantD {y : Word} (h : rescale s.scale .D s.i64 = .ok y) : Completes s .dequantD { s with result := y }
  | estClr : Completes s .estClr { s with maxabs := 0 }
  | estAcc (F : Fmt) {m : Word} (h : accumulate s.maxabs F (s.float F) = .ok m) :
      Completes s (estAccOf F) { s with maxabs := m }
  | estFin (F : Fmt) {b : ℕ × Bool} (h : estFinal s.params s.scale s.maxabs F = .ok b) :
      Completes s (estFinOf F) { s.noteSat b.2 with bw := BitVec.ofNat 7 b.1, result := bits64 b.1 }
  | setbw (h : s.u64 ≤ 64) : Completes s .setbw { s with bw := BitVec.ofNat 7 s.u64 }
  | bufclr : Completes s .bufclr { s with buf := Memory.zero s.params.bufBytes }
  | setwcur : Completes s .setwcur { s with wcur := BitVec.ofNat 64 s.u64 }
  | pack (h : s.wpos + s.width ≤ s.bitSpace) :
      Completes s .pack { s.setField s.wpos (encodeField s.width s.i64) s.width with
        wcur := BitVec.ofNat 64 (s.wpos + s.width) }
  | setrcur : Completes s .setrcur { s with rcur := BitVec.ofNat 64 s.u64 }
  | unpack : Completes s .unpack { s with
      result := bits64 (decodeField s.width (s.field s.rpos s.width))
      rcur := BitVec.ofNat 64 (s.rpos + s.width) }

/-- A commit of a computed value completes with it, or takes its fault. -/
theorem commit_map_completes {α : Type} {s t : State} {i : Instr} {r : Except Cause α} {f : α → State}
    (hc : ∀ a, r = .ok a → Completes s i (f a)) (h : s.commit (r.map f) = .next t) :
    (∃ u, Completes s i u ∧ t = u.finish) ∨ ∃ c, t = s.takeFault c := by
  rcases commit_cases h with ⟨u, hu, ht⟩ | ⟨c, -, ht⟩
  · obtain ⟨a, ha, rfl⟩ := map_eq_ok hu
    exact .inl ⟨f a, hc a ha, ht⟩
  · exact .inr ⟨c, ht⟩

/-- A command completes and ends, or takes a fault. -/
theorem exec_completes {i : Instr} {s t : State} (h : exec i s = .next t) :
    (∃ u, Completes s i u ∧ t = u.finish) ∨ ∃ c, t = s.takeFault c := by
  cases i with
  | setprec => exact commit_map_completes (fun _ => .setprec) h
  | quantS => exact commit_map_completes (fun _ => .quant .S) h
  | quantD => exact commit_map_completes (fun _ => .quant .D) h
  | dequantS => exact commit_map_completes (fun _ => .dequantS) h
  | dequantD => exact commit_map_completes (fun _ => .dequantD) h
  | estAccS => exact commit_map_completes (fun _ => .estAcc .S) h
  | estAccD => exact commit_map_completes (fun _ => .estAcc .D) h
  | estFinS => exact commit_map_completes (fun _ => .estFin .S) h
  | estFinD => exact commit_map_completes (fun _ => .estFin .D) h
  | estClr => cases h; exact .inl ⟨_, .estClr, rfl⟩
  | bufclr => cases h; exact .inl ⟨_, .bufclr, rfl⟩
  | setwcur => cases h; exact .inl ⟨_, .setwcur, rfl⟩
  | setrcur => cases h; exact .inl ⟨_, .setrcur, rfl⟩
  | setbw =>
    simp only [exec, execSetbw] at h
    split at h
    · cases h; exact .inr ⟨_, rfl⟩
    · cases h; exact .inl ⟨_, .setbw (by omega), rfl⟩
  | pack =>
    simp only [exec, execPack] at h
    split_ifs at h with hw hb
    · cases h; exact .inr ⟨_, rfl⟩
    · cases h; exact .inr ⟨_, rfl⟩
    · cases h; exact .inl ⟨_, .pack (not_lt.mp hb), rfl⟩
  | unpack =>
    simp only [exec, execUnpack] at h
    split_ifs at h
    · cases h; exact .inr ⟨_, rfl⟩
    · cases h; exact .inr ⟨_, rfl⟩
    · cases h; exact .inl ⟨_, .unpack, rfl⟩

section

variable {s u : State} {i : Instr}

/-- What no command writes (10_state.md R21, R29, R37). -/
theorem Completes.effect (h : Completes s i u) : Effect s u := by
  cases h with
  | pack => constructor <;> simp
  | _ => constructor <;> rfl

/-! Which command writes which register (10_state.md R22 to R38) -/

theorem Completes.result_eq (h : Completes s i u)
    (hi : i ∉ [.setprec, .quantS, .quantD, .dequantS, .dequantD, .estFinS, .estFinD, .unpack]) :
    u.result = s.result := by
  cases h with
  | estClr | estAcc | setbw | bufclr | setwcur | setrcur => rfl
  | pack => simp
  | quant F => cases F <;> simp [quantOf] at hi
  | estFin F => cases F <;> simp [estFinOf] at hi
  | setprec | dequantS | dequantD | unpack => simp at hi

theorem Completes.sat_eq (h : Completes s i u) (hi : i ∉ [.quantS, .quantD, .estFinS, .estFinD]) :
    u.sat = s.sat := by
  cases h with
  | quant F => cases F <;> simp [quantOf] at hi
  | estFin F => cases F <;> simp [estFinOf] at hi
  | pack => simp
  | _ => rfl

/-- SAT is set or kept, never cleared (10_state.md R28). -/
theorem Completes.sat_mono (h : Completes s i u) (hs : s.sat = true) : u.sat = true := by
  cases h with
  | quant | estFin => simp [hs]
  | pack => simpa using hs
  | _ => exact hs

theorem Completes.precision_eq (h : Completes s i u) (hi : i ≠ .setprec) :
    u.stepReg = s.stepReg ∧ u.scale = s.scale := by
  cases h with
  | setprec => exact absurd rfl hi
  | pack => simp
  | _ => exact ⟨rfl, rfl⟩

theorem Completes.bw_eq (h : Completes s i u) (hi : i ∉ [.estFinS, .estFinD, .setbw]) : u.bw = s.bw := by
  cases h with
  | estFin F => cases F <;> simp [estFinOf] at hi
  | setbw => simp at hi
  | pack => simp
  | _ => rfl

theorem Completes.maxabs_eq (h : Completes s i u) (hi : i ∉ [.estClr, .estAccS, .estAccD]) :
    u.maxabs = s.maxabs := by
  cases h with
  | estClr => simp at hi
  | estAcc F => cases F <;> simp [estAccOf] at hi
  | pack => simp
  | _ => rfl

theorem Completes.wcur_eq (h : Completes s i u) (hi : i ∉ [.setwcur, .pack]) : u.wcur = s.wcur := by
  cases h with
  | setwcur | pack => simp at hi
  | _ => rfl

theorem Completes.rcur_eq (h : Completes s i u) (hi : i ∉ [.setrcur, .unpack]) : u.rcur = s.rcur := by
  cases h with
  | setrcur | unpack => simp at hi
  | pack => simp
  | _ => rfl

theorem Completes.buf_eq (h : Completes s i u) (hi : i ∉ [.bufclr, .pack]) : u.buf = s.buf := by
  cases h with
  | bufclr | pack => simp at hi
  | _ => rfl

end

/-- Settles O42: a fault writes only ERR, CAUSE and PENDING.valid, and a command that completes has one lemma per
register above. -/
theorem commandsWriteOnlyTheirRegisters : Obligations.CommandsWriteOnlyTheirRegisters := by
  intro i s t h
  rcases exec_completes h with ⟨u, hu, rfl⟩ | ⟨c, rfl⟩
  · have he := hu.effect
    exact ⟨⟨he.params, he.opa, he.ovrn, he.bufEpoch, he.fresh, he.agenda, he.observed⟩, hu.result_eq, hu.sat_eq,
      hu.sat_mono, hu.precision_eq, hu.bw_eq, hu.maxabs_eq, hu.wcur_eq, hu.rcur_eq,
      fun hi => bufByte_congr s (hu.buf_eq hi) he.bufEpoch⟩
  · exact ⟨⟨rfl, rfl, rfl, rfl, rfl, rfl, rfl⟩, fun _ => rfl, fun _ => rfl, id, fun _ => ⟨rfl, rfl⟩, fun _ => rfl,
      fun _ => rfl, fun _ => rfl, fun _ => rfl, fun _ _ => rfl⟩

end Sys2Proof.Proofs
end

section
/-! PROOFS. Whose move a step is (10_state.md R23, 20_memory.md R60), and the invariant of the reachable states (R44). -/

namespace Sys2Proof.Proofs

open Sys2Proof Sys2Proof.Machine Sys2Proof.Laws

/-! Whose move a step is -/

/-- A step is the CORE's, or one transaction of the HOST: that of its turn, or a poll of STATUS (20_memory.md R60,
30_encoding.md R80). -/
theorem step_agents {s t : State} (h : step s = .next t) :
    ∃ ts, coreStep { s with agenda := ts } = .next t ∨
      ∃ x, (s.agenda = .host x :: ts ∨ x = .read 0x018) ∧ t = State.hostStep { s with agenda := ts } x := by
  rcases step_cases h with ⟨-, h⟩ | ⟨ts, -, h⟩ | ⟨-, -, -, -, -, h⟩ | ⟨x, ts, ha, h⟩ | ⟨n, ts, -, -, h⟩ |
    ⟨n, ts, -, -, h⟩
  · exact ⟨_, .inl h⟩
  · exact ⟨ts, .inl h⟩
  · exact ⟨_, .inl h⟩
  · exact ⟨ts, .inr ⟨x, .inl ha, h⟩⟩
  · exact ⟨_, .inr ⟨_, .inr rfl, h⟩⟩
  · exact ⟨ts, .inr ⟨_, .inr rfl, h⟩⟩

/-- The CORE idles, completes the pending command, or takes a fault (10_state.md R23, 30_encoding.md R75). -/
theorem coreStep_completes {s t : State} (h : coreStep s = .next t) :
    (s.busy = false ∧ t = s) ∨
    (s.busy = true ∧ ∃ i u, decode s.pending.word = .ok i ∧ Completes s i u ∧ t = u.finish) ∨
    (s.busy = true ∧ ∃ c, t = s.takeFault c) := by
  rcases coreStep_cases h with h | ⟨hb, i, hi, h⟩ | ⟨hb, -, h⟩
  · exact .inl h
  · rcases exec_completes h with ⟨u, hu, ht⟩ | h
    · exact .inr (.inl ⟨hb, i, u, hi, hu, ht⟩)
    · exact .inr (.inr ⟨hb, h⟩)
  · exact .inr (.inr ⟨hb, _, h⟩)

/-- The CORE executes a pending word that decodes (10_state.md R23). -/
theorem coreStep_of_decode {s : State} {i : Instr} (hb : s.busy = true) (hi : decode s.pending.word = .ok i) :
    coreStep s = exec i s := by
  rw [coreStep, if_pos hb, hi]

/-! What the commands compute keeps the ranges of the registers -/

theorem clamp_le (c : Ext ℤ) {lo hi : ℤ} (h : lo ≤ hi) : c.clamp lo hi ≤ hi := by
  cases c with
  | negInf => exact h
  | fin n => exact min_le_right _ _
  | posInf => exact le_rfl

/-- A value clamped to the upper end of the range has at most `W - 1` binary digits (00_scope.md R5). -/
theorem bitlen_clamp_le (p : Params) (c : Ext ℤ) : bitlen (c.clamp 0 p.hi).toNat ≤ p.w.bits - 1 := by
  have hhi : p.hi = ((2 ^ (p.w.bits - 1) : ℕ) : ℤ) - 1 := by rw [Params.hi]; push_cast; rfl
  have hpos : 0 < 2 ^ (p.w.bits - 1) := by positivity
  have hle := clamp_le c (lo := 0) (hi := p.hi) (by omega)
  rw [← lt_two_pow_iff_bitlen_le]
  omega

/-- A final width is at most `W` (41_bit_width_estimator.md R114). -/
theorem estFinal_le {p : Params} {scale m : Word} {F : Fmt} {b : ℕ × Bool} (h : estFinal p scale m F = .ok b) :
    b.1 ≤ p.w.bits := by
  have hw : 1 ≤ p.w.bits := by cases p.w <;> decide
  simp only [estFinal] at h
  split at h
  · cases h
  · cases h
    have := bitlen_clamp_le p (scaledMax scale F (Fmt.D.convert F m))
    simp only [bitWidth]
    omega

theorem zero_isNumber : Fmt.D.neg 0 = false ∧ Fmt.D.isNaN 0 = false := by decide

/-- The maximum stays a number with the sign 0 (10_state.md R33). -/
theorem accumulate_isNumber {m m' x : Word} {F : Fmt} (h : accumulate m F x = .ok m')
    (hneg : Fmt.D.neg m = false) (hnan : Fmt.D.isNaN m = false) :
    Fmt.D.neg m' = false ∧ Fmt.D.isNaN m' = false := by
  simp only [accumulate] at h
  split at h
  · cases h
  · rename_i hx
    have hx := Bool.eq_false_iff.mpr hx
    cases h
    split
    · exact ⟨neg_widen_abs F hx, isNaN_widen F (by rw [isNaN_abs, hx])⟩
    · exact ⟨hneg, hnan⟩

/-! Every move keeps the invariant -/

section

variable {s u : State} {i : Instr}

/-- The invariant says nothing of the turns to come. -/
theorem inv_agenda (h : s.Inv) (ts : List Turn) : ({ s with agenda := ts } : State).Inv := { h with }

/-- The reset values meet the invariant (70_reset_and_hazards.md R230). -/
theorem inv_resetCore (h : s.params.wf) : s.resetCore.Inv where
  params_wf := h
  buf_wf := wf_nil _
  no_err_while_busy _ := rfl
  no_cause _ := rfl
  cause_is_code h := by simp at h
  precision := .inl ⟨rfl, rfl⟩
  width_le := by simp [State.width]
  maxabs_sign := zero_isNumber.1
  maxabs_number := zero_isNumber.2

theorem inv_takeFault (h : s.Inv) (c : Cause) : (s.takeFault c).Inv :=
  { h with
    no_err_while_busy := fun hb => by simp at hb
    no_cause := fun he => by simp at he
    cause_is_code := fun _ => ⟨c, rfl⟩ }

theorem inv_finish (h : s.Inv) : s.finish.Inv := { h with no_err_while_busy := fun hb => by simp at hb }

theorem width_ofNat_le {n : ℕ} (h : n ≤ 64) : (BitVec.ofNat 7 n).toNat ≤ 64 := by
  rw [BitVec.toNat_ofNat]; exact (Nat.mod_le _ _).trans h

/-- A command that completes keeps the invariant: each one writes values of its registers' ranges. -/
theorem Completes.keeps_inv (h : Completes s i u) (hs : s.Inv) : u.Inv := by
  cases h with
  | setprec h => exact { hs with precision := .inr ⟨_, h, rfl⟩ }
  | estClr => exact { hs with maxabs_sign := zero_isNumber.1, maxabs_number := zero_isNumber.2 }
  | estAcc F h =>
    obtain ⟨hsign, hnum⟩ := accumulate_isNumber h hs.maxabs_sign hs.maxabs_number
    exact { hs with maxabs_sign := hsign, maxabs_number := hnum }
  | estFin F h =>
    have hw : s.params.w.bits ≤ 64 := by cases s.params.w <;> decide
    exact { hs with width_le := width_ofNat_le ((estFinal_le h).trans hw) }
  | setbw h => exact { hs with width_le := width_ofNat_le h }
  | bufclr => exact { hs with buf_wf := zero_wf _ }
  | pack h =>
    rw [setField_frame]
    exact { hs with buf_wf := setField_wf _ hs.buf_wf h }
  | _ => exact { hs with }

theorem inv_ackStatus (h : s.Inv) (v : Word) : (s.ackStatus v).Inv := by
  rw [ackStatus_eq]
  cases v.getLsbD 1 with
  | true =>
    exact { h with
      no_err_while_busy := fun _ => by simp
      no_cause := fun _ => by simp
      cause_is_code := fun he => by simp at he }
  | false => simpa using { h with }

theorem inv_writeReg (h : s.Inv) (v : Word) (r : Reg) : (s.writeReg v r).Inv := by
  rcases writeReg_cases s v r with e | ⟨he, e⟩ | e | e <;> rw [e]
  · exact h
  · exact { h with no_err_while_busy := fun _ => he }
  · exact { h with }
  · exact inv_ackStatus h v

theorem inv_hostStep (h : s.Inv) (x : HostTxn) : (s.hostStep x).Inv := by
  rcases hostStep_cases s x with e | ⟨-, e⟩ | ⟨v, e⟩ | ⟨n, e⟩ | ⟨-, e⟩ | ⟨-, v, r, e⟩ | ⟨-, a, v, n, hn, e⟩ <;> rw [e]
  · exact h
  · exact inv_resetCore h.params_wf
  · exact { h with }
  · exact { h with }
  · exact { h with }
  · exact inv_writeReg h v r
  · rw [memWrite_frame]
    exact { h with buf_wf := memWrite_wf v h.buf_wf hn }

theorem inv_coreStep (h : s.Inv) (hu : coreStep s = .next u) : u.Inv := by
  rcases coreStep_completes hu with ⟨-, rfl⟩ | ⟨-, i, u, -, hc, rfl⟩ | ⟨-, c, rfl⟩
  · exact h
  · exact inv_finish (hc.keeps_inv h)
  · exact inv_takeFault h c

end

/-- Settles O9: the state after reset has the reset values. -/
theorem resetMeetsTheInvariant : Obligations.ResetMeetsTheInvariant :=
  { inv_resetCore (s := State.reset) (by decide) with }

/-- Settles O10: a step is the CORE's or the HOST's, and each keeps the invariant. -/
theorem everyStepKeepsTheInvariant : Obligations.EveryStepKeepsTheInvariant := by
  intro s t hs h
  obtain ⟨ts, h | ⟨x, -, rfl⟩⟩ := step_agents h
  · exact inv_coreStep (inv_agenda hs ts) h
  · exact inv_hostStep (inv_agenda hs ts) x

end Sys2Proof.Proofs
end

section
/-! PROOFS. The HOST's register writes while BUSY is 0 (10_state.md R23, R30, R41, R42), the CORE's turn (R23),
the range of SCALE (R32), and the layouts of STATUS and PARAMS (R24, R37). -/

namespace Sys2Proof.Proofs

open Sys2Proof Sys2Proof.Machine Sys2Proof.Laws

/-! The HOST's writes, by register -/

section

variable {s : State} {off : ℕ} {n : AccessSize}

/-- Only an aligned access of 8 bytes at a register's offset is to that register (20_memory.md R55). -/
theorem place_register {r : Reg} (h : s.place off n = .register r) : off = r.offset ∧ n = .eight := by
  simp only [State.place] at h
  split_ifs at h with _ _ _ hn
  · cases hr : regAt off with
    | some r' =>
      rw [hr] at h
      cases h
      exact ⟨regAt_eq_some.mp hr, hn⟩
    | none => rw [hr] at h; cases h
  · cases hr : regAt off <;> rw [hr] at h <;> cases h

theorem hostStep_write_offset (hb : s.busy = false) (r : Reg) (v : Word) :
    s.hostStep (.write r.offset v) = s.writeReg v r := by
  rw [State.hostStep, place_offset, State.writePlace, hb, if_neg Bool.false_ne_true]

/-- Below 0x1000 only CMD, OPA and STATUS take a write (10_state.md R41, R42). -/
theorem hostStep_write_below (hb : s.busy = false) (v : Word) (h : off < 0x1000)
    (hcmd : off ≠ 0x000) (hopa : off ≠ 0x008) (hstatus : off ≠ 0x018) : s.hostStep (.write off v) = s := by
  by_cases ha : off % 8 = 0
  · by_cases hr : ∃ r : Reg, off = r.offset
    · obtain ⟨r, rfl⟩ := hr
      rw [hostStep_write_offset hb]
      cases r with
      | cmd => exact absurd rfl hcmd
      | opa => exact absurd rfl hopa
      | status => exact absurd rfl hstatus
      | _ => rfl
    · rw [State.hostStep, place_reserved s h ha (not_exists.mp hr), State.writePlace, hb, if_neg Bool.false_ne_true]
  · rw [State.hostStep]
    rcases place_irregular s (n := .eight) (.inl ha) with e | e | e <;> rw [e] <;> rfl

end

/-- Settles O46: a write at offset 0 is the CMD write. -/
theorem cmdWriteLatchesTheCommand : Obligations.CmdWriteLatchesTheCommand := by
  intro s v hb
  have hw : s.hostStep (.write 0x000 v) = s.writeCmd v := hostStep_write_offset hb .cmd v
  rw [hw, State.writeCmd]
  exact ⟨fun he => if_neg (by simp [he]), fun he => if_pos he⟩

/-- Settles O48: a write at offset 0x018 acknowledges the flags its bits name. -/
theorem statusWriteOneToClear : Obligations.StatusWriteOneToClear :=
  fun s v hb => (hostStep_write_offset hb .status v).trans (ackStatus_eq s v)

/-- Settles O49: a write at offset 8 is the OPA write, and elsewhere the place takes none. -/
theorem otherRegisterWrites : Obligations.OtherRegisterWrites := by
  intro s v hb
  refine ⟨hostStep_write_offset hb .opa v, fun off h => hostStep_write_below hb v h, fun off h => ?_⟩
  rw [State.hostStep, place_outside s .eight h, State.writePlace]

/-- Settles O4: on each of the CORE's turns the step is the CORE's. -/
theorem stepRunsTheDecodedCommand : Obligations.StepRunsTheDecodedCommand := by
  intro s i hb hi
  refine ⟨fun ha => ?_, fun ts ha => ?_, fun ts ha => ?_⟩
  · rw [step, ha]
    exact coreStep_of_decode hb hi
  · rw [step, ha]
    exact coreStep_of_decode (s := { s with agenda := ts }) hb hi
  · rw [step, ha]
    simp only [hb, if_true]
    exact coreStep_of_decode hb hi

/-- Settles O18: the last two checks of `DeriveScale` leave no other integer. -/
theorem derivedScaleIsInRange : Obligations.DerivedScaleIsInRange := by
  intro mode s n h
  obtain ⟨x, r, -, -, -, -, hn⟩ := deriveScale_ok h
  exact hn

/-! The layouts of STATUS and PARAMS (R24, R37) -/

/-- A field of a word, bit by bit. -/
theorem extractLsb'_eq {v : Word} {start w : ℕ} {x : BitVec w}
    (h : ∀ j < w, v.getLsbD (start + j) = x.getLsbD j) : v.extractLsb' start w = x := by
  apply BitVec.eq_of_getLsbD_eq
  intro j hj
  rw [BitVec.getLsbD_extractLsb', h j hj]
  simp [hj]

/-- Settles O47: `getLsbD_statusWord` at each field. -/
theorem statusLayout : Obligations.StatusLayout := by
  intro s
  have hb := getLsbD_statusWord s
  refine ⟨hb 0, hb 1, hb 2, hb 3, extractLsb'_eq fun j hj => ?_, fun j hj => ?_⟩
  · rw [hb, if_neg (by omega), if_neg (by omega), if_neg (by omega), if_neg (by omega)]
    simp
  · rw [hb, if_neg (by omega), if_neg (by omega), if_neg (by omega), if_neg (by omega)]
    rcases hj with hj | hj
    · rw [decide_eq_false (by omega), Bool.false_and]
    · rw [BitVec.getLsbD_of_ge s.cause _ (by omega), Bool.and_false]

/-- Settles O55: `getLsbD_paramsWord` at each field. -/
theorem paramsLayout : Obligations.ParamsLayout := by
  intro s hp
  have hb := getLsbD_paramsWord s
  have hbytes : s.paramsWord.extractLsb' 0 32 = BitVec.ofNat 32 s.params.bufBytes :=
    extractLsb'_eq fun j hj => by rw [hb, if_pos (by omega), Nat.zero_add]
  have hw : s.paramsWord.extractLsb' 32 8 = BitVec.ofNat 8 s.params.w.bits :=
    extractLsb'_eq fun j hj => by rw [hb, if_neg (by omega), if_pos (by omega), Nat.add_sub_cancel_left]
  have hz : s.paramsWord.extractLsb' 41 15 = 0 := extractLsb'_eq fun j hj => by
    rw [hb, if_neg (by omega), if_neg (by omega), if_neg (by omega), decide_eq_false (by omega)]
    simp
  have hv : s.paramsWord.extractLsb' 56 8 = BitVec.ofNat 8 Config.version := extractLsb'_eq fun j hj => by
    rw [hb, if_neg (by omega), if_neg (by omega), if_neg (by omega), decide_eq_true (by omega), Bool.true_and,
      Nat.add_sub_cancel_left]
  refine ⟨?_, ?_, ?_, hz, ?_⟩
  · rw [hbytes, BitVec.toNat_ofNat, Nat.mod_eq_of_lt hp.2]
  · rw [hw]
    cases s.params.w <;> rfl
  · rw [hb]
    cases s.params.roundMode <;> rfl
  · rw [hv]; rfl

end Sys2Proof.Proofs
end

section
/-! PROOFS. Which step touches ERR, SAT, OVRN and RESULT (10_state.md R22, R26, R28 to R30). -/

namespace Sys2Proof.Proofs

open Sys2Proof Sys2Proof.Machine Sys2Proof.Laws

/-! Which transaction of the HOST touches a flag -/

/-- ERR with CAUSE, SAT, OVRN and RESULT are as they were. -/
structure KeepsFlags (s t : State) : Prop where
  err : t.err = s.err
  cause : t.cause = s.cause
  sat : t.sat = s.sat
  ovrn : t.ovrn = s.ovrn
  result : t.result = s.result

theorem readPlace_keepsFlags (s : State) (x : HostTxn) (n : ℕ) (p : Place) : KeepsFlags s (s.readPlace x n p) := by
  cases p with
  | register r => simp only [State.readPlace]; split <;> constructor <;> rfl
  | buffer i => simp only [State.readPlace]; split <;> constructor <;> rfl
  | _ => constructor <;> rfl

/-- A write that is not to STATUS touches no flag while BUSY is 0 (10_state.md R23, R30, R41). -/
theorem writeReg_keepsFlags (s : State) (v : Word) {r : Reg} (hr : r ≠ .status) : KeepsFlags s (s.writeReg v r) := by
  cases r with
  | status => exact absurd rfl hr
  | cmd => simp only [State.writeReg, State.writeCmd]; split <;> constructor <;> rfl
  | _ => constructor <;> rfl

/-- A write touches a flag by an overrun while BUSY is 1, or at STATUS while it is 0 (10_state.md R29, R30). -/
theorem writePlace_flags (s : State) (n : ℕ) (v : Word) (p : Place) :
    KeepsFlags s (s.writePlace n v p) ∨
    (s.busy = true ∧ s.writePlace n v p = s.noteOverrun) ∨
    (s.busy = false ∧ p = .register .status ∧ s.writePlace n v p = s.ackStatus v) := by
  cases hb : s.busy with
  | true =>
    cases p with
    | register | reserved | buffer => exact .inr (.inl ⟨rfl, by rw [State.writePlace, if_pos hb]⟩)
    | _ => exact .inl (by constructor <;> rfl)
  | false =>
    cases p with
    | register r =>
      rw [State.writePlace, hb, if_neg Bool.false_ne_true]
      by_cases hr : r = .status
      · subst hr; exact .inr (.inr ⟨rfl, rfl, rfl⟩)
      · exact .inl (writeReg_keepsFlags s v hr)
    | buffer i =>
      rw [State.writePlace, hb, if_neg Bool.false_ne_true]
      exact .inl (by constructor <;> simp)
    | reserved =>
      rw [State.writePlace, hb, if_neg Bool.false_ne_true]
      exact .inl (by constructor <;> rfl)
    | _ => exact .inl (by constructor <;> rfl)

/-- The writes among the transactions (00_scope.md R17, 20_memory.md R55). -/
def IsWrite (x : HostTxn) : Prop :=
  (∃ off v, x = .write off v) ∨ (∃ i b, x = .bufWrite i b) ∨ (∃ off n v, x = .busWrite off n v)

/-- A write of `v` to STATUS (20_memory.md R54, R55). -/
def WritesStatus (v : Word) (x : HostTxn) : Prop := x = .write 0x018 v ∨ x = .busWrite 0x018 .eight v

/-- A transaction touches a flag by Reset, by an overrun, or by a STATUS write. -/
theorem hostStep_flags (s : State) (x : HostTxn) :
    KeepsFlags s (s.hostStep x) ∨
    (x = .reset ∧ s.hostStep x = s.resetCore) ∨
    (s.busy = true ∧ IsWrite x ∧ s.hostStep x = s.noteOverrun) ∨
    (s.busy = false ∧ ∃ v, WritesStatus v x ∧ s.hostStep x = s.ackStatus v) := by
  cases x with
  | reset => exact .inr (.inl ⟨rfl, rfl⟩)
  | read | bufRead | busRead => exact .inl (readPlace_keepsFlags s _ _ _)
  | write off v =>
    rcases writePlace_flags s 8 v (s.place off .eight) with h | ⟨hb, h⟩ | ⟨hb, hp, h⟩
    · exact .inl h
    · exact .inr (.inr (.inl ⟨hb, .inl ⟨off, v, rfl⟩, h⟩))
    · obtain ⟨rfl, -⟩ := place_register hp
      exact .inr (.inr (.inr ⟨hb, v, .inl rfl, h⟩))
  | bufWrite i b =>
    rcases writePlace_flags s 1 (b.setWidth 64) (s.bytePlace i) with h | ⟨hb, h⟩ | ⟨-, hp, -⟩
    · exact .inl h
    · exact .inr (.inr (.inl ⟨hb, .inr (.inl ⟨i, b, rfl⟩), h⟩))
    · simp only [State.bytePlace] at hp
      split at hp <;> cases hp
  | busWrite off n v =>
    rcases writePlace_flags s n.bytes v (s.place off n) with h | ⟨hb, h⟩ | ⟨hb, hp, h⟩
    · exact .inl h
    · exact .inr (.inr (.inl ⟨hb, .inr (.inr ⟨off, n, v, rfl⟩), h⟩))
    · obtain ⟨rfl, rfl⟩ := place_register hp
      exact .inr (.inr (.inr ⟨hb, v, .inr rfl, h⟩))

/-! A flag that keeps its value is neither set nor cleared -/

theorem not_set {a b : Bool} {p : Prop} (h : b = a) (ha : a = false) (hb : b = true) : p := by
  rw [h, ha] at hb
  exact absurd hb Bool.false_ne_true

theorem not_cleared {a b : Bool} {p : Prop} (h : b = a) (ha : a = true) (hb : b = false) : p :=
  not_set h.symm hb ha

/-- A flag that a STATUS write clears is one whose bit is set (10_state.md R30). -/
theorem bit_of_cleared {a b : Bool} (ha : a = true) (h : (a && !b) = false) : b = true := by simpa [ha] using h

/-- Settles O12: by the CORE's step, which idles, completes a command or takes a fault, and by the HOST's, which
keeps the flags, resets, overruns or writes STATUS. -/
theorem flagsChangeOnlyByTheirRules : Obligations.FlagsChangeOnlyByTheirRules := by
  intro s t cleared hc h
  obtain ⟨ts, h | ⟨x, hx, rfl⟩⟩ := step_agents h
  · rcases coreStep_completes h with ⟨-, rfl⟩ | ⟨hb, i, u, hi, hu, rfl⟩ | ⟨hb, c, rfl⟩
    · -- the CORE idles
      exact ⟨not_set rfl, not_cleared rfl, not_set rfl, not_cleared rfl, not_set rfl, not_cleared rfl,
        fun hr => absurd rfl hr⟩
    · -- the command completes
      have he := hu.effect
      refine ⟨not_set he.err, not_cleared he.err, fun h0 h1 => ⟨hb, rfl, he.err, i, ?_, hi⟩,
        fun h1 => not_cleared (a := true) (hu.sat_mono h1) rfl, not_set he.ovrn, not_cleared he.ovrn,
        fun hr => .inr ⟨hb, he.err, i, ?_, hi⟩⟩
      · by_contra hn
        exact not_set (hu.sat_eq hn) h0 h1
      · by_contra hn
        exact hr (hu.result_eq hn)
    · -- the command faults
      exact ⟨fun _ _ => ⟨hb, rfl, c, rfl⟩, fun _ => not_cleared (a := true) rfl rfl, not_set rfl,
        not_cleared rfl, not_set rfl, not_cleared rfl, fun hr => absurd rfl hr⟩
  · rcases hostStep_flags { s with agenda := ts } x with h | ⟨rfl, h⟩ | ⟨hb, hw, h⟩ | ⟨hb, v, hw, h⟩
    · -- the transaction keeps the flags
      exact ⟨not_set h.err, not_cleared h.err, not_set h.sat, not_cleared h.sat, not_set h.ovrn,
        not_cleared h.ovrn, fun hr => absurd h.result hr⟩
    · -- Reset
      have ha := hx.resolve_right nofun
      have hcl : ∀ j, cleared j := fun j => (hc j).mpr (.inl ⟨ts, ha⟩)
      rw [h]
      exact ⟨fun _ => nofun, fun _ _ => ⟨hcl 1, rfl⟩, fun _ => nofun, fun _ _ => hcl 2, fun _ => nofun,
        fun _ _ => hcl 3, fun _ => .inl ⟨ts, ha⟩⟩
    · -- an overrun
      have ha := hx.resolve_right (by rintro rfl; simp [IsWrite] at hw)
      rw [h]
      refine ⟨not_set rfl, not_cleared rfl, not_set rfl, not_cleared rfl, fun _ _ => ⟨hb, ts, ?_⟩,
        fun _ => nofun, fun hr => absurd rfl hr⟩
      simpa [IsWrite, ha] using hw
    · -- a STATUS write
      have ha := hx.resolve_right (by rintro rfl; simp [WritesStatus] at hw)
      have hcl : ∀ j, v.getLsbD j = true → cleared j := fun j hj => by
        refine (hc j).mpr (.inr ⟨hb, v, ts, hj, ?_⟩)
        rcases hw with rfl | rfl
        · exact .inl ha
        · exact .inr ha
      rw [h, ackStatus_eq]
      exact ⟨fun h0 => by simp [h0], fun h1 hv => ⟨hcl 1 (bit_of_cleared h1 hv), if_pos (bit_of_cleared h1 hv)⟩,
        fun h0 => by simp [h0], fun h1 hv => hcl 2 (bit_of_cleared h1 hv),
        fun h0 => by simp [h0], fun h1 hv => hcl 3 (bit_of_cleared h1 hv), fun hr => absurd rfl hr⟩

end Sys2Proof.Proofs
end

section
/-! PROOFS. No command reads OPA, a flag, ERR or CAUSE (10_state.md R21, R40). -/

namespace Sys2Proof.Proofs

open Sys2Proof Sys2Proof.Machine Sys2Proof.Laws

/-- The registers that no command reads. -/
structure Unread where
  opa : Word
  sat : Bool
  ovrn : Bool
  err : Bool
  cause : BitVec 4

/-- The state with the registers that no command reads replaced. -/
def withUnread (s : State) (f : Unread) : State :=
  { s with opa := f.opa, sat := f.sat, ovrn := f.ovrn, err := f.err, cause := f.cause }

/-- The results of one command at `s` and at `withUnread s f`: the same fault, or the same effect, which adds the
same clamp bit `b` to SAT and leaves the rest of what is replaced as it is. -/
inductive SameResult (s : State) (f : Unread) : Except Cause State → Except Cause State → Prop
  | fault (c : Cause) : SameResult s f (.error c) (.error c)
  | effect {u : State} (b : Bool) (herr : u.err = s.err) (hcause : u.cause = s.cause) (hsat : u.sat = (s.sat || b)) :
      SameResult s f (.ok u) (.ok (withUnread u { f with sat := f.sat || b }))

/-- An effect that leaves SAT alone. -/
theorem SameResult.unclamped {s u : State} {f : Unread} (herr : u.err = s.err) (hcause : u.cause = s.cause)
    (hsat : u.sat = s.sat) : SameResult s f (.ok u) (.ok (withUnread u f)) := by
  have h := SameResult.effect (f := f) (s := s) (u := u) false herr hcause (by rw [hsat, Bool.or_false])
  rwa [Bool.or_false] at h

/-- A computation that does not see what is replaced. -/
theorem SameResult.map {α : Type} {s : State} {f : Unread} {g g' : α → State} {r : Except Cause α}
    (h : ∀ a, SameResult s f (.ok (g a)) (.ok (g' a))) : SameResult s f (r.map g) (r.map g') := by
  cases r with
  | ok a => exact h a
  | error c => exact .fault c

/-- A field write does not see what is replaced: it reads BUF only. -/
theorem setField_withUnread (s : State) (f : Unread) (c fld n : ℕ) :
    (withUnread s f).setField c fld n = withUnread (s.setField c fld n) f := by
  induction n with
  | zero => rfl
  | succ n ih =>
    simp only [State.setField]
    split
    · rw [ih]; rfl
    · exact ih

/-- A field read does not see what is replaced. -/
theorem field_withUnread (s : State) (f : Unread) (c n : ℕ) : (withUnread s f).field c n = s.field c n := by
  induction n with
  | zero => rfl
  | succ n ih => rw [State.field, ih]; rfl

/-- Every command does the same with what it does not read replaced. -/
theorem exec_withUnread (i : Instr) (s : State) (f : Unread) :
    ∃ r r', exec i s = s.commit r ∧ exec i (withUnread s f) = (withUnread s f).commit r' ∧ SameResult s f r r' := by
  cases i with
  | setprec | dequantS | dequantD | estAccS | estAccD =>
    exact ⟨_, _, rfl, rfl, .map fun _ => .unclamped rfl rfl rfl⟩
  | quantS | quantD | estFinS | estFinD => exact ⟨_, _, rfl, rfl, .map fun a => .effect a.2 rfl rfl rfl⟩
  | estClr | bufclr | setwcur | setrcur =>
    simp only [exec, execEstClr, execBufclr, execSetwcur, execSetrcur]
    refine ⟨_, _, rfl, rfl, ?_⟩
    exact .unclamped rfl rfl rfl
  | setbw =>
    refine ⟨_, _, rfl, rfl, ?_⟩
    change SameResult s f _ (if s.u64 < 1 ∨ 64 < s.u64 then _ else _)
    split
    · exact .fault _
    · exact .unclamped rfl rfl rfl
  | pack =>
    refine ⟨_, _, rfl, rfl, ?_⟩
    rw [setField_withUnread]
    change SameResult s f _ (if s.width = 0 then _ else if s.bitSpace < s.wpos + s.width then _ else _)
    split_ifs
    · exact .fault _
    · exact .fault _
    · exact .unclamped (by simp) (by simp) (by simp)
  | unpack =>
    refine ⟨_, _, rfl, rfl, ?_⟩
    rw [field_withUnread]
    change SameResult s f _ (if s.width = 0 then _ else if s.bitSpace < s.rpos + s.width then _ else _)
    split_ifs
    · exact .fault _
    · exact .fault _
    · exact .unclamped rfl rfl rfl

/-- Settles O43: both runs take the same fault, or commit the same effect. -/
theorem commandsReadNoFlagAndNotOpa : Obligations.CommandsReadNoFlagAndNotOpa := by
  intro i s t a sat ovrn err cause h
  obtain ⟨r, r', hr, hr', hsame⟩ := exec_withUnread i s ⟨a, sat, ovrn, err, cause⟩
  rw [hr] at h
  change ∃ t', exec i (withUnread s ⟨a, sat, ovrn, err, cause⟩) = .next t' ∧ _
  rw [hr']
  cases hsame with
  | fault c =>
    cases h
    exact ⟨_, rfl, rfl, rfl, rfl, fun hs => by simp [hs, withUnread], .inr ⟨rfl, rfl, rfl⟩⟩
  | effect b herr hcause hsat =>
    cases h
    exact ⟨_, rfl, rfl, rfl, rfl, fun hs => by simp [hsat, hs, withUnread], .inl ⟨herr, hcause, rfl, rfl⟩⟩

end Sys2Proof.Proofs
end

section
/-! PROOFS. Unit accesses to BUF (20_memory.md R53, R55, R57), the turns of a step (R60), the reads of the HOST (R54, R59)
and its writes without effect (R56). -/

namespace Sys2Proof.Proofs

open Sys2Proof Sys2Proof.Machine Sys2Proof.Laws

/-! Unit accesses to BUF (R53, R55, R57) -/

/-- No unit is wider than a word (20_memory.md R55). -/
theorem bytes_le_eight (n : AccessSize) : n.bytes ≤ 8 := by cases n <;> decide

section

variable {s : State} {a : ℕ} {n : AccessSize}

theorem hostStep_busRead_inside (hb : s.busy = false) (ha : a % n.bytes = 0) (hn : a + n.bytes ≤ s.params.bufBytes) :
    s.hostStep (.busRead (0x1000 + a) n) =
      s.observe (.busRead (0x1000 + a) n) (BitVec.ofNat 64 (s.memRead a n.bytes)) := by
  rw [State.hostStep, place_inside s ha hn, State.readPlace, hb, if_neg Bool.false_ne_true]

theorem hostStep_busWrite_inside (hb : s.busy = false) (v : Word) (ha : a % n.bytes = 0)
    (hn : a + n.bytes ≤ s.params.bufBytes) : s.hostStep (.busWrite (0x1000 + a) n v) = s.memWrite a v n.bytes := by
  rw [State.hostStep, place_inside s ha hn, State.writePlace, hb, if_neg Bool.false_ne_true]

end

/-- The bits of the word that a read of a unit returns: those of its bytes, the lowest offset in the least significant
bits (20_memory.md R57). -/
theorem getLsbD_ofNat_memRead (s : State) (a : ℕ) (n : AccessSize) (j : ℕ) :
    (BitVec.ofNat 64 (s.memRead a n.bytes)).getLsbD j =
      (decide (j < 8 * n.bytes) && (s.bufByte (a + j / 8)).getLsbD (j % 8)) := by
  rw [BitVec.getLsbD_ofNat, testBit_memRead]
  by_cases hj : j < 8 * n.bytes
  · have h64 : j < 64 := by have := bytes_le_eight n; omega
    rw [decide_eq_true h64, Bool.true_and]
  · rw [decide_eq_false hj, Bool.false_and, Bool.and_false]

/-- Settles O56: the access is a multi-byte read or write of BUF, and `getLsbD_ofNat_memRead`, `memWrite_frame` and
`bufByte_memWrite` say what these move. -/
theorem bufferWindowIsLittleEndian : Obligations.BufferWindowIsLittleEndian := by
  intro s a n v hb ha hn
  refine ⟨⟨_, hostStep_busRead_inside hb ha hn, getLsbD_ofNat_memRead s a n⟩,
    _, hostStep_busWrite_inside hb v ha hn, ?_, bufByte_memWrite s a v n.bytes⟩
  rw [memWrite_frame]

/-! The turns of a step (R60) -/

section

variable {s : State} {ts : List Turn}

/-- With no command pending the CORE holds its state (60_exceptions.md R217). -/
theorem coreStep_idle (hb : s.busy = false) : coreStep s = .next s := by
  rw [coreStep, hb, if_neg Bool.false_ne_true]

theorem step_host {t : HostTxn} (ha : s.agenda = .host t :: ts) :
    step s = .next (State.hostStep { s with agenda := ts } t) := by
  rw [step, ha]

/-- A poll that finds BUSY = 1 leaves one poll less to make (30_encoding.md R80). -/
theorem step_wait_busy {k : ℕ} (ha : s.agenda = .wait (k + 1) :: ts) (hb : s.busy = true) :
    step s = .next (pollStatus { s with agenda := .wait k :: ts }) := by
  rw [step, ha]
  exact if_pos hb

/-- A poll that finds BUSY = 0 ends the `wait` (30_encoding.md R80). -/
theorem step_wait_idle {k : ℕ} (ha : s.agenda = .wait k :: ts) (hb : s.busy = false) :
    step s = .next (pollStatus { s with agenda := ts }) := by
  rw [step, ha]
  exact if_neg (Bool.eq_false_iff.mp hb)

theorem step_core (ha : s.agenda = .core :: ts) : step s = coreStep { s with agenda := ts } := by
  rw [step, ha]

theorem step_nil (ha : s.agenda = []) : step s = coreStep s := by
  rw [step, ha]

end

/-- Settles O5: one lemma per turn, and the idle core at the CORE's turns. -/
theorem turnsInterleaveTheAgents : Obligations.TurnsInterleaveTheAgents := fun _ _ =>
  ⟨fun _ => step_host, fun _ => step_wait_busy, fun _ => step_wait_idle,
    fun ha hb => (step_core ha).trans (coreStep_idle hb), fun ha hb => (step_nil ha).trans (coreStep_idle hb)⟩

/-! Reads (R54, R59) -/

/-- A read adds its observation and may draw a free value (20_memory.md R59). -/
theorem readPlace_records (s : State) (x : HostTxn) (n : ℕ) (p : Place) :
    ∃ v k, s.readPlace x n p = { s with observed := { txn := x, value := v } :: s.observed, fresh := k } := by
  cases p with
  | register r => rw [State.readPlace]; split <;> exact ⟨_, _, rfl⟩
  | buffer i => rw [State.readPlace]; split <;> exact ⟨_, _, rfl⟩
  | reserved | vacant | outside | irregular => exact ⟨_, _, rfl⟩

/-- While BUSY is 0 a register reads what it holds (20_memory.md R54, R59). -/
theorem hostStep_read_offset {s : State} (hb : s.busy = false) (r : Reg) :
    s.hostStep (.read r.offset) = s.observe (.read r.offset) (s.readReg r) := by
  rw [State.hostStep, place_offset, State.readPlace, hb, Bool.false_and, if_neg Bool.false_ne_true]

/-- Settles O52: each form of read is a read of the place it falls on. -/
theorem readsHaveNoSideEffect : Obligations.ReadsHaveNoSideEffect := by
  intro s t ht
  have hread : ∃ n p, s.hostStep t = s.readPlace t n p := by
    rcases ht with ⟨off, rfl⟩ | ⟨i, rfl⟩ | ⟨off, n, rfl⟩ <;> exact ⟨_, _, rfl⟩
  obtain ⟨n, p, hp⟩ := hread
  obtain ⟨v, k, hv⟩ := readPlace_records s t n p
  rw [hp, hv]
  exact ⟨rfl, v, rfl⟩

/-- Settles O53: the rows of the statement are the registers, each with its offset and what it holds. -/
theorem registersReadAtTheirOffsets : Obligations.RegistersReadAtTheirOffsets := by
  intro s hb off v h
  change (off, v) ∈ [Reg.cmd, .opa, .result, .status, .step, .scale, .bw, .maxabs, .wcur, .rcur, .params].map
    (fun r => (r.offset, s.readReg r)) at h
  obtain ⟨r, -, hr⟩ := List.mem_map.mp h
  cases hr
  exact hostStep_read_offset hb r

/-! Writes without effect (R56) -/

/-- Settles O58: such an access is irregular, vacant or outside, where a write leaves the state as it is; a register
transaction is the access of 8 bytes. -/
theorem irregularWritesHaveNoEffect : Obligations.IrregularWritesHaveNoEffect := by
  intro s off n v h
  have hw : s.hostStep (.busWrite off n v) = s := by
    rw [State.hostStep]
    rcases place_irregular s (h.imp_right (Or.imp_right And.right)) with e | e | e <;> rw [e, State.writePlace]
  refine ⟨hw, ?_⟩
  rintro rfl
  exact hw

end Sys2Proof.Proofs
end

section
/-! PROOFS. The command words and the decoder (30_encoding.md R71 to R76), and a pending word that is no command (R75). -/

namespace Sys2Proof.Proofs

open Sys2Proof Sys2Proof.Machine Sys2Proof.Laws

/-- A word decodes to a command exactly when it is the command's word (30_encoding.md R75). -/
theorem decode_eq_ok_iff {w : CmdWord} {i : Instr} : decode w = .ok i ↔ w = encode i :=
  ⟨eq_encode_of_decode, fun h => h ▸ decode_encode i⟩

/-- The fields of a command are legal (30_encoding.md R71, R74). -/
theorem fields_wf (i : Instr) : i.fields.wf = true := by cases i <;> decide

/-- The OPC values of the operations of version 1 (30_encoding.md R76). -/
def opcodes : List (BitVec 8) := [0x01, 0x02, 0x03, 0x10, 0x11, 0x12, 0x13, 0x20, 0x21, 0x22, 0x30, 0x31]

/-- Those of the operations with a D form (30_encoding.md R72). -/
def doubleOpcodes : List (BitVec 8) := [0x02, 0x03, 0x11, 0x12]

/-- The three conditions on the fields of a word (30_encoding.md R71, R72, R76). -/
theorem wf_iff (c : CmdFields) :
    c.wf = true ↔ c.rsv = 0 ∧ c.opc ∈ opcodes ∧ (c.f = 0 ∨ c.opc ∈ doubleOpcodes) := by
  simp only [CmdFields.wf, CmdFields.rsvOk, CmdFields.opcOk, CmdFields.fOk, opcodes, doubleOpcodes, Bool.and_eq_true,
    Bool.or_eq_true, beq_iff_eq, List.contains_iff_mem, and_assoc]

/-- Every operation has a row of the table with F = 0 (30_encoding.md R74). -/
theorem exists_row_of_mem_opcodes :
    ∀ o ∈ opcodes, ∃ r ∈ commandTable, r.2.fields = { opc := o, f := 0, rsv := 0 } := by decide

/-- Every operation with a D form has a row of the table with F = 1 (30_encoding.md R72, R74). -/
theorem exists_row_of_mem_doubleOpcodes :
    ∀ o ∈ doubleOpcodes, ∃ r ∈ commandTable, r.2.fields = { opc := o, f := 1, rsv := 0 } := by decide

/-- Legal fields are the fields of a command (30_encoding.md R74, R76). -/
theorem exists_fields_eq_of_wf {c : CmdFields} (h : c.wf = true) : ∃ i : Instr, i.fields = c := by
  obtain ⟨opc, f, rsv⟩ := c
  obtain ⟨rfl, hopc, hf⟩ := (wf_iff _).mp h
  rcases (by bv_omega : f = 0 ∨ f = 1) with rfl | rfl
  · obtain ⟨r, -, hr⟩ := exists_row_of_mem_opcodes opc hopc
    exact ⟨r.2, hr⟩
  · obtain ⟨r, -, hr⟩ := exists_row_of_mem_doubleOpcodes opc (hf.resolve_left (by simp))
    exact ⟨r.2, hr⟩

/-- A word is a command's word exactly when its fields are legal (30_encoding.md R75). -/
theorem exists_eq_encode_iff (w : CmdWord) : (∃ i, w = encode i) ↔ (CmdFields.ofWord w).wf = true := by
  constructor
  · rintro ⟨i, rfl⟩
    rw [ofWord_encode]
    exact fields_wf i
  · intro h
    obtain ⟨i, hi⟩ := exists_fields_eq_of_wf h
    exact ⟨i, by rw [encode, hi, toWord_ofWord]⟩

/-- Settles O2: decoding inverts encoding, and the legal fields are those of the commands. -/
theorem decodeAcceptsExactlyTheTable : Obligations.DecodeAcceptsExactlyTheTable :=
  ⟨fun _ _ => decode_eq_ok_iff, fun w => by simp only [decode_eq_ok_iff, exists_eq_encode_iff]⟩

/-- Settles O1: each word of the table is the encoding of its command. -/
theorem tableWordsDecode : Obligations.TableWordsDecode := by
  simp only [Obligations.TableWordsDecode, decode_eq_ok_iff]
  decide

/-! A word that is no command (R75) -/

section

variable {s : State}

/-- A `wait` without polls left is the CORE's turn while a command is pending (30_encoding.md R80). -/
theorem step_wait_zero {ts : List Turn} (ha : s.agenda = .wait 0 :: ts) (hb : s.busy = true) :
    step s = coreStep s := by
  rw [step, ha]
  exact if_pos hb

/-- The CORE takes ILLEGAL_COMMAND on a pending word that is no command's (30_encoding.md R75). -/
theorem coreStep_of_illegal (hb : s.busy = true) (hw : ∀ i, s.pending.word ≠ encode i) :
    coreStep s = .next (s.takeFault .illegalCommand) := by
  obtain ⟨t, ht⟩ := coreStep_next s
  rcases coreStep_cases ht with ⟨hidle, -⟩ | ⟨-, i, hi, -⟩ | ⟨-, -, rfl⟩
  · exact absurd (hidle.symm.trans hb) Bool.false_ne_true
  · exact absurd (eq_encode_of_decode hi) (hw i)
  · exact ht

end

/-- Settles O3: each of the three turns is the CORE's step, which takes the fault. -/
theorem illegalWordFaults : Obligations.IllegalWordFaults := fun s hb hw =>
  ⟨fun ha => (step_nil ha).trans (coreStep_of_illegal hb hw),
    fun ts ha => (step_core ha).trans (coreStep_of_illegal (s := { s with agenda := ts }) hb hw),
    fun _ ha => (step_wait_zero ha hb).trans (coreStep_of_illegal hb hw)⟩

end Sys2Proof.Proofs
end

section
/-! PROOFS. The operand literals of the assembler (30_encoding.md R79). -/

namespace Sys2Proof.Proofs

open Sys2Proof Sys2Proof.Machine Sys2Proof.Laws

/-- A hexadecimal literal is the pattern itself, for every reading of an operand. -/
theorem encode_hex {r : Reading} (v : Word) (hr : r ≠ .none) : (Literal.hex v).encode r = some v := by
  cases r with
  | none => exact absurd rfl hr
  | _ => rfl

/-- A hexadecimal literal has no other encoding. -/
theorem eq_of_encode_hex {r : Reading} {v w : Word} (h : (Literal.hex v).encode r = some w) : w = v := by
  cases r with
  | none => cases h
  | _ => cases h; rfl

theorem encode_dec_i64 (n : ℤ) :
    (Literal.dec n).encode .i64 = if -2 ^ 63 ≤ n ∧ n < 2 ^ 63 then some (bits64 n) else none := rfl

theorem encode_dec_u64 (n : ℤ) :
    (Literal.dec n).encode .u64 = if -2 ^ 63 ≤ n ∧ n < 2 ^ 64 then some (bits64 n) else none := rfl

/-- The sign and the rounded magnitude together stand for the rounded number. -/
theorem real_pattern_roundMag (F : Fmt) (neg : Bool) {q : ℚ} (hq : 0 ≤ q) :
    F.real (F.pattern neg (F.roundMag q)) = F.real (F.round (if neg then -q else q)) := by
  cases neg with
  | false => simp [Laws.round_eq, abs_of_nonneg hq, not_lt.mpr hq]
  | true =>
    rcases hq.eq_or_lt with rfl | hpos
    · -- negative zero stands for the number zero
      rw [roundMag_zero, real_pattern F true (infMag_pos F), neg_zero, ite_self, round_zero, real_zero]
      simp
    · simp [Laws.round_eq, abs_of_pos hpos, hpos]

theorem isNaN_pattern_roundMag (F : Fmt) (neg : Bool) (q : ℚ) : F.isNaN (F.pattern neg (F.roundMag q)) = false := by
  rw [Fmt.isNaN, mag_pattern F _ (roundMag_lt F _)]
  simpa using roundMag_le F q

theorem neg_pattern_roundMag (F : Fmt) (neg : Bool) (q : ℚ) : F.neg (F.pattern neg (F.roundMag q)) = neg :=
  neg_pattern F neg (roundMag_lt F q)

/-- A binary32 pattern has 32 bits. -/
theorem pattern_S_lt (neg : Bool) {m : ℕ} (h : m < 2 ^ 31) : (Fmt.S.pattern neg m).toNat < 2 ^ 32 := by
  rw [pattern_toNat _ _ h, show Fmt.S.signBit = 31 from rfl]
  split <;> omega

/-- No literal with `inf`, `nan` or a fraction is an integer, and a command without an operand takes none. -/
theorem encode_float_none {r : Reading} (hr : r ∈ ([.i64, .u64, .none] : List Reading)) (q : ℚ) (neg : Bool) :
    (Literal.float neg q).encode r = none ∧ (Literal.inf neg).encode r = none ∧ (Literal.nan neg).encode r = none := by
  simp only [List.mem_cons, List.not_mem_nil, or_false] at hr
  rcases hr with rfl | rfl | rfl <;> exact ⟨rfl, rfl, rfl⟩

/-- Settles O45: one lemma per kind of literal; the special values are evaluated. -/
theorem literalsEncodeAsTabled : Obligations.LiteralsEncodeAsTabled := by
  refine ⟨fun _ v hr => encode_hex v hr, fun n => ?_, fun q neg hq => ?_, by decide, rfl, rfl,
    fun q neg _ hr => encode_float_none hr q neg⟩
  · rw [encode_dec_i64, encode_dec_u64]
    exact ⟨fun h1 h2 => if_pos ⟨h1, h2⟩, fun h1 h2 => if_pos ⟨h1, h2⟩,
      fun h => ⟨if_neg (by omega), if_neg (by omega)⟩⟩
  · exact ⟨_, _, rfl, rfl, real_pattern_roundMag .D neg hq, neg_pattern_roundMag .D neg q,
      real_pattern_roundMag .S neg hq, neg_pattern_roundMag .S neg q, isNaN_pattern_roundMag .D neg q,
      isNaN_pattern_roundMag .S neg q, pattern_S_lt neg (roundMag_lt .S q)⟩

end Sys2Proof.Proofs
end

section
/-! PROOFS. What a command does not read: the HOST's side of a run and the bits of the operand outside its reading
(30_encoding.md R73); and the run of a command line (R81). -/

namespace Sys2Proof.Proofs

open Sys2Proof Sys2Proof.Machine Sys2Proof.Laws

/-! What a command does not read (R73) -/

/-- The operand, the turns to come and what the HOST has read: no command writes them. -/
structure Context where
  operand : Word
  agenda : List Turn
  observed : List Observation

/-- The context of a state. -/
def context (s : State) : Context := { operand := s.operand, agenda := s.agenda, observed := s.observed }

/-- The state with its context replaced. -/
def inContext (x : Context) (s : State) : State :=
  { s with pending := { s.pending with opa := x.operand }, agenda := x.agenda, observed := x.observed }

/-- What a reading takes of an operand (30_encoding.md R73). -/
def partRead : Reading → Word → Word
  | .f64, a | .i64, a | .u64, a => a
  | .f32, a => floatOperand .S a
  | .none, _ => 0

section

variable {s t : State} {i : Instr} (x : Context)

/-- A command keeps its context. -/
theorem exec_context (h : exec i s = .next t) : context t = context s := by
  rcases exec_cases h with ⟨u, he, rfl⟩ | ⟨c, rfl⟩
  · simp only [context, State.operand, finish_pending, finish_agenda, finish_observed, he.pending, he.agenda,
      he.observed]
  · rfl

theorem setField_inContext (c fld n : ℕ) :
    (inContext x s).setField c fld n = inContext x (s.setField c fld n) := by
  induction n with
  | zero => rfl
  | succ n ih =>
    simp only [State.setField]
    split
    · rw [ih]; rfl
    · exact ih

theorem field_inContext (c n : ℕ) : (inContext x s).field c n = s.field c n := by
  induction n with
  | zero => rfl
  | succ n ih => rw [State.field, ih]; rfl

/-- A commit ends a command in its context. -/
theorem commit_inContext {r : Except Cause State} (h : s.commit r = .next t) :
    (inContext x s).commit (r.map (inContext x)) = .next (inContext x t) := by
  cases r <;> cases h <;> rfl

/-- A commit of a computed value in another context. -/
theorem commit_map_inContext {α : Type} {r r' : Except Cause α} {f f' : α → State}
    (h : s.commit (r.map f) = .next t) (hr : r' = r) (hf : ∀ a, f' a = inContext x (f a)) :
    (inContext x s).commit (r'.map f') = .next (inContext x t) := by
  rw [← commit_inContext x h, hr]
  cases r with
  | ok a => exact congrArg (fun u => (inContext x s).commit (.ok u)) (hf a)
  | error c => rfl

/-- A command does the same in every context whose operand has the same part to read (30_encoding.md R73). -/
theorem exec_inContext (h : exec i s = .next t) (hx : partRead i.reading s.operand = partRead i.reading x.operand) :
    exec i (inContext x s) = .next (inContext x t) := by
  obtain ⟨a, ts, obs⟩ := x
  cases i with
  | setprec | quantD | dequantS | dequantD | estAccD =>
    obtain rfl : s.operand = a := hx
    exact commit_map_inContext _ h rfl fun _ => rfl
  | quantS => exact commit_map_inContext _ h (congrArg (quantize _ _ .S) hx.symm) fun _ => rfl
  | estAccS => exact commit_map_inContext _ h (congrArg (accumulate _ .S) hx.symm) fun _ => rfl
  | estFinS | estFinD => exact commit_map_inContext _ h rfl fun _ => rfl
  | estClr | bufclr => cases h; rfl
  | setwcur | setrcur =>
    obtain rfl : s.operand = a := hx
    cases h; rfl
  | setbw =>
    obtain rfl : s.operand = a := hx
    refine Eq.trans ?_ (commit_inContext _ h)
    rw [apply_ite (Except.map _)]
    rfl
  | pack =>
    obtain rfl : s.operand = a := hx
    refine Eq.trans ?_ (commit_inContext _ h)
    rw [apply_ite (Except.map _), apply_ite (Except.map _), exec, execPack, setField_inContext]
    rfl
  | unpack =>
    refine Eq.trans ?_ (commit_inContext _ h)
    rw [apply_ite (Except.map _), apply_ite (Except.map _), exec, execUnpack, field_inContext]
    rfl

end

/-- Settles O44: the two operands have the same part to read, and the rest of the context stays. -/
theorem operandsAreReadAsTabled : Obligations.OperandsAreReadAsTabled := by
  intro i s t a h hr
  have hx : partRead i.reading s.operand = partRead i.reading a := by
    rcases hr with hr | ⟨hr, ha⟩
    · rw [hr]; rfl
    · rw [hr]
      exact congrArg (BitVec.setWidth 64) ha.symm
  exact (exec_inContext { context s with operand := a } h hx).trans (by rw [← exec_context h]; rfl)

/-! A command line (R81) -/

section

variable {s t u : State} {i : Instr} {ts : List Turn}

/-- A command does the same whatever the turns to come and the values read before. -/
theorem exec_withTurns (h : exec i s = .next u) (ts : List Turn) (obs : List Observation) :
    exec i { s with agenda := ts, observed := obs } = .next { u with agenda := ts, observed := obs } :=
  (exec_inContext { context s with agenda := ts, observed := obs } h rfl).trans
    (by rw [← exec_context h]; rfl)

/-- Finitely many steps lead from the one state to the other. -/
def Reaches (s t : State) : Prop := ∃ k, Host.Core.run Sys2Proof.core k s = Host.Outcome.next t

theorem Reaches.refl (s : State) : Reaches s s := ⟨0, rfl⟩

theorem Reaches.head (hs : step s = .next t) (ht : Reaches t u) : Reaches s u := by
  obtain ⟨k, hk⟩ := ht
  have hs : Sys2Proof.core.step s = .next t := hs
  have hrun : Host.Core.run Sys2Proof.core (k + 1) s = Host.Core.run Sys2Proof.core k t := by
    simp only [Host.Core.run, hs]
  exact ⟨k + 1, hrun.trans hk⟩

/-- A `wait` polls STATUS until the pending command has run, and once more (30_encoding.md R80). -/
theorem reaches_of_wait {n : ℕ} (ha : s.agenda = .wait n :: ts) (hb : s.busy = true)
    (hi : decode s.pending.word = .ok i) (hu : exec i s = .next u) :
    ∃ obs, Reaches s { u with agenda := ts, observed := obs } := by
  induction n generalizing s u with
  | zero =>
    have hrun : step s = .next u := (step_wait_zero ha hb).trans ((coreStep_of_decode hb hi).trans hu)
    have hau : u.agenda = .wait 0 :: ts := (congrArg Context.agenda (exec_context hu)).trans ha
    have hlast := step_wait_idle hau (exec_not_busy hu)
    rw [pollStatus_eq] at hlast
    exact ⟨_, .head hrun (.head hlast (.refl _))⟩
  | succ n ih =>
    have hpoll := step_wait_busy ha hb
    rw [pollStatus_eq] at hpoll
    obtain ⟨obs, h⟩ := ih (s := { s with agenda := .wait n :: ts, observed := _ }) rfl hb hi (exec_withTurns hu _ _)
    exact ⟨obs, .head hpoll h⟩

/-- The OPA write of a line (10_state.md R21, R41). -/
theorem step_writeOpa {v : Word} (ha : s.agenda = writeTurn .opa v :: ts) (hb : s.busy = false) :
    step s = .next { s with agenda := ts, opa := v } :=
  (step_host ha).trans (congrArg _ (otherRegisterWrites { s with agenda := ts } v hb).1)

/-- The CMD write of a command latches it with OPA (10_state.md R23). -/
theorem step_writeCmd (ha : s.agenda = writeTurn .cmd ((encode i).setWidth 64) :: ts) (hb : s.busy = false)
    (he : s.err = false) :
    step s = .next { s with agenda := ts, pending := { valid := true, word := encode i, opa := s.opa } } := by
  have hw : ((encode i).setWidth 64).setWidth 32 = encode i := by simp
  have hcmd := (cmdWriteLatchesTheCommand { s with agenda := ts } ((encode i).setWidth 64) hb).1 he
  rw [hw] at hcmd
  exact (step_host ha).trans (congrArg _ hcmd)

/-- A CMD write and a `wait` run the command once, with the OPA of the CMD write (30_encoding.md R81). -/
theorem reaches_of_command {n : ℕ} (ha : s.agenda = writeTurn .cmd ((encode i).setWidth 64) :: .wait n :: ts)
    (hb : s.busy = false) (he : s.err = false)
    (hu : exec i { s with pending := { valid := true, word := encode i, opa := s.opa } } = .next u) :
    ∃ obs, Reaches s { u with agenda := ts, observed := obs } := by
  obtain ⟨obs, h⟩ := reaches_of_wait (n := n) rfl rfl (decode_encode i) (exec_withTurns hu (.wait n :: ts) s.observed)
  exact ⟨obs, .head (step_writeCmd ha hb he) h⟩

end

/-- A command line with an operand is an OPA write, a CMD write and a `wait` (30_encoding.md R81). -/
theorem expand_command_hex {i : Instr} {v : Word} {n : ℕ} {line : List Turn}
    (h : AsmLine.expand n (.command i (some (.hex v))) = .ok line) :
    line = [writeTurn .opa v, writeTurn .cmd ((encode i).setWidth 64), .wait n] := by
  simp only [AsmLine.expand] at h
  split at h
  · rename_i w hw
    cases h
    rw [eq_of_encode_hex hw]
  · cases h

/-- Settles O8: after the OPA write, if there is one, `reaches_of_command` runs the rest of the line. -/
theorem commandLineRunsItsCommand : Obligations.CommandLineRunsItsCommand := by
  intro s u i operand polls line ts hb he hline ha hu
  have hrun : ∃ obs, Reaches s { u with agenda := ts, observed := obs } := by
    cases operand with
    | none =>
      cases hline
      exact reaches_of_command ha hb he hu
    | some v =>
      cases expand_command_hex hline
      obtain ⟨obs, h⟩ := reaches_of_command (s := { s with
          agenda := writeTurn .cmd ((encode i).setWidth 64) :: .wait polls :: ts, opa := v })
        rfl hb he (exec_withTurns hu _ _)
      exact ⟨obs, .head (step_writeOpa ha hb) h⟩
  obtain ⟨obs, k, hk⟩ := hrun
  have hc := exec_context hu
  have hagenda : u.agenda = s.agenda := congrArg Context.agenda hc
  have hobserved : u.observed = s.observed := congrArg Context.observed hc
  have hidle : u.busy = false := exec_not_busy hu
  exact ⟨k, _, hk, hidle, rfl, by rw [← hagenda, ← hobserved]⟩

end Sys2Proof.Proofs
end

section
/-! PROOFS. The precision unit: the cases of `DeriveScale` (40_precision.md R101), what SETPREC installs (R100), who writes
STEP and SCALE (R102), and the lattice spacing (R103). -/

namespace Sys2Proof.Proofs

open Sys2Proof Sys2Proof.Machine Sys2Proof.Laws

/-! The cases of `DeriveScale` (R101) -/

section

variable (mode : RoundMode) {s : Word} {x r : ℚ}

theorem deriveScale_of_isNaN (h : Fmt.D.isNaN s = true) : deriveScale mode s = .error .stepInvalid := by
  rw [deriveScale, h, Bool.true_or, if_pos rfl]

theorem deriveScale_of_nonpos (h : Fmt.D.nonpos s = true) : deriveScale mode s = .error .stepInvalid := by
  rw [deriveScale, h, Bool.or_true, if_pos rfl]

/-- `+inf` has the sign 0 and a nonzero exponent field, so it passes the first check. -/
theorem deriveScale_of_posInf (hn : Fmt.D.isNaN s = false) (h : Fmt.D.real s = .posInf) :
    deriveScale mode s = .error .scaleZero := by
  have hp : Fmt.D.nonpos s = false := by
    rcases real_cases .D hn with ⟨-, hr⟩ | ⟨hm, hneg, -⟩ | ⟨-, -, hr⟩
    · rw [hr] at h; cases h
    · have := infMag_pos .D
      rw [Fmt.nonpos, hneg, hm, Bool.false_or, beq_eq_false_iff_ne]
      omega
    · rw [hr] at h; cases h
  rw [deriveScale, hn, hp, Bool.or_false, if_neg Bool.false_ne_true, h]

theorem deriveScale_of_negInf (h : Fmt.D.real s = .negInf) : deriveScale mode s = .error .stepInvalid := by
  have hneg : Fmt.D.neg s = true := by
    rw [Fmt.real] at h
    split_ifs at h with _ hneg
    exact hneg
  exact deriveScale_of_nonpos mode (by rw [Fmt.nonpos, hneg, Bool.true_or])

/-- A positive step passes the first check. -/
theorem isNaN_or_nonpos_eq_false (h : Fmt.D.real s = .fin x) (hx : 0 < x) :
    (Fmt.D.isNaN s || Fmt.D.nonpos s) = false := by
  have hp : Fmt.D.nonpos s = false := Bool.eq_false_iff.mpr fun hc => not_le.mpr hx ((nonpos_iff .D h).mp hc)
  rw [isNaN_of_fin h, hp, Bool.or_false]

theorem deriveScale_of_overflow (h : Fmt.D.real s = .fin x) (hx : 0 < x)
    (hr : Fmt.D.real (Fmt.D.round (1 / x)) = .posInf) : deriveScale mode s = .error .precisionOverflow := by
  rw [deriveScale, isNaN_or_nonpos_eq_false h hx, if_neg Bool.false_ne_true, h]
  simp only [hr]

/-- The last two checks, on the rounded reciprocal. -/
theorem deriveScale_of_reciprocal (h : Fmt.D.real s = .fin x) (hx : 0 < x)
    (hr : Fmt.D.real (Fmt.D.round (1 / x)) = .fin r) :
    deriveScale mode s = if 2 ^ 63 - 1 < roundInt mode r then .error .precisionOverflow
      else if roundInt mode r = 0 then .error .scaleZero else .ok (roundInt mode r) := by
  rw [deriveScale, isNaN_or_nonpos_eq_false h hx, if_neg Bool.false_ne_true, h]
  simp only [hr]
  rfl

theorem deriveScale_of_above_max (h : Fmt.D.real s = .fin x) (hx : 0 < x)
    (hr : Fmt.D.real (Fmt.D.round (1 / x)) = .fin r) (hbig : 2 ^ 63 - 1 < roundInt mode r) :
    deriveScale mode s = .error .precisionOverflow := by
  rw [deriveScale_of_reciprocal mode h hx hr, if_pos hbig]

theorem deriveScale_of_zero (h : Fmt.D.real s = .fin x) (hx : 0 < x)
    (hr : Fmt.D.real (Fmt.D.round (1 / x)) = .fin r) (hzero : roundInt mode r = 0) :
    deriveScale mode s = .error .scaleZero := by
  rw [deriveScale_of_reciprocal mode h hx hr, if_neg (by omega), if_pos hzero]

theorem deriveScale_of_in_range (h : Fmt.D.real s = .fin x) (hx : 0 < x)
    (hr : Fmt.D.real (Fmt.D.round (1 / x)) = .fin r) (hzero : roundInt mode r ≠ 0)
    (hle : roundInt mode r ≤ 2 ^ 63 - 1) : deriveScale mode s = .ok (roundInt mode r) := by
  rw [deriveScale_of_reciprocal mode h hx hr, if_neg (not_lt.mpr hle), if_neg hzero]

end

/-- Settles O17: one lemma per case of the step and of its rounded reciprocal. -/
theorem deriveScaleFollowsTheReciprocal : Obligations.DeriveScaleFollowsTheReciprocal :=
  fun mode _ => ⟨deriveScale_of_isNaN mode, fun _ => deriveScale_of_negInf mode, deriveScale_of_posInf mode,
    fun _ h => ⟨fun hx => deriveScale_of_nonpos mode ((nonpos_iff .D h).mpr hx), deriveScale_of_overflow mode h,
      fun _ hx hr => ⟨deriveScale_of_above_max mode h hx hr, deriveScale_of_zero mode h hx hr,
        deriveScale_of_in_range mode h hx hr⟩⟩⟩

/-! What SETPREC installs (R100) -/

section

variable {s : State}

theorem exec_setprec_ok {n : ℤ} (h : deriveScale s.params.roundMode s.pending.opa = .ok n) :
    exec .setprec s = .next { s with
      stepReg := s.pending.opa
      scale := bits64 n
      result := bits64 n
      pending := { s.pending with valid := false } } := by
  have h : deriveScale s.params.roundMode s.f64 = .ok n := h
  rw [exec, execSetprec, h]
  rfl

theorem exec_setprec_error {c : Cause} (h : deriveScale s.params.roundMode s.pending.opa = .error c) :
    exec .setprec s = .next { s with
      err := true, cause := c.code, pending := { s.pending with valid := false } } := by
  have h : deriveScale s.params.roundMode s.f64 = .error c := h
  rw [exec, execSetprec, h]
  rfl

end

/-- Settles O20: the cases of `DeriveScale`, each committed. -/
theorem setprecInstallsThePrecision : Obligations.SetprecInstallsThePrecision := by
  intro s
  refine ⟨fun x r h hx hr hzero hle => exec_setprec_ok (deriveScale_of_in_range _ h hx hr hzero hle),
    fun c => exec_setprec_error, fun h => exec_setprec_error (c := .stepInvalid) ?_,
    fun h => exec_setprec_error (c := .precisionOverflow) ?_, fun h => exec_setprec_error (c := .scaleZero) ?_⟩
  · rcases h with h | h | ⟨x, h, hx⟩
    · exact deriveScale_of_isNaN _ h
    · exact deriveScale_of_negInf _ h
    · exact deriveScale_of_nonpos _ ((nonpos_iff .D h).mpr hx)
  · obtain ⟨x, h, hx, hr | ⟨r, hr, hbig⟩⟩ := h
    · exact deriveScale_of_overflow _ h hx hr
    · exact deriveScale_of_above_max _ h hx hr hbig
  · rcases h with ⟨hn, h⟩ | ⟨x, r, h, hx, hr, hzero⟩
    · exact deriveScale_of_posInf _ hn h
    · exact deriveScale_of_zero _ h hx hr hzero

/-! Who writes STEP and SCALE (R102) -/

/-- The parameters, STEP and SCALE are as they were. -/
structure KeepsPrecision (s t : State) : Prop where
  params : t.params = s.params
  stepReg : t.stepReg = s.stepReg
  scale : t.scale = s.scale

/-- A pending SETPREC has succeeded: STEP is its operand, and SCALE the scale derived from it (R100). -/
structure InstallsPrecision (s t : State) : Prop where
  busy : s.busy = true
  word : decode s.pending.word = .ok .setprec
  params : t.params = s.params
  stepReg : t.stepReg = s.pending.opa
  scale : ∃ n, deriveScale s.params.roundMode s.pending.opa = .ok n ∧ t.scale = bits64 n

theorem writeReg_keepsPrecision (s : State) (v : Word) (r : Reg) : KeepsPrecision s (s.writeReg v r) := by
  rcases writeReg_cases s v r with e | ⟨-, e⟩ | e | e <;> rw [e]
  · exact ⟨rfl, rfl, rfl⟩
  · exact ⟨rfl, rfl, rfl⟩
  · exact ⟨rfl, rfl, rfl⟩
  · rw [ackStatus_eq]; exact ⟨rfl, rfl, rfl⟩

/-- The HOST changes the precision by Reset only (10_state.md R31, R32). -/
theorem hostStep_keepsPrecision (s : State) (x : HostTxn) :
    KeepsPrecision s (s.hostStep x) ∨ (x = .reset ∧ s.hostStep x = s.resetCore) := by
  rcases hostStep_cases s x with e | h | ⟨v, e⟩ | ⟨n, e⟩ | ⟨-, e⟩ | ⟨-, v, r, e⟩ | ⟨-, a, v, n, -, e⟩
  · rw [e]; exact .inl ⟨rfl, rfl, rfl⟩
  · exact .inr h
  · rw [e]; exact .inl ⟨rfl, rfl, rfl⟩
  · rw [e]; exact .inl ⟨rfl, rfl, rfl⟩
  · rw [e]; exact .inl ⟨rfl, rfl, rfl⟩
  · rw [e]; exact .inl (writeReg_keepsPrecision s v r)
  · rw [e]; exact .inl ⟨memWrite_params .., memWrite_stepReg .., memWrite_scale ..⟩

/-- The CORE changes the precision by a SETPREC that succeeds only. -/
theorem coreStep_precision {s t : State} (h : coreStep s = .next t) : KeepsPrecision s t ∨ InstallsPrecision s t := by
  rcases coreStep_completes h with ⟨-, rfl⟩ | ⟨hb, i, u, hi, hu, rfl⟩ | ⟨-, c, rfl⟩
  · exact .inl ⟨rfl, rfl, rfl⟩
  · cases hu with
    | setprec hn => exact .inr ⟨hb, hi, rfl, rfl, _, hn, rfl⟩
    | pack => exact .inl ⟨setField_params .., setField_stepReg .., setField_scale ..⟩
    | _ => exact .inl ⟨rfl, rfl, rfl⟩
  · exact .inl ⟨rfl, rfl, rfl⟩

/-- What a step does to the precision. -/
theorem step_precision {s t : State} (h : step s = .next t) :
    KeepsPrecision s t ∨
    (∃ ts, s.agenda = .host .reset :: ts ∧ t = ({ s with agenda := ts } : State).resetCore) ∨
    InstallsPrecision s t := by
  obtain ⟨ts, h | ⟨x, hx, rfl⟩⟩ := step_agents h
  · rcases coreStep_precision h with hk | hi
    · exact .inl { hk with }
    · exact .inr (.inr { hi with })
  · rcases hostStep_keepsPrecision { s with agenda := ts } x with hk | ⟨rfl, e⟩
    · exact .inl { hk with }
    · exact .inr (.inl ⟨ts, hx.resolve_right nofun, e⟩)

/-- Settles O11: `step_precision`, case by case. -/
theorem precisionChangesOnlyBySetprec : Obligations.PrecisionChangesOnlyBySetprec := by
  intro s t h
  rcases step_precision h with ⟨hp, hstep, hscale⟩ | ⟨ts, ha, rfl⟩ | ⟨hb, hi, hp, hstep, hscale⟩
  · rw [hp, hstep, hscale]
    exact ⟨rfl, .inl ⟨rfl, rfl⟩, .inr⟩
  · exact ⟨rfl, .inr (.inl ⟨ts, ha, rfl, rfl⟩), fun _ => .inl ⟨ts, ha⟩⟩
  · rw [hp, hstep]
    exact ⟨rfl, .inr (.inr ⟨hb, hi, rfl, hscale⟩), fun _ => .inr hscale⟩

/-! The lattice spacing (R103) -/

/-- Rounding a number of at least `2^j` to a format and then to an integer leaves at least `2^j`. -/
theorem two_pow_le_roundInt_round (F : Fmt) (mode : RoundMode) {j : ℕ} {y r : ℚ} (hj : j ≤ F.emax)
    (hy : (2 : ℚ) ^ j ≤ y) (hr : F.real (F.round y) = .fin r) : 2 ^ j ≤ roundInt mode r := by
  have hle := round_mono F hy
  rw [real_round_two_pow F hj, hr, le_def] at hle
  have hcast : ((2 ^ j : ℤ) : ℚ) ≤ r := by push_cast; exact hle
  have hint := roundInt_mono mode hcast
  rwa [roundInt_int] at hint

/-- A derived scale is more than half the exact reciprocal: both roundings stay above the power of two below the
reciprocal, which is more than half of it. -/
theorem reciprocal_lt_two_mul_scale {mode : RoundMode} {s : Word} {x : ℚ} {n : ℤ} (hx : Fmt.D.real s = .fin x)
    (h : deriveScale mode s = .ok n) : 0 < x ∧ 1 / x < 2 * (n : ℚ) := by
  obtain ⟨x', r, hx', hpos, hr, rfl, hlo, hhi⟩ := deriveScale_ok h
  obtain rfl : x = x' := by rw [hx] at hx'; injection hx'
  refine ⟨hpos, ?_⟩
  rcases lt_or_ge (1 / x) 1 with hy | hy
  · have : (1 : ℚ) ≤ roundInt mode r := by exact_mod_cast hlo
    linarith
  · obtain ⟨i, hi, hi'⟩ := exists_nat_pow_near hy one_lt_two
    have h63 : i < 63 := by
      by_contra hc
      have hy63 : (2 : ℚ) ^ 63 ≤ 1 / x := (pow_le_pow_right₀ one_le_two (not_lt.mp hc)).trans hi
      have := two_pow_le_roundInt_round .D mode (by decide) hy63 hr
      omega
    have hn : (2 : ℚ) ^ i ≤ roundInt mode r := by
      exact_mod_cast two_pow_le_roundInt_round .D mode (h63.le.trans (by decide)) hi hr
    rw [pow_succ] at hi'
    linarith

/-- Settles O19: `1 / x < 2 * n`, with the sides inverted. -/
theorem halfTheLatticeSpacingIsWithinTheStep : Obligations.HalfTheLatticeSpacingIsWithinTheStep := by
  intro mode s x n hx _ h
  obtain ⟨hpos, hlt⟩ := reciprocal_lt_two_mul_scale hx h
  exact ((one_div_lt ((one_div_pos.mpr hpos).trans hlt) hpos).mpr hlt).le

end Sys2Proof.Proofs
end

section
/-! PROOFS. The bit-width estimator (41_bit_width_estimator.md): the running maximum (R111 to R113), the value before the
clamp and its width (R114 to R116, R119), SETBW (R117), and the fit guarantee (R118). -/

namespace Sys2Proof.Proofs

open Sys2Proof Sys2Proof.Machine Sys2Proof.Laws

/-! The running maximum (R111 to R113) -/

section

variable {F : Fmt} {m x : Word}

theorem accumulate_of_isNaN (h : F.isNaN x = true) : accumulate m F x = .error .nanInput := by
  rw [accumulate, if_pos h]

/-- The widened `abs_F` of a number has its magnitude. -/
theorem real_widen_abs (h : F.isNaN x = false) : Fmt.D.real (F.widen (F.abs x)) = Ext.magnitude (F.real x) := by
  rw [real_widen F (by rw [isNaN_abs, h]), real_abs F h]

/-- A number replaces the maximum by its widened magnitude exactly when that is greater. -/
theorem accumulate_of_number (h : F.isNaN x = false) :
    accumulate m F x = .ok (if Ext.lt (Fmt.D.real m) (Ext.magnitude (F.real x)) then F.widen (F.abs x) else m) := by
  rw [accumulate, h, if_neg Bool.false_ne_true, ← real_widen_abs h]

/-- The maximum after a number, by the comparison (R112, R113). -/
theorem accumulate_tracks_maximum (m : Word) (h : F.isNaN x = false) :
    ∃ m', accumulate m F x = .ok m' ∧
      (Ext.lt (Fmt.D.real m) (Ext.magnitude (F.real x)) = true →
        Fmt.D.real m' = Ext.magnitude (F.real x) ∧ Fmt.D.neg m' = false ∧ Fmt.D.isNaN m' = false) ∧
      (Ext.lt (Fmt.D.real m) (Ext.magnitude (F.real x)) = false → m' = m) := by
  refine ⟨_, accumulate_of_number h, fun hlt => ?_, fun hge => if_neg (Bool.eq_false_iff.mp hge)⟩
  rw [if_pos hlt]
  exact ⟨real_widen_abs h, neg_widen_abs F h, isNaN_widen F (by rw [isNaN_abs, h])⟩

end

section

variable {s : State} (F : Fmt)

/-- EST.ACC of a format commits the new maximum (30_encoding.md R72). -/
theorem exec_estAccOf (s : State) : exec (estAccOf F) s =
    s.commit ((accumulate s.maxabs F (s.float F)).map fun m => { s with maxabs := m }) := by cases F <;> rfl

theorem exec_estAccOf_ok {m : Word} (h : accumulate s.maxabs F (s.float F) = .ok m) :
    exec (estAccOf F) s = .next { s with maxabs := m, pending := { s.pending with valid := false } } := by
  rw [exec_estAccOf, h]
  rfl

theorem exec_estAccOf_isNaN (h : F.isNaN (s.float F) = true) :
    exec (estAccOf F) s = .next { s with err := true, cause := 6, pending := { s.pending with valid := false } } := by
  rw [exec_estAccOf, accumulate_of_isNaN h]
  rfl

/-- EST.ACC of a number: the new maximum, and nothing else. -/
theorem exec_estAccOf_number (h : F.isNaN (s.float F) = false) :
    ∃ m, exec (estAccOf F) s = .next { s with maxabs := m, pending := { s.pending with valid := false } } ∧
      (Ext.lt (Fmt.D.real s.maxabs) (Ext.magnitude (F.real (s.float F))) = true →
        Fmt.D.real m = Ext.magnitude (F.real (s.float F)) ∧ Fmt.D.neg m = false ∧ Fmt.D.isNaN m = false) ∧
      (Ext.lt (Fmt.D.real s.maxabs) (Ext.magnitude (F.real (s.float F))) = false → m = s.maxabs) := by
  obtain ⟨m, hm, hmax⟩ := accumulate_tracks_maximum s.maxabs h
  exact ⟨m, exec_estAccOf_ok F hm, hmax⟩

end

/-- Settles O28: EST.ACC of a number and of a NaN, in each format. -/
theorem estClrAndEstAccTrackTheMaximum : Obligations.EstClrAndEstAccTrackTheMaximum := by
  rintro s xS rfl
  exact ⟨rfl, exec_estAccOf_number .S, exec_estAccOf_number .D, exec_estAccOf_isNaN .S, exec_estAccOf_isNaN .D⟩

/-! The value before the clamp (R114) -/

section

variable {F : Fmt} {scale m : Word} {x k : ℚ}

theorem scaledMax_of_posInf (h : F.real m = .posInf) : scaledMax scale F m = .posInf := by
  rw [scaledMax, h]

/-- The ceiling of the rounded product with the converted scale `k`. -/
theorem scaledMax_of_fin (hk : F.real (F.ofInt scale.toNat) = .fin k) (h : F.real m = .fin x) :
    scaledMax scale F m = Ext.toInt Rat.ceil (F.real (F.round (x * k))) := by
  simp only [scaledMax, h, mul_fin h hk]

end

/-- Settles O29: `scaledMax` of the narrowed maximum, by what the maximum, the narrowed one and the product are. -/
theorem scaledMaxIsTheCeilingOfTheProduct : Obligations.ScaledMaxIsTheCeilingOfTheProduct := by
  intro scale maxabs F hs
  obtain ⟨k, hk, hk1⟩ := scale_value F hs
  refine ⟨k, by exact_mod_cast hk, hk1, fun h => scaledMax_of_posInf (real_convert_posInf h), fun v hv _ => ?_⟩
  rw [convert_fin hv]
  refine ⟨scaledMax_of_posInf, fun m hm => ?_⟩
  rw [scaledMax_of_fin hk hm]
  refine ⟨fun h => ?_, fun r h => ?_⟩
  · rw [h, Ext.toInt]
  · rw [h, Ext.toInt, ratCeil_eq]

/-! The width (R114 to R116, R119) -/

section

variable {s : State} (F : Fmt)

theorem estFinal_of_scale {p : Params} {scale : Word} (m : Word) (h : scale ≠ 0) :
    estFinal p scale m F = .ok (bitWidth ((scaledMax scale F (Fmt.D.convert F m)).clamp 0 p.hi).toNat,
      (scaledMax scale F (Fmt.D.convert F m)).above p.hi) := by
  rw [estFinal, if_neg h]

/-- EST.FIN of a format commits the final width (30_encoding.md R72). -/
theorem exec_estFinOf (s : State) : exec (estFinOf F) s =
    s.commit ((estFinal s.params s.scale s.maxabs F).map fun b =>
      { s.noteSat b.2 with bw := BitVec.ofNat 7 b.1, result := bits64 b.1 }) := by cases F <;> rfl

theorem exec_estFinOf_no_scale (h : s.scale = 0) :
    exec (estFinOf F) s = .next { s with err := true, cause := 5, pending := { s.pending with valid := false } } := by
  rw [exec_estFinOf, estFinal, if_pos h]
  rfl

/-- EST.FIN with a scale set: BW, RESULT and SAT, and nothing else. -/
theorem exec_estFinOf_of_scale {c : Ext ℤ} (hc : c = scaledMax s.scale F (Fmt.D.convert F s.maxabs)) (h : s.scale ≠ 0) :
    exec (estFinOf F) s = .next { s with
      bw := BitVec.ofNat 7 (bitlen (c.clamp 0 (2 ^ (s.params.w.bits - 1) - 1)).toNat + 1)
      result := BitVec.ofNat 64 (bitlen (c.clamp 0 (2 ^ (s.params.w.bits - 1) - 1)).toNat + 1)
      sat := s.sat || c.above (2 ^ (s.params.w.bits - 1) - 1)
      pending := { s.pending with valid := false } } := by
  rw [exec_estFinOf, estFinal_of_scale F _ h, ← hc]
  simp only [Except.map, commit_ok, bits64, BitVec.ofInt_natCast]
  rfl

end

/-- Settles O30: EST.FIN with and without a scale, in each format. -/
theorem estFinWritesTheWidth : Obligations.EstFinWritesTheWidth := fun _ _ _ hS hD =>
  ⟨fun h => ⟨exec_estFinOf_of_scale .S hS h, exec_estFinOf_of_scale .D hD h⟩,
    fun h => ⟨exec_estFinOf_no_scale .S h, exec_estFinOf_no_scale .D h⟩⟩

theorem params_hi_nonneg (p : Params) : 0 ≤ p.hi := by
  rw [Params.hi]
  cases p.w <;> decide

/-- An active clamp leaves the upper end of the range. -/
theorem clamp_of_above {c : Ext ℤ} {hi : ℤ} (h0 : 0 ≤ hi) (h : c.above hi = true) : c.clamp 0 hi = hi := by
  cases c with
  | negInf => cases h
  | fin n =>
    have hn : hi < n := of_decide_eq_true h
    simp only [Ext.clamp]
    omega
  | posInf => rfl

/-- The upper end of the range has the width `W` (R119). -/
theorem bitWidth_hi (p : Params) : bitWidth p.hi.toNat = p.w.bits := by
  rw [Params.hi]
  cases p.w <;> decide

/-- The empty set has the maximum `+0.0`, whose scaled value is 0. -/
theorem scaledMax_of_zero (F : Fmt) {scale : Word} (h : scale ≠ 0) :
    scaledMax scale F (Fmt.D.convert F 0) = .fin 0 := by
  obtain ⟨k, hk, -⟩ := scale_value F h
  rw [convert_fin (real_zero .D), round_zero, scaledMax_of_fin hk (real_zero F), zero_mul, round_zero, real_zero,
    Ext.toInt, ratCeil_eq, Int.ceil_zero]

/-- Settles O31: the width of a clamped value, of the upper end when the clamp was active, and of 0. -/
theorem estimatedWidthIsWithinW : Obligations.EstimatedWidthIsWithinW := by
  intro p scale maxabs F b sat h
  have hle := estFinal_le h
  have hs : scale ≠ 0 := fun h0 => by rw [estFinal, if_pos h0] at h; cases h
  rw [estFinal_of_scale F maxabs hs] at h
  injection h with h
  injection h with hb hsat
  subst hb hsat
  have hhi := params_hi_nonneg p
  refine ⟨Nat.le_add_left 1 _, hle, fun h => ?_, ?_⟩
  · rw [clamp_of_above hhi h, bitWidth_hi]
  · rintro rfl
    rw [scaledMax_of_zero F hs]
    simp [Ext.clamp, Ext.above, bitWidth, hhi]

/-! SETBW (R117) -/

section

variable {s : State}

theorem exec_setbw_in_range (hlo : 1 ≤ s.u64) (hhi : s.u64 ≤ 64) : exec .setbw s =
    .next { s with bw := BitVec.ofNat 7 s.u64, pending := { s.pending with valid := false } } := by
  rw [exec, execSetbw, if_neg (by omega)]
  rfl

theorem exec_setbw_out_of_range (h : s.u64 < 1 ∨ 64 < s.u64) : exec .setbw s =
    .next { s with err := true, cause := 7, pending := { s.pending with valid := false } } := by
  rw [exec, execSetbw, if_pos h]
  rfl

end

theorem toNat_width {n : ℕ} (h : n ≤ 64) : (BitVec.ofNat 7 n).toNat = n := by
  rw [BitVec.toNat_ofNat, Nat.mod_eq_of_lt (by omega)]

/-- Settles O32: a width in `[1, 64]` is below `2^7`. -/
theorem setbwLoadsTheWidth : Obligations.SetbwLoadsTheWidth := fun _ =>
  ⟨fun hlo hhi => ⟨_, toNat_width hhi, exec_setbw_in_range hlo hhi⟩, exec_setbw_out_of_range⟩

end Sys2Proof.Proofs
end

section
/-! PROOFS. The fit guarantee of the estimator (41_bit_width_estimator.md R118): `scaledMax` of a maximum bounds the scaled
value of every number below it, in magnitude, through both roundings and the clamp. -/

namespace Sys2Proof.Proofs

open Sys2Proof Sys2Proof.Machine Sys2Proof.Laws

/-! The bound through the roundings -/

section

variable (F : Fmt) {x y v : ℚ}

/-- Rounding to a format keeps a bound of the magnitude. -/
theorem abs_round_le (h : |x| ≤ y) (hy : F.real (F.round y) = .fin v) :
    ∃ w, F.real (F.round x) = .fin w ∧ |w| ≤ v := by
  have hy0 : 0 ≤ y := (abs_nonneg x).trans h
  have hv0 := real_round_nonneg hy0 hy
  obtain ⟨hm, rfl⟩ := real_fin F hy
  have hle : F.mag (F.round x) ≤ F.mag (F.round y) := by
    rw [mag_round, mag_round]
    exact roundMag_mono F (abs_nonneg x) (h.trans (le_abs_self y))
  refine ⟨F.value (F.round x), by rw [Fmt.real, if_pos (hle.trans_lt hm)], ?_⟩
  rw [← abs_of_nonneg hv0, abs_value, abs_value]
  exact units_div_mono F hle

/-- Rounding to an integer stays within the ceiling of a bound of the magnitude. -/
theorem abs_roundInt_le_ceil (mode : RoundMode) (h : |x| ≤ y) : |roundInt mode x| ≤ y.ceil := by
  obtain ⟨hpos, hneg⟩ := abs_le'.mp h
  rw [abs_le', ← roundInt_neg]
  exact ⟨(roundInt_mono mode hpos).trans (roundInt_le_ceil mode y),
    (roundInt_mono mode hneg).trans (roundInt_le_ceil mode y)⟩

end

/-- `WithinMagnitude r c`: `|r| ≤ c` on integers, and `+∞` bounds everything. -/
inductive WithinMagnitude : Ext ℤ → Ext ℤ → Prop
  | posInf (r : Ext ℤ) : WithinMagnitude r .posInf
  | fin {r c : ℤ} (h : |r| ≤ c) : WithinMagnitude (.fin r) (.fin c)

theorem scaledValue_of_fin {F : Fmt} (p : Params) {scale a : Word} {x k : ℚ}
    (hk : F.real (F.ofInt scale.toNat) = .fin k) (h : F.real a = .fin x) :
    scaledValue p scale F a = Ext.toInt (roundInt p.roundMode) (F.real (F.round (x * k))) := by
  simp only [scaledValue, h, mul_fin h hk]

/-- A finite bound of a magnitude bounds a finite value. -/
theorem fin_of_magnitude_le {e : Ext ℚ} {v : ℚ} (h : Ext.le e.magnitude (.fin v)) : ∃ x, e = .fin x ∧ |x| ≤ v := by
  rw [le_def] at h
  cases e with
  | negInf => exact h.elim
  | posInf => exact h.elim
  | fin x =>
    refine ⟨x, rfl, ?_⟩
    simp only [Ext.magnitude] at h
    split_ifs at h with hx
    · rwa [abs_of_neg hx]
    · rwa [abs_of_nonneg (not_lt.mp hx)]

theorem magnitude_not_le_negInf {e : Ext ℚ} : ¬ Ext.le e.magnitude .negInf := by
  rw [le_def]
  cases e <;> exact id

/-- Before the clamp, `scaledMax` of a bound of the magnitude bounds the scaled value. -/
theorem scaledValue_within (p : Params) {F : Fmt} {scale a m : Word} (hs : scale ≠ 0)
    (h : Ext.le (F.real a).magnitude (F.real m)) :
    WithinMagnitude (scaledValue p scale F a) (scaledMax scale F m) := by
  cases hm : F.real m with
  | negInf => exact absurd (hm ▸ h) magnitude_not_le_negInf
  | posInf =>
    rw [scaledMax_of_posInf hm]
    exact .posInf _
  | fin v =>
    obtain ⟨k, hk, hk1⟩ := scale_value F hs
    obtain ⟨x, hx, hxv⟩ := fin_of_magnitude_le (hm ▸ h)
    have hk0 : 0 ≤ k := zero_le_one.trans hk1
    have hprod : |x * k| ≤ v * k := by
      rw [abs_mul, abs_of_nonneg hk0]
      exact mul_le_mul_of_nonneg_right hxv hk0
    rw [scaledMax_of_fin hk hm, scaledValue_of_fin p hk hx]
    cases hc : F.real (F.round (v * k)) with
    | negInf => exact absurd hc (real_round_ne_negInf ((abs_nonneg _).trans hprod))
    | posInf => exact .posInf _
    | fin c =>
      obtain ⟨w, hw, hwc⟩ := abs_round_le F hprod hc
      rw [hw]
      exact .fin (abs_roundInt_le_ceil p.roundMode hwc)

/-! The bound through the clamp -/

theorem params_lo_eq (p : Params) : p.lo = -p.hi - 1 := by
  rw [Params.lo, Params.hi]
  ring

/-- A value fits the width of a bound of its magnitude (R110). -/
theorem fitsWidth_of_abs_le {q : ℤ} {n : ℕ} (h : |q| ≤ n) : fitsWidth (bitWidth n) q := by
  have hn : (n : ℤ) < 2 ^ bitlen n := by exact_mod_cast (lt_two_pow_iff_bitlen_le n _).mpr le_rfl
  have hq := abs_le.mp h
  rw [fitsWidth, bitWidth, Nat.add_sub_cancel]
  omega

/-- A clamped value is in the W-bit range (00_scope.md R14). -/
theorem fitsWidth_clamp (p : Params) (r : Ext ℤ) : fitsWidth p.w.bits (r.clamp p.lo p.hi) := by
  have hhi := params_hi_nonneg p
  have hlo := params_lo_eq p
  have hle : p.lo ≤ p.hi := by omega
  refine ⟨?_, clamp_le r hle⟩
  change p.lo ≤ _
  cases r with
  | negInf => exact le_rfl
  | fin n => exact le_min (le_max_right _ _) hle
  | posInf => exact hle

/-- The clamped value fits the width of the clamped bound: an active clamp of the bound gives `W`, which every clamped
value fits, and below it the clamp keeps the bound. -/
theorem fitsWidth_of_within (p : Params) {r c : Ext ℤ} (h : WithinMagnitude r c) :
    fitsWidth (bitWidth (c.clamp 0 p.hi).toNat) (r.clamp p.lo p.hi) := by
  have hhi := params_hi_nonneg p
  cases hc : c.above p.hi with
  | true =>
    rw [clamp_of_above hhi hc, bitWidth_hi]
    exact fitsWidth_clamp p r
  | false =>
    cases h with
    | posInf => cases hc
    | @fin r c h =>
      have hlo := params_lo_eq p
      have hle : c ≤ p.hi := not_lt.mp (of_decide_eq_false hc)
      have hr := abs_le.mp h
      refine fitsWidth_of_abs_le (abs_le.mpr ?_)
      simp only [Ext.clamp]
      omega

/-- QUANT of a number whose magnitude MAXABS bounds fits the width of EST.FIN, both in one format (R118). -/
theorem quantize_fits (p : Params) {F : Fmt} {scale a maxabs : Word} (hs : scale ≠ 0)
    (h : Ext.le (F.real a).magnitude (F.real (Fmt.D.convert F maxabs))) (ha : F.isNaN a = false) :
    ∃ q sat, quantize p scale F a = .ok (q, sat) ∧ fitsWidth p.w.bits q ∧
      fitsWidth (bitWidth ((scaledMax scale F (Fmt.D.convert F maxabs)).clamp 0 p.hi).toNat) q :=
  ⟨_, _, by rw [quantize, if_neg hs, ha, if_neg Bool.false_ne_true], fitsWidth_clamp p _,
    fitsWidth_of_within p (scaledValue_within p hs h)⟩

/-! The maximum of a set -/

/-- Narrowing undoes widening. -/
theorem real_convert_widen (F : Fmt) {x : Word} (h : F.isNaN x = false) :
    F.real (Fmt.D.convert F (F.widen x)) = F.real x := by
  have hw := real_widen F h
  cases hx : F.real x with
  | fin v => rw [hx] at hw; rw [convert_fin hw, real_round_value F hx]
  | posInf => rw [hx] at hw; exact real_convert_posInf hw
  | negInf => rw [hx] at hw; simp only [Fmt.convert, hw, real_inf, if_true]

/-- A maximum of widened magnitudes still bounds them when it is narrowed to their format. -/
theorem magnitude_le_convert {F : Fmt} {x m : Word} (hx : F.isNaN x = false)
    (h : Ext.le (F.real x).magnitude (Fmt.D.real m)) :
    Ext.le (F.real x).magnitude (F.real (Fmt.D.convert F m)) := by
  rw [← real_abs F hx, ← real_convert_widen F (by rw [isNaN_abs, hx])]
  rw [← real_widen_abs hx] at h
  exact convert_mono h

theorem extLe_of_extLt {x y : Ext ℚ} (h : Ext.lt x y = true) : Ext.le x y := by
  rw [le_def]
  cases x with
  | negInf => trivial
  | posInf => cases h
  | fin a =>
    cases y with
    | negInf => cases h
    | posInf => trivial
    | fin b => exact (of_decide_eq_true h).le

/-- The maximum after a number bounds both the old maximum and the number's magnitude. -/
theorem accumulate_bounds {F : Fmt} (m : Word) {x : Word} (h : F.isNaN x = false) :
    ∃ m', accumulate m F x = .ok m' ∧ Ext.le (Fmt.D.real m) (Fmt.D.real m') ∧
      Ext.le (F.real x).magnitude (Fmt.D.real m') := by
  obtain ⟨m', hm', hgt, hle⟩ := accumulate_tracks_maximum m h
  refine ⟨m', hm', ?_⟩
  cases hlt : Ext.lt (Fmt.D.real m) (F.real x).magnitude with
  | true =>
    rw [(hgt hlt).1]
    exact ⟨extLe_of_extLt hlt, le_refl _⟩
  | false =>
    rw [hle hlt]
    exact ⟨le_refl _, hlt⟩

/-! The commands on the machine -/

theorem float_withCommand (s : State) (i : Instr) (a : Word) (F : Fmt) :
    (s.withCommand i a).float F = floatOperand F a := by cases F <;> rfl

/-- EST.ACC of a number leaves a bound of it and of the old maximum. -/
theorem issue_estAcc {F : Fmt} (s : State) {x : Word} (h : F.isNaN (floatOperand F x) = false) :
    ∃ m pe, issue (estAccOf F) x s = .next { s with maxabs := m, opa := x, pending := pe } ∧
      Ext.le (Fmt.D.real s.maxabs) (Fmt.D.real m) ∧
      Ext.le (F.real (floatOperand F x)).magnitude (Fmt.D.real m) := by
  obtain ⟨m, hm, hbound⟩ := accumulate_bounds s.maxabs h
  rw [← float_withCommand s (estAccOf F) x F] at hm
  exact ⟨m, _, exec_estAccOf_ok F hm, hbound⟩

/-- EST.ACC of every number of a list leaves a bound of each, and of the old maximum. -/
theorem issueAll_estAcc {F : Fmt} {xs : List Word} (s : State) (h : ∀ y ∈ xs, F.isNaN (floatOperand F y) = false) :
    ∃ m o pe, issueAll (estAccOf F) xs s = .next { s with maxabs := m, opa := o, pending := pe } ∧
      Ext.le (Fmt.D.real s.maxabs) (Fmt.D.real m) ∧
      ∀ y ∈ xs, Ext.le (F.real (floatOperand F y)).magnitude (Fmt.D.real m) := by
  induction xs generalizing s with
  | nil => exact ⟨_, _, _, rfl, le_refl _, nofun⟩
  | cons x xs ih =>
    obtain ⟨hx, hxs⟩ := List.forall_mem_cons.mp h
    obtain ⟨m₁, pe₁, hissue, hold₁, hx₁⟩ := issue_estAcc s hx
    obtain ⟨m, o, pe, hall, hold, hrest⟩ := ih { s with maxabs := m₁, opa := x, pending := pe₁ } hxs
    refine ⟨m, o, pe, ?_, le_trans' hold₁ hold, List.forall_mem_cons.mpr ⟨le_trans' hx₁ hold, hrest⟩⟩
    rw [issueAll, hissue]
    exact hall

theorem bitWidth_le (p : Params) (c : Ext ℤ) : bitWidth (c.clamp 0 p.hi).toNat ≤ 64 := by
  have h := bitlen_clamp_le p c
  have hw : p.w.bits ≤ 64 := by cases p.w <;> decide
  rw [bitWidth]
  omega

/-- EST.FIN with a scale set leaves the final width in BW. -/
theorem issue_estFin (F : Fmt) {s : State} (hs : s.scale ≠ 0) :
    ∃ t, issue (estFinOf F) 0 s = .next t ∧ t.params = s.params ∧ t.scale = s.scale ∧ t.err = s.err ∧
      t.width = bitWidth ((scaledMax s.scale F (Fmt.D.convert F s.maxabs)).clamp 0 s.params.hi).toNat :=
  ⟨_, exec_estFinOf_of_scale (s := s.withCommand (estFinOf F) 0) F rfl hs, rfl, rfl, rfl,
    toNat_width (bitWidth_le s.params _)⟩

/-- QUANT of a format commits the quantized value (30_encoding.md R72). -/
theorem exec_quantOf (F : Fmt) (s : State) : exec (quantOf F) s =
    s.commit ((quantize s.params s.scale F (s.float F)).map fun q => { s.noteSat q.2 with result := bits64 q.1 }) := by
  cases F <;> rfl

theorem issue_quant {F : Fmt} {s : State} {x : Word} {q : ℤ} {sat : Bool}
    (h : quantize s.params s.scale F (floatOperand F x) = .ok (q, sat)) :
    ∃ u, issue (quantOf F) x s = .next u ∧ u.err = s.err ∧ u.result = bits64 q := by
  have h : quantize (s.withCommand (quantOf F) x).params (s.withCommand (quantOf F) x).scale F
      ((s.withCommand (quantOf F) x).float F) = .ok (q, sat) := by rw [float_withCommand]; exact h
  rw [issue, exec_quantOf, h]
  exact ⟨_, rfl, rfl, rfl⟩

/-- A value of the W-bit range is read back from RESULT. -/
theorem toInt_bits64 {p : Params} {q : ℤ} (h : fitsWidth p.w.bits q) : (bits64 q).toInt = q := by
  have hw : (2 : ℤ) ^ (p.w.bits - 1) ≤ 2 ^ 63 := by cases p.w <;> decide
  obtain ⟨hlo, hhi⟩ := h
  exact BitVec.toInt_ofInt_eq_self (by decide) (by omega) (by omega)

/-- EST.CLR clears the maximum. -/
theorem issue_estClr (s : State) : ∃ pe, issue .estClr 0 s = .next { s with maxabs := 0, opa := 0, pending := pe } :=
  ⟨_, rfl⟩

@[simp] theorem andThen_next (s : State) (f : State → Host.Outcome State Fault Refusal) :
    andThen (.next s) f = f s := rfl

/-- The estimation of a set leaves in BW the width of a maximum `m` that bounds every number of the set. -/
theorem estimate_set {F : Fmt} {s : State} {xs : List Word} (hs : s.scale ≠ 0)
    (hxs : ∀ y ∈ xs, F.isNaN (floatOperand F y) = false) :
    ∃ m t, andThen (issue .estClr 0 s) (fun s₁ =>
        andThen (issueAll (estAccOf F) xs s₁) (issue (estFinOf F) 0)) = .next t ∧
      t.params = s.params ∧ t.scale = s.scale ∧ t.err = s.err ∧
      t.width = bitWidth ((scaledMax s.scale F (Fmt.D.convert F m)).clamp 0 s.params.hi).toNat ∧
      ∀ y ∈ xs, Ext.le (F.real (floatOperand F y)).magnitude (Fmt.D.real m) := by
  obtain ⟨pe₀, hclr⟩ := issue_estClr s
  obtain ⟨m, o, pe, hacc, -, hbound⟩ := issueAll_estAcc { s with maxabs := 0, opa := 0, pending := pe₀ } hxs
  obtain ⟨t, hfin, hp, hscale, herr, hwidth⟩ :=
    issue_estFin F (s := { s with maxabs := m, opa := o, pending := pe }) hs
  refine ⟨m, t, ?_, hp, hscale, herr, hwidth, hbound⟩
  rw [hclr, andThen_next, hacc, andThen_next]
  exact hfin

/-- Settles O33: the width is that of a maximum which bounds every number of the set (`estimate_set`), and a quantized
number fits the width of such a maximum (`quantize_fits`). -/
theorem estimatedWidthFitsEveryValue : Obligations.EstimatedWidthFitsEveryValue := by
  intro F s xs x hs hxs hx
  obtain ⟨m, t, hrun, hp, hscale, herr, hwidth, hbound⟩ := estimate_set hs hxs
  obtain ⟨q, sat, hq, hqW, hfit⟩ :=
    quantize_fits s.params hs (magnitude_le_convert (hxs x hx) (hbound x hx)) (hxs x hx)
  rw [← hp, ← hscale] at hq
  obtain ⟨u, hquant, huerr, hresult⟩ := issue_quant hq
  refine ⟨t, u, hrun, hquant, huerr.trans herr, ?_⟩
  rw [hwidth, hresult, toInt_bits64 hqW]
  exact hfit

end Sys2Proof.Proofs
end

section
/-! PROOFS. The quantizer and the rescale (42_quantizer_scaler.md): the value before the clamp and the clamp (R130), QUANT.S
and QUANT.D (R131, R132), the quotient (R133), DEQUANT.S and DEQUANT.D (R134, R135), and order preservation (R137). -/

namespace Sys2Proof.Proofs

open Sys2Proof Sys2Proof.Machine Sys2Proof.Laws

/-! The order of extended reals (00_scope.md R14) -/

theorem negInf_le (x : Ext ℚ) : Ext.le .negInf x := (le_def _ _).mpr trivial

theorem le_posInf (x : Ext ℚ) : Ext.le x .posInf := by
  rw [le_def]
  cases x <;> trivial

/-- What `x ≤ y` says: an infinity on its side, or two numbers in order. -/
theorem le_cases {x y : Ext ℚ} (h : Ext.le x y) :
    x = .negInf ∨ y = .posInf ∨ ∃ v w, x = .fin v ∧ y = .fin w ∧ v ≤ w := by
  rw [le_def] at h
  cases x with
  | negInf => exact .inl rfl
  | posInf =>
    cases y with
    | posInf => exact .inr (.inl rfl)
    | negInf => exact h.elim
    | fin w => exact h.elim
  | fin v =>
    cases y with
    | negInf => exact h.elim
    | posInf => exact .inr (.inl rfl)
    | fin w => exact .inr (.inr ⟨v, w, rfl, rfl, h⟩)

/-! The value before the clamp (R130) -/

theorem ofInt_natCast (F : Fmt) (n : ℕ) : F.ofInt n = F.round (n : ℚ) := by
  rw [Fmt.ofInt, Int.cast_natCast]

section

variable {F : Fmt} {scale a : Word} {k v : ℚ} (p : Params)

theorem scaledValue_of_posInf (h : F.real a = .posInf) : scaledValue p scale F a = .posInf := by
  rw [scaledValue, h]

theorem scaledValue_of_negInf (h : F.real a = .negInf) : scaledValue p scale F a = .negInf := by
  rw [scaledValue, h]

/-- The product of an operand and the converted scale `k`, rounded to the format; an infinite operand stays (R130). -/
def scaledProduct (F : Fmt) (k : ℚ) : Ext ℚ → Ext ℚ
  | .negInf => .negInf
  | .fin v => F.real (F.round (v * k))
  | .posInf => .posInf

/-- The value before the clamp is the product, rounded to an integer. -/
theorem scaledValue_eq (hk : F.real (F.ofInt scale.toNat) = .fin k) (a : Word) :
    scaledValue p scale F a = Ext.toInt (roundInt p.roundMode) (scaledProduct F k (F.real a)) := by
  cases ha : F.real a with
  | negInf => exact scaledValue_of_negInf p ha
  | fin v => exact scaledValue_of_fin p hk ha
  | posInf => exact scaledValue_of_posInf p ha

/-- The product with a nonnegative scale is monotone (R137). -/
theorem scaledProduct_mono (F : Fmt) (hk : 0 ≤ k) {x y : Ext ℚ} (h : Ext.le x y) :
    Ext.le (scaledProduct F k x) (scaledProduct F k y) := by
  obtain rfl | rfl | ⟨v, w, rfl, rfl, hvw⟩ := le_cases h
  · exact negInf_le _
  · exact le_posInf _
  · exact round_mono F (mul_le_mul_of_nonneg_right hvw hk)

end

/-- Settles O21: the kinds of the operand, and of the product of a finite one. -/
theorem scaledValueIsTheRoundedProduct : Obligations.ScaledValueIsTheRoundedProduct := by
  intro p scale x F hs
  obtain ⟨k, hk, hk1⟩ := scale_value F hs
  refine ⟨k, by rw [← ofInt_natCast, hk], hk1, scaledValue_of_posInf p, scaledValue_of_negInf p, fun v hv => ?_⟩
  rw [scaledValue_of_fin p hk hv]
  exact ⟨congrArg _, congrArg _, fun _ => congrArg _⟩

/-! The clamp (R130, 00_scope.md R14) -/

section

variable {r : Ext ℤ} {n lo hi : ℤ}

theorem clamp_fin_of_mem (h1 : lo ≤ n) (h2 : n ≤ hi) : (Ext.fin n).clamp lo hi = n := by
  rw [Ext.clamp, max_eq_left h1, min_eq_left h2]

theorem clamp_fin_of_gt (h : hi < n) : (Ext.fin n).clamp lo hi = hi := by
  rw [Ext.clamp, min_eq_right (h.le.trans (le_max_left n lo))]

theorem clamp_fin_of_lt (hle : lo ≤ hi) (h : n < lo) : (Ext.fin n).clamp lo hi = lo := by
  rw [Ext.clamp, max_eq_right h.le, min_eq_left hle]

theorem le_clamp (r : Ext ℤ) (hle : lo ≤ hi) : lo ≤ r.clamp lo hi := by
  cases r with
  | negInf => exact le_rfl
  | fin n => exact le_min (le_max_right n lo) hle
  | posInf => exact hle

/-- The clamp reports no saturation exactly when it keeps its value. -/
theorem sat_eq_false_iff (hle : lo ≤ hi) : r.sat lo hi = false ↔ r = .fin (r.clamp lo hi) := by
  cases r with
  | negInf => exact ⟨nofun, nofun⟩
  | posInf => exact ⟨nofun, nofun⟩
  | fin n =>
    simp only [Ext.sat, Ext.clamp, decide_eq_false_iff_not, Ext.fin.injEq]
    omega

/-- The clamp after a monotone conversion to an integer is monotone (R137). -/
theorem clamp_toInt_mono {f : ℚ → ℤ} (hf : Monotone f) (hle : lo ≤ hi) {x y : Ext ℚ} (h : Ext.le x y) :
    (x.toInt f).clamp lo hi ≤ (y.toInt f).clamp lo hi := by
  obtain rfl | rfl | ⟨v, w, rfl, rfl, hvw⟩ := le_cases h
  · exact le_clamp _ hle
  · exact clamp_le _ hle
  · exact min_le_min_right hi (max_le_max_right lo (hf hvw))

end

theorem params_lo_le_hi (p : Params) : p.lo ≤ p.hi := by
  have hhi := params_hi_nonneg p
  have hlo := params_lo_eq p
  omega

/-! Quantize and QUANT (R130 to R132) -/

section

variable {p : Params} {scale x : Word} {F : Fmt}

theorem quantize_of_no_scale (h : scale = 0) : quantize p scale F x = .error .noScale := by
  rw [quantize, if_pos h]

theorem quantize_of_isNaN (hs : scale ≠ 0) (h : F.isNaN x = true) : quantize p scale F x = .error .nanInput := by
  rw [quantize, if_neg hs, if_pos h]

theorem quantize_of_number (hs : scale ≠ 0) (h : F.isNaN x = false) :
    quantize p scale F x =
      .ok ((scaledValue p scale F x).clamp p.lo p.hi, (scaledValue p scale F x).sat p.lo p.hi) := by
  rw [quantize, if_neg hs, h, if_neg Bool.false_ne_true]

/-- Quantizing succeeds only with a scale set, and then gives the clamped `scaledValue`. -/
theorem quantize_ok {q : ℤ} {sat : Bool} (h : quantize p scale F x = .ok (q, sat)) :
    scale ≠ 0 ∧ q = (scaledValue p scale F x).clamp p.lo p.hi := by
  have hs : scale ≠ 0 := fun h0 => by rw [quantize_of_no_scale h0] at h; cases h
  cases hx : F.isNaN x with
  | true => rw [quantize_of_isNaN hs hx] at h; cases h
  | false =>
    rw [quantize_of_number hs hx] at h
    cases h
    exact ⟨hs, rfl⟩

end

/-- Settles O22: the three checks in their order, and the clamp of each kind of value. -/
theorem quantizeClampsAndReports : Obligations.QuantizeClampsAndReports := by
  intro p scale x F
  have hle := params_lo_le_hi p
  obtain ⟨hlo, hhi⟩ := fitsWidth_clamp p (scaledValue p scale F x)
  refine ⟨quantize_of_no_scale, quantize_of_isNaN, fun hs hx => ⟨_, _, quantize_of_number hs hx, hlo, hhi,
    sat_eq_false_iff hle, fun h => ?_, fun h => ?_, fun r h => ?_⟩⟩
  · rw [h, Ext.clamp, Params.hi]
  · rw [h, Ext.clamp, Params.lo]
  · rw [sat_eq_false_iff hle, h]
    refine ⟨fun h1 h2 => ?_, clamp_fin_of_gt, clamp_fin_of_lt hle⟩
    have hr := clamp_fin_of_mem (lo := p.lo) (hi := p.hi) h1 h2
    exact ⟨hr, by rw [hr]⟩

section

variable {s : State} (F : Fmt)

/-- QUANT of a number with a scale set: RESULT and SAT, and nothing else. -/
theorem exec_quantOf_number (hs : s.scale ≠ 0) (hx : F.isNaN (s.float F) = false) :
    ∃ q sat, quantize s.params s.scale F (s.float F) = .ok (q, sat) ∧
      exec (quantOf F) s = .next { s with
        result := bits64 q, sat := s.sat || sat, pending := { s.pending with valid := false } } := by
  refine ⟨_, _, quantize_of_number hs hx, ?_⟩
  rw [exec_quantOf, quantize_of_number hs hx]
  rfl

theorem exec_quantOf_no_scale (h : s.scale = 0) :
    exec (quantOf F) s = .next { s with err := true, cause := 5, pending := { s.pending with valid := false } } := by
  rw [exec_quantOf, quantize_of_no_scale h]
  rfl

theorem exec_quantOf_isNaN (hs : s.scale ≠ 0) (h : F.isNaN (s.float F) = true) :
    exec (quantOf F) s = .next { s with err := true, cause := 6, pending := { s.pending with valid := false } } := by
  rw [exec_quantOf, quantize_of_isNaN hs h]
  rfl

end

/-- Settles O23: QUANT of a number, without a scale, and of a NaN, in each format. -/
theorem quantWritesResultAndSat : Obligations.QuantWritesResultAndSat := by
  rintro s xS rfl
  exact ⟨exec_quantOf_number .S, exec_quantOf_number .D,
    fun h => ⟨exec_quantOf_no_scale .S h, exec_quantOf_no_scale .D h⟩, exec_quantOf_isNaN .S, exec_quantOf_isNaN .D⟩

/-- Settles O24: the product with the converted scale, the rounding to an integer and the clamp are monotone. -/
theorem quantizePreservesOrder : Obligations.QuantizePreservesOrder := by
  intro p scale x y F qx qy satx saty hqx hqy hxy
  obtain ⟨hs, rfl⟩ := quantize_ok hqx
  obtain ⟨-, rfl⟩ := quantize_ok hqy
  obtain ⟨k, hk, hk1⟩ := scale_value F hs
  rw [scaledValue_eq p hk, scaledValue_eq p hk]
  have hround : Monotone (roundInt p.roundMode) := fun _ _ => roundInt_mono p.roundMode
  exact clamp_toInt_mono hround (params_lo_le_hi p) (scaledProduct_mono F (zero_le_one.trans hk1) hxy)

/-! Rescale and DEQUANT (R133 to R135) -/

section

variable {scale : Word} {F : Fmt} {q : ℤ} {a k : ℚ}

theorem rescale_of_no_scale (h : scale = 0) : rescale scale F q = .error .noScale := by
  rw [rescale, if_pos h]

/-- The rounded quotient of the converted operands `a` and `k`. -/
theorem rescale_of_scale (hs : scale ≠ 0) (ha : F.real (F.ofInt q) = .fin a)
    (hk : F.real (F.ofInt scale.toNat) = .fin k) : rescale scale F q = .ok (F.round (a / k)) := by
  rw [rescale, if_neg hs, div_fin ha hk]

/-- A rescaled 64-bit integer is the rounded quotient of a number of at most `2^63` and one of at least 1. -/
theorem rescale_ok {y : Word} (h1 : -2 ^ 63 ≤ q) (h2 : q < 2 ^ 63) (h : rescale scale F q = .ok y) :
    ∃ a k, F.real (F.ofInt q) = .fin a ∧ |a| ≤ 2 ^ 63 ∧ F.real (F.ofInt scale.toNat) = .fin k ∧ 1 ≤ k ∧
      y = F.round (a / k) := by
  have hs : scale ≠ 0 := fun h0 => by rw [rescale_of_no_scale h0] at h; cases h
  obtain ⟨a, ha, ha63⟩ := int_value F h1 h2
  obtain ⟨k, hk, hk1⟩ := scale_value F hs
  rw [rescale_of_scale hs ha hk] at h
  cases h
  exact ⟨a, k, ha, ha63, hk, hk1, rfl⟩

end

section

variable {s : State} (F : Fmt)

theorem dequant_no_scale (h : s.scale = 0) :
    dequant F s = .next { s with err := true, cause := 5, pending := { s.pending with valid := false } } := by
  rw [dequant, rescale_of_no_scale h]
  rfl

/-- DEQUANT of a format with a scale set: RESULT, and nothing else. -/
theorem dequant_of_scale (hs : s.scale ≠ 0) : ∃ a k,
    F.real (F.round (s.pending.opa.toInt : ℚ)) = .fin a ∧ F.real (F.round (s.scale.toNat : ℚ)) = .fin k ∧ 1 ≤ k ∧
      dequant F s = .next { s with
        result := F.round (a / k), pending := { s.pending with valid := false } } := by
  obtain ⟨a, ha, -⟩ := int_value F (BitVec.le_toInt s.pending.opa) (BitVec.toInt_lt (x := s.pending.opa))
  obtain ⟨k, hk, hk1⟩ := scale_value F hs
  refine ⟨a, k, ha, by rw [← ofInt_natCast, hk], hk1, ?_⟩
  rw [dequant, State.i64, State.operand, rescale_of_scale hs ha hk]
  rfl

end

/-- Settles O25: DEQUANT with and without a scale, in each format; a rounded binary32 number has 32 bits. -/
theorem dequantWritesTheRoundedQuotient : Obligations.DequantWritesTheRoundedQuotient := by
  refine fun s => ⟨fun hs => ?_, dequant_of_scale .D, fun h => ⟨dequant_no_scale .S h, dequant_no_scale .D h⟩⟩
  obtain ⟨a, k, ha, hk, hk1, hexec⟩ := dequant_of_scale .S hs
  exact ⟨a, k, ha, hk, hk1, round_S_lt (a / k), hexec⟩

/-- Every 64-bit integer is below the overflow threshold, which is at least `2^emax`. -/
theorem two_pow_63_lt_overflowAt (F : Fmt) : (2 : ℚ) ^ 63 < F.overflowAt := by
  have hemax : (2 : ℚ) ^ 63 < 2 ^ F.emax := pow_lt_pow_right₀ one_lt_two (by cases F <;> decide)
  have hmid := two_mul_overflowAt F
  have hmax := abs_nonneg (F.value (F.pattern false (F.infMag - 1)))
  rw [pow_succ] at hmid
  linarith

/-- Settles O26: the quotient is at most `2^63` in magnitude, below the overflow threshold of both formats. -/
theorem rescaleIsFinite : Obligations.RescaleIsFinite := by
  intro scale F q y h1 h2 h
  obtain ⟨a, k, ha, ha63, -, hk1, rfl⟩ := rescale_ok h1 h2 h
  have hquot : |a / k| ≤ 2 ^ 63 := by
    rw [abs_div, abs_of_pos (zero_lt_one.trans_le hk1)]
    exact (div_le_self (abs_nonneg a) hk1).trans ha63
  refine ⟨isNaN_round F _, ⟨_, real_round_of_lt F (hquot.trans_lt (two_pow_63_lt_overflowAt F))⟩, ?_⟩
  rintro rfl
  rw [Fmt.ofInt, Int.cast_zero, Laws.round_zero, real_zero] at ha
  cases ha
  rw [zero_div, Laws.round_zero]

/-- Settles O27: the conversion of the integer, the division by the converted scale and the rounding are monotone. -/
theorem rescalePreservesOrder : Obligations.RescalePreservesOrder := by
  intro scale F q q' y y' h1 hq h2 hy hy'
  obtain ⟨a, k, ha, -, hk, hk1, rfl⟩ := rescale_ok h1 (hq.trans_lt h2) hy
  obtain ⟨a', k', ha', -, hk', -, rfl⟩ := rescale_ok (h1.trans hq) h2 hy'
  obtain rfl : k = k' := Ext.fin.inj (hk.symm.trans hk')
  have hconv : Ext.le (F.real (F.ofInt q)) (F.real (F.ofInt q')) := round_mono F (Int.cast_le.mpr hq)
  rw [ha, ha', le_def] at hconv
  exact round_mono F (div_le_div_of_nonneg_right hconv (zero_le_one.trans hk1))

end Sys2Proof.Proofs
end

section
/-! PROOFS. The bit packer (43_bit_packer.md): the bits of an encoded field (R150), BUFCLR and the cursor commands
(R151, R152, 44_bit_unpacker.md R171), PACK (R153), and values packed back to back (R155). -/

namespace Sys2Proof.Proofs

open Sys2Proof Sys2Proof.Machine Sys2Proof.Laws

/-! The coding of a field (R150, 44_bit_unpacker.md R173) -/

/-- The number below the sign bit of a field, before it is cut to the width: the value, complemented when it is
negative. -/
def fieldMagnitude (v : ℤ) : ℕ := (if v < 0 then complement v else v).toNat

theorem encodeField_eq (b : ℕ) (v : ℤ) :
    encodeField b v = 2 ^ (b - 1) * (decide (v < 0)).toNat + fieldMagnitude v % 2 ^ (b - 1) := by
  rw [encodeField, fieldMagnitude, Nat.add_comm]
  split <;> simp [*]

theorem encodeField_lt {b : ℕ} (hb : 1 ≤ b) (v : ℤ) : encodeField b v < 2 ^ b := by
  obtain ⟨n, rfl⟩ := Nat.exists_eq_add_of_le' hb
  have hsign := Bool.toNat_le (decide (v < 0))
  have hlow := Nat.mod_lt (fieldMagnitude v) (Nat.two_pow_pos n)
  have hle := Nat.mul_le_mul_left (2 ^ n) hsign
  rw [encodeField_eq, Nat.add_sub_cancel, pow_succ]
  omega

/-- The bits of an encoded field: those of the magnitude, and then the sign. -/
theorem testBit_encodeField (b : ℕ) (v : ℤ) (j : ℕ) :
    (encodeField b v).testBit j =
      if j < b - 1 then (fieldMagnitude v).testBit j else decide (j = b - 1 ∧ v < 0) := by
  rw [encodeField_eq, Nat.testBit_two_pow_mul_add _ (Nat.mod_lt _ (Nat.two_pow_pos _))]
  split
  next h => rw [Nat.testBit_mod_two_pow, decide_eq_true h, Bool.true_and]
  next h =>
    have hj : j - (b - 1) = 0 ↔ j = b - 1 := by omega
    rw [Nat.testBit_bool_toNat, Bool.decide_and, decide_eq_decide.mpr hj]

/-- As a 64-bit word the magnitude is the value's word, complemented when the value is negative. -/
theorem ofNat_fieldMagnitude (v : ℤ) :
    BitVec.ofNat 64 (fieldMagnitude v) = if v < 0 then ~~~bits64 v else bits64 v := by
  cases v with
  | ofNat n =>
    have h : ¬ Int.ofNat n < 0 := not_lt.mpr (Int.natCast_nonneg n)
    rw [fieldMagnitude, if_neg h, if_neg h]
    exact (BitVec.ofInt_natCast ..).symm
  | negSucc n =>
    have h : Int.negSucc n < 0 := Int.negSucc_lt_zero n
    have hn : (complement (Int.negSucc n)).toNat = n := by rw [complement]; omega
    rw [fieldMagnitude, if_pos h, if_pos h, hn, bits64, BitVec.ofInt_negSucc_eq_not_ofNat, BitVec.not_not]

/-- Settles O34: the bits of the magnitude are those of the 64-bit value or its complement, and `b - 1` of them are
stored. -/
theorem encodeIsComplementSignCoding : Obligations.EncodeIsComplementSignCoding := by
  intro b v h1 h64 _ _
  refine ⟨encodeField_lt h1 v, fun j => ?_⟩
  rw [testBit_encodeField, ← ofNat_fieldMagnitude]
  refine ite_congr rfl (fun hj => ?_) (fun _ => rfl)
  rw [BitVec.getLsbD_ofNat, decide_eq_true (by omega), Bool.true_and]

/-- Decoding an encoded value: the low bits of its magnitude, under its sign. -/
theorem decodeField_encodeField (b : ℕ) (v : ℤ) :
    decodeField b (encodeField b v) =
      if v < 0 then complement (fieldMagnitude v % 2 ^ (b - 1) : ℕ) else (fieldMagnitude v % 2 ^ (b - 1) : ℕ) := by
  have hsign : (encodeField b v).testBit (b - 1) = decide (v < 0) := by simp [testBit_encodeField]
  have hlow : encodeField b v % 2 ^ (b - 1) = fieldMagnitude v % 2 ^ (b - 1) := by
    rw [encodeField_eq, Nat.mul_add_mod, Nat.mod_mod]
  simp only [decodeField, hsign, hlow, decide_eq_true_eq]

theorem fieldMagnitude_lt {b : ℕ} {v : ℤ} (h : fitsWidth b v) : fieldMagnitude v < 2 ^ (b - 1) := by
  obtain ⟨hlo, hhi⟩ := h
  zify
  rw [fieldMagnitude, complement]
  split <;> omega

/-- Decoding gives back an encoded value that fits (44_bit_unpacker.md R173). -/
theorem decodeField_encodeField_of_fits {b : ℕ} {v : ℤ} (h : fitsWidth b v) :
    decodeField b (encodeField b v) = v := by
  rw [decodeField_encodeField, Nat.mod_eq_of_lt (fieldMagnitude_lt h), fieldMagnitude]
  simp only [complement]
  split <;> omega

/-! BUFCLR and the cursor commands (R151, R152, 44_bit_unpacker.md R171) -/

section

variable (s : State)

theorem exec_bufclr : exec .bufclr s = .next { s with
    buf := Memory.zero s.params.bufBytes, pending := { s.pending with valid := false } } := rfl

theorem exec_setwcur : exec .setwcur s = .next { s with
    wcur := s.pending.opa, pending := { s.pending with valid := false } } := by
  rw [exec, execSetwcur, commit_ok, State.u64, State.operand, BitVec.ofNat_toNat, BitVec.setWidth_eq]
  rfl

theorem exec_setrcur : exec .setrcur s = .next { s with
    rcur := s.pending.opa, pending := { s.pending with valid := false } } := by
  rw [exec, execSetrcur, commit_ok, State.u64, State.operand, BitVec.ofNat_toNat, BitVec.setWidth_eq]
  rfl

variable {s}

theorem bufByte_of_zero {n i : ℕ} (h : s.buf = Memory.zero n) (hi : i < n) : s.bufByte i = 0 := by
  rw [State.bufByte, h, get_zero, if_pos hi]

/-- Outside the buffer a byte is the free value of the last reset, in every canonical form of BUF (log 3). -/
theorem bufByte_outside {n i : ℕ} (h : Memory.wf n s.buf) (hi : n ≤ i) :
    s.bufByte i = Config.resetByte s.bufEpoch i := by
  rw [State.bufByte, get_outside h.2 hi]

end

/-- Settles O36: BUFCLR lists exactly the bytes of the buffer, each 0; a cursor command copies its operand. -/
theorem bufclrAndTheCursorCommands : Obligations.BufclrAndTheCursorCommands := by
  refine fun s => ⟨⟨_, exec_bufclr s, rfl, fun i hi => bufByte_of_zero rfl hi, fun hwf i hi => ?_⟩,
    exec_setwcur s, exec_setrcur s⟩
  rw [bufByte_outside hwf hi, bufByte_outside (zero_wf _) hi]

/-! PACK (R153) -/

section

variable {s : State}

theorem exec_pack_no_width (h : s.width = 0) : exec .pack s =
    .next { s with err := true, cause := 7, pending := { s.pending with valid := false } } := by
  rw [exec, execPack, if_pos h]
  rfl

theorem exec_pack_out_of_bounds (h : s.width ≠ 0) (hb : s.bitSpace < s.wpos + s.width) : exec .pack s =
    .next { s with err := true, cause := 8, pending := { s.pending with valid := false } } := by
  rw [exec, execPack, if_neg h, if_pos hb]
  rfl

theorem exec_pack_in_bounds (h : s.width ≠ 0) (hb : s.wpos + s.width ≤ s.bitSpace) : exec .pack s =
    .next { s.setField s.wpos (encodeField s.width s.i64) s.width with
      wcur := BitVec.ofNat 64 (s.wpos + s.width), pending := { s.pending with valid := false } } := by
  rw [exec, execPack, if_neg h, if_neg (not_lt.mpr hb), commit_ok, State.finish, setField_pending]

/-- A cursor that stays inside the bit space of an instance does not wrap (20_memory.md R50). -/
theorem toNat_cursor (hwf : s.params.wf) {n : ℕ} (h : n ≤ s.bitSpace) : (BitVec.ofNat 64 n).toNat = n := by
  rw [State.bitSpace] at h
  rw [BitVec.toNat_ofNat, Nat.mod_eq_of_lt (by omega)]

end

/-- Settles O37: the bits and bytes `setField` leaves, and one lemma per fault. -/
theorem packWritesTheField : Obligations.PackWritesTheField := by
  refine fun s => ⟨exec_pack_no_width, exec_pack_out_of_bounds, fun h hb =>
    ⟨_, exec_pack_in_bounds h hb, bufBit_setField s _ _ _, fun a ha => bufByte_setField s _ _ _ ha,
      fun hwf => toNat_cursor hwf hb, ?_⟩⟩
  rw [setField_frame]

/-! Values packed back to back (R155) -/

/-- What PACK of `v` into clear bits leaves: the field at the old cursor, the other bits, and the cursor behind it. -/
structure Packed (s : State) (v : Word) (t : State) : Prop where
  params : t.params = s.params
  bw : t.bw = s.bw
  err : t.err = s.err
  wcur : t.wcur.toNat = s.wcur.toNat + s.bw.toNat
  field : t.field s.wcur.toNat s.bw.toNat = encodeField s.bw.toNat v.toInt
  outside : ∀ i, i < s.wcur.toNat ∨ s.wcur.toNat + s.bw.toNat ≤ i → t.bufBit i = s.bufBit i

section

variable {s t : State} {c b fld : ℕ}

/-- A field depends on its own bits only. -/
theorem field_congr (h : ∀ j, j < b → t.bufBit (c + j) = s.bufBit (c + j)) : t.field c b = s.field c b := by
  refine field_eq _ (field_lt s c b) fun j hj => ?_
  rw [testBit_field, decide_eq_true hj, Bool.true_and, h j hj]

variable (hbits : ∀ i, t.bufBit i = (s.bufBit i || (decide (c ≤ i ∧ i < c + b) && fld.testBit (i - c))))

include hbits

/-- A field written into clear bits is read back. -/
theorem field_of_written (hlt : fld < 2 ^ b) (hclear : s.fieldClear c b) : t.field c b = fld := by
  refine field_eq _ hlt fun j hj => ?_
  have hin : c ≤ c + j ∧ c + j < c + b := by omega
  rw [hbits, hclear j hj, decide_eq_true hin, Nat.add_sub_cancel_left, Bool.false_or, Bool.true_and]

theorem bufBit_outside_written {i : ℕ} (h : i < c ∨ c + b ≤ i) : t.bufBit i = s.bufBit i := by
  have hout : ¬ (c ≤ i ∧ i < c + b) := by omega
  rw [hbits, decide_eq_false hout, Bool.false_and, Bool.or_false]

end

/-- PACK of the HOST into clear bits of the buffer. -/
theorem issue_pack {s : State} (v : Word) (hw : s.bw.toNat ≠ 0) (hwf : s.params.wf)
    (hb : s.wcur.toNat + s.bw.toNat ≤ 8 * s.params.bufBytes) (hclear : s.fieldClear s.wcur.toNat s.bw.toNat) :
    ∃ t, issue .pack v s = .next t ∧ Packed s v t :=
  have hbits := bufBit_setField (s.withCommand .pack v) s.wcur.toNat (encodeField s.bw.toNat v.toInt) s.bw.toNat
  ⟨_, exec_pack_in_bounds (s := s.withCommand .pack v) hw hb,
    { params := setField_params ..
      bw := setField_bw ..
      err := setField_err ..
      wcur := toNat_cursor hwf hb
      field := field_of_written hbits (encodeField_lt (Nat.one_le_iff_ne_zero.mpr hw) _) hclear
      outside := fun _ => bufBit_outside_written hbits }⟩

/-- Settles O40: by induction on the values. The first field lies below the bits that the rest writes, and the rest
finds its own bits clear. -/
theorem packedStreamHoldsTheValues : Obligations.PackedStreamHoldsTheValues := by
  intro s vs c0 b hc hb hb0 hb64 hwf hroom hclear hfits
  induction vs generalizing s c0 with
  | nil => exact ⟨s, rfl, rfl, by simp [hc], fun _ _ => rfl, nofun⟩
  | cons v vs ih =>
    subst hc hb
    obtain ⟨hv, hvs⟩ := List.forall_mem_cons.mp hfits
    rw [List.length_cons, Nat.succ_mul] at hroom hclear ⊢
    obtain ⟨t, ht, h⟩ := issue_pack v hb0 hwf (by omega) fun j hj => hclear j (Nat.lt_add_left _ hj)
    have hrest : t.fieldClear (s.wcur.toNat + s.bw.toNat) (vs.length * s.bw.toNat) := fun j hj => by
      rw [h.outside _ (by omega), Nat.add_assoc]
      exact hclear _ (by omega)
    obtain ⟨u, hu, herr, hcur, hout, hvals⟩ := ih t (s.wcur.toNat + s.bw.toNat) h.wcur.symm (by rw [h.bw])
      (by rwa [h.params]) (by rw [h.params]; omega) hrest hvs
    refine ⟨u, by rw [issueAll, ht]; exact hu, herr.trans h.err, by omega, fun i hi => ?_, fun j w hw => ?_⟩
    · rw [hout i (by omega), h.outside i (by omega)]
    · cases j with
      | zero =>
        cases hw
        have hkept : u.field s.wcur.toNat s.bw.toNat = t.field s.wcur.toNat s.bw.toNat :=
          field_congr fun i hi => hout _ (by omega)
        rw [Nat.zero_mul, Nat.add_zero, hkept, h.field, decodeField_encodeField_of_fits hv]
      | succ j =>
        rw [Nat.succ_mul, Nat.add_comm (j * _), ← Nat.add_assoc]
        exact hvals j w hw

end Sys2Proof.Proofs
end

section
/-! PROOFS. The bit unpacker (44_bit_unpacker.md): encoding and decoding a field undo each other (R170, R173), UNPACK
(R172), and PACK and then UNPACK at one cursor (R173). -/

namespace Sys2Proof.Proofs

open Sys2Proof Sys2Proof.Machine Sys2Proof.Laws

/-! The coding of a field (R170, R173) -/

theorem natCast_fieldMagnitude (v : ℤ) : (fieldMagnitude v : ℤ) = if v < 0 then complement v else v := by
  rw [fieldMagnitude, complement]
  split <;> omega

theorem complement_complement (v : ℤ) : complement (complement v) = v := by
  rw [complement, complement]
  omega

/-- The sign bit of a field is the sign of the value it decodes to. -/
theorem decodeField_neg_iff (b fld : ℕ) : decodeField b fld < 0 ↔ fld.testBit (b - 1) = true := by
  rw [decodeField, complement]
  split
  next h => exact iff_of_true (by omega) h
  next h => exact iff_of_false (not_lt.mpr (Int.natCast_nonneg _)) h

/-- The magnitude of a decoded field is what stands below its sign bit. -/
theorem fieldMagnitude_decodeField (b fld : ℕ) : fieldMagnitude (decodeField b fld) = fld % 2 ^ (b - 1) := by
  rw [fieldMagnitude, if_congr (decodeField_neg_iff b fld) rfl rfl, decodeField]
  split
  · rw [complement_complement, Int.toNat_natCast]
  · rw [Int.toNat_natCast]

theorem fitsWidth_of_fieldMagnitude_lt {b : ℕ} {v : ℤ} (h : fieldMagnitude v < 2 ^ (b - 1)) : fitsWidth b v := by
  zify at h
  rw [natCast_fieldMagnitude, complement] at h
  rw [fitsWidth]
  split at h <;> omega

/-- A field of `b` bits is its sign bit above the `b - 1` low bits. -/
theorem encodeField_decodeField {b fld : ℕ} (hb : 1 ≤ b) (h : fld < 2 ^ b) : encodeField b (decodeField b fld) = fld := by
  obtain ⟨n, rfl⟩ := Nat.exists_eq_add_of_le' hb
  have hsign : (fld.testBit n).toNat = fld / 2 ^ n := by
    rw [Nat.toNat_testBit, Nat.mod_eq_of_lt (Nat.div_lt_of_lt_mul (by rwa [← pow_succ]))]
  rw [encodeField_eq, fieldMagnitude_decodeField, Nat.mod_mod]
  simp only [decodeField_neg_iff, Nat.add_sub_cancel, Bool.decide_eq_true, hsign, Nat.div_add_mod]

/-- Settles O35: decoding cuts the magnitude to `b - 1` bits under the sign, which loses nothing of a value that fits;
and a decoded field has its own low bits as magnitude, so it fits and encodes to the field. -/
theorem fieldCodingRoundTrips : Obligations.FieldCodingRoundTrips := by
  refine fun b hb => ⟨fun v => decodeField_encodeField_of_fits, fun v hv => ?_, fun v hv => ?_, fun fld hfld =>
    ⟨encodeField_decodeField hb hfld, fitsWidth_of_fieldMagnitude_lt ?_⟩⟩
  · rw [decodeField_encodeField, if_neg (not_lt.mpr hv), Int.natCast_mod, natCast_fieldMagnitude,
      if_neg (not_lt.mpr hv), Nat.cast_pow, Nat.cast_ofNat]
  · rw [decodeField_encodeField, if_pos hv, Int.natCast_mod, natCast_fieldMagnitude, if_pos hv, Nat.cast_pow,
      Nat.cast_ofNat, complement, complement]
    omega
  · rw [fieldMagnitude_decodeField]
    exact Nat.mod_lt _ (Nat.two_pow_pos _)

/-! UNPACK (R172) -/

section

variable {s : State}

theorem exec_unpack_no_width (h : s.width = 0) : exec .unpack s =
    .next { s with err := true, cause := 7, pending := { s.pending with valid := false } } := by
  rw [exec, execUnpack, if_pos h]
  rfl

theorem exec_unpack_out_of_bounds (h : s.width ≠ 0) (hb : s.bitSpace < s.rpos + s.width) : exec .unpack s =
    .next { s with err := true, cause := 8, pending := { s.pending with valid := false } } := by
  rw [exec, execUnpack, if_neg h, if_pos hb]
  rfl

theorem exec_unpack_in_bounds (h : s.width ≠ 0) (hb : s.rpos + s.width ≤ s.bitSpace) : exec .unpack s =
    .next { s with
      result := bits64 (decodeField s.width (s.field s.rpos s.width))
      rcur := BitVec.ofNat 64 (s.rpos + s.width), pending := { s.pending with valid := false } } := by
  rw [exec, execUnpack, if_neg h, if_neg (not_lt.mpr hb), commit_ok]
  rfl

end

/-- Settles O38: the field read has the bits of BUF, and one lemma per fault. -/
theorem unpackReadsTheField : Obligations.UnpackReadsTheField := by
  refine fun s => ⟨exec_unpack_no_width, exec_unpack_out_of_bounds, fun h hb =>
    ⟨_, _, field_lt s s.rpos s.width, fun j hj => ?_, fun hwf => toNat_cursor hwf hb, exec_unpack_in_bounds h hb⟩⟩
  rw [testBit_field, State.width, decide_eq_true hj, Bool.true_and, State.rpos]

/-! PACK and then UNPACK (R173) -/

/-- UNPACK of the HOST at a cursor where a whole field stands in the buffer. -/
theorem issue_unpack {t : State} {c : Word} {b fld : ℕ} (hbw : t.bw.toNat = b) (hb0 : b ≠ 0)
    (hroom : c.toNat + b ≤ 8 * t.params.bufBytes) (hfld : t.field c.toNat b = fld) :
    ∃ u, issue .unpack 0 { t with rcur := c } = .next u ∧ u.err = t.err ∧ u.result = bits64 (decodeField b fld) ∧
      u.rcur = BitVec.ofNat 64 (c.toNat + b) := by
  subst hbw hfld
  refine ⟨_, exec_unpack_in_bounds (s := State.withCommand { t with rcur := c } .unpack 0) hb0 hroom, rfl, ?_, rfl⟩
  exact congrArg (fun fld => bits64 (decodeField t.bw.toNat fld)) (field_congr fun _ _ => rfl)

/-- Settles O39: UNPACK reads back the field that PACK wrote, and decoding undoes the encoding. -/
theorem packThenUnpackReturnsTheValue : Obligations.PackThenUnpackReturnsTheValue := by
  rintro s v _ hb0 - hwf rfl hroom hclear hfits
  obtain ⟨t, ht, h⟩ := issue_pack v hb0 hwf hroom hclear
  obtain ⟨u, hu, herr, hresult, hrcur⟩ := issue_unpack (congrArg BitVec.toNat h.bw) hb0
    (by rwa [h.params]) h.field
  refine ⟨t, u, ht, hu, herr.trans h.err, ?_, ?_⟩
  · rw [hresult, decodeField_encodeField_of_fits hfits, bits64, BitVec.ofInt_toInt]
  · rw [hrcur, ← h.wcur, BitVec.ofNat_toNat, BitVec.setWidth_eq]

end Sys2Proof.Proofs
end

section
/-! PROOFS. Nothing stops the machine (60_exceptions.md R203, 70_reset_and_hazards.md R237), and a command completes
whole or faults whole (60_exceptions.md R203, R206, R208). -/

namespace Sys2Proof.Proofs

open Sys2Proof Sys2Proof.Machine Sys2Proof.Laws

/-- Settles O41: a completed command has the `Effect` of a command that does not fault, and a fault is `takeFault`. -/
theorem commandsCompleteOrFaultWhole : Obligations.CommandsCompleteOrFaultWhole := by
  intro i s
  obtain ⟨t, ht⟩ := exec_next i s
  refine ⟨t, ht, ?_⟩
  rcases exec_cases ht with ⟨u, hu, rfl⟩ | ⟨c, rfl⟩
  · exact ⟨by rw [finish_pending, hu.pending], .inr ⟨hu.err, hu.cause⟩⟩
  · exact ⟨rfl, .inl ⟨c, rfl⟩⟩

/-- Settles O6: one lemma per turn; a turn of the CORE answers what the CORE's step does (`coreStep_next`). -/
theorem noStepStops : Obligations.NoStepStops := by
  intro s
  match ha : s.agenda with
  | [] => rw [step_nil ha]; exact coreStep_next s
  | .core :: ts => rw [step_core ha]; exact coreStep_next _
  | .host _ :: _ => exact ⟨_, step_host ha⟩
  | .wait n :: _ =>
    cases hb : s.busy with
    | false => exact ⟨_, step_wait_idle ha hb⟩
    | true =>
      cases n with
      | zero => rw [step_wait_zero ha hb]; exact coreStep_next s
      | succ k => exact ⟨_, step_wait_busy ha hb⟩

end Sys2Proof.Proofs
end

section
/-! PROOFS. Reset (70_reset_and_hazards.md R230 to R232), and the HOST beside a pending command: what it may write (R234,
R235) and read (R236) while BUSY is 1, and that the command completes (R237). -/

namespace Sys2Proof.Proofs

open Sys2Proof Sys2Proof.Machine Sys2Proof.Laws

/-! The reset values (R230, R231) -/

/-- STATUS reads 0 when no flag is set and no command is pending (10_state.md R24). -/
theorem statusWord_eq_zero {s : State} (hb : s.busy = false) (he : s.err = false) (hs : s.sat = false)
    (ho : s.ovrn = false) (hc : s.cause = 0) : s.statusWord = 0 := by
  rw [State.statusWord, hb, he, hs, ho, hc]
  rfl

/-- Settles O59: Reset writes every field but the parameters, and `State.reset` has the same values. -/
theorem resetSetsTheResetValues : Obligations.ResetSetsTheResetValues := by
  refine fun s t => ⟨?_, ?_⟩
  · rintro rfl
    rfl
  · rintro (rfl | rfl) <;>
      exact ⟨rfl, rfl, rfl, rfl, rfl, rfl, rfl, rfl, statusWord_eq_zero rfl rfl rfl rfl rfl, rfl⟩

/-! The commands of an unconfigured core (R232) -/

section

variable {s : State} (a : Word)

theorem issue_of_no_scale (h : s.scale = 0) :
    ∀ i ∈ ([.quantS, .quantD, .dequantS, .dequantD, .estFinS, .estFinD] : List Instr),
      ∃ t, issue i a s = .next t ∧ t.err = true ∧ t.cause = 5 :=
  List.forall_iff_forall_mem.mp
    ⟨⟨_, exec_quantOf_no_scale (s := s.withCommand .quantS a) .S h, rfl, rfl⟩,
      ⟨_, exec_quantOf_no_scale (s := s.withCommand .quantD a) .D h, rfl, rfl⟩,
      ⟨_, dequant_no_scale (s := s.withCommand .dequantS a) .S h, rfl, rfl⟩,
      ⟨_, dequant_no_scale (s := s.withCommand .dequantD a) .D h, rfl, rfl⟩,
      ⟨_, exec_estFinOf_no_scale (s := s.withCommand .estFinS a) .S h, rfl, rfl⟩,
      ⟨_, exec_estFinOf_no_scale (s := s.withCommand .estFinD a) .D h, rfl, rfl⟩⟩

theorem issue_of_no_width (h : s.width = 0) :
    ∀ i ∈ ([.pack, .unpack] : List Instr), ∃ t, issue i a s = .next t ∧ t.err = true ∧ t.cause = 7 :=
  List.forall_iff_forall_mem.mp
    ⟨⟨_, exec_pack_no_width (s := s.withCommand .pack a) h, rfl, rfl⟩,
      ⟨_, exec_unpack_no_width (s := s.withCommand .unpack a) h, rfl, rfl⟩⟩

/-- EST.CLR, BUFCLR and the cursor commands check nothing. -/
theorem issue_unchecked (h : s.err = false) :
    ∀ i ∈ ([.estClr, .bufclr, .setwcur, .setrcur] : List Instr), ∃ t, issue i a s = .next t ∧ t.err = false :=
  List.forall_iff_forall_mem.mp
    ⟨⟨_, rfl, h⟩, ⟨_, exec_bufclr (s.withCommand .bufclr a), h⟩, ⟨_, exec_setwcur (s.withCommand .setwcur a), h⟩,
      ⟨_, exec_setrcur (s.withCommand .setrcur a), h⟩⟩

end

/-- Settles O60: after a reset SCALE, BW and ERR are 0. -/
theorem afterResetConfigurationIsRequired : Obligations.AfterResetConfigurationIsRequired := by
  intro s a
  refine ⟨issue_of_no_scale a rfl, issue_of_no_width a rfl, issue_unchecked a rfl, fun F hF => ?_, fun hlo hhi => ?_,
    fun n hn => ?_⟩
  · obtain ⟨m, pe, hissue, -⟩ := issue_estAcc s.resetCore hF
    exact ⟨_, hissue, rfl⟩
  · exact ⟨_, exec_setbw_in_range (s := s.resetCore.withCommand .setbw a) hlo hhi, rfl⟩
  · exact ⟨_, exec_setprec_ok (s := s.resetCore.withCommand .setprec a) hn, rfl, rfl⟩

/-! Writes while BUSY is 1 (R235) -/

/-- An aligned access of 8 bytes below 0x1000 is to a register or to a reserved offset (10_state.md R42). -/
theorem place_eight_below (s : State) {off : ℕ} (h : off < 0x1000) (ha : off % 8 = 0) :
    (∃ r, s.place off .eight = .register r) ∨ s.place off .eight = .reserved := by
  by_cases hr : ∃ r : Reg, off = r.offset
  · obtain ⟨r, rfl⟩ := hr
    exact .inl ⟨r, place_offset s r⟩
  · exact .inr (place_reserved s h ha (not_exists.mp hr))

theorem hostStep_write_below_busy {s : State} (hb : s.busy = true) (v : Word) {off : ℕ} (h : off < 0x1000)
    (ha : off % 8 = 0) : s.hostStep (.write off v) = s.noteOverrun := by
  rw [State.hostStep]
  rcases place_eight_below s h ha with ⟨r, e⟩ | e <;> rw [e, State.writePlace, if_pos hb]

/-- Settles O50: the offset or the byte is a register's, reserved, or in the buffer, and there a write overruns. -/
theorem busyWritesAreIgnored : Obligations.BusyWritesAreIgnored := by
  intro s v b hb
  have hbelow : ∀ off, off < 0x1000 → off % 8 = 0 → s.hostStep (.write off v) = s.noteOverrun :=
    fun _ => hostStep_write_below_busy hb v
  refine ⟨hbelow, hbelow, fun i hi => ?_, fun a n ha hn => ?_⟩
  · rw [State.hostStep, bytePlace_inside s hi]
    exact if_pos hb
  · rw [State.hostStep, place_inside s ha hn]
    exact if_pos hb

/-! Reads that are always defined (R236, 10_state.md R42) -/

/-- STATUS, CMD and PARAMS read what they hold, BUSY or not. -/
theorem readPlace_readableBusy (s : State) (x : HostTxn) (n : ℕ) {r : Reg} (hr : r.readableBusy = true) :
    s.readPlace x n (.register r) = s.observe x (s.readReg r) := by
  rw [State.readPlace, hr, Bool.not_true, Bool.and_false, if_neg Bool.false_ne_true]

theorem hostStep_read_readableBusy (s : State) {r : Reg} (hr : r.readableBusy = true) :
    s.hostStep (.read r.offset) = s.observe (.read r.offset) (s.readReg r) := by
  rw [State.hostStep, place_offset, readPlace_readableBusy s _ 8 hr]

/-- The registers have the multiples of 8 below 0x058 (20_memory.md R54). -/
theorem offset_bounds (r : Reg) : r.offset < 0x058 ∧ r.offset % 8 = 0 := by cases r <;> decide

/-- An aligned access at an offset that is no register's, or any access outside the window, reads 0 (10_state.md R42). -/
theorem readPlace_of_no_register (s : State) (x : HostTxn) {off : ℕ} {n : AccessSize} (m : ℕ)
    (h : (off < 0x1000 ∧ off % n.bytes = 0 ∧ (0x058 ≤ off ∨ off % 8 ≠ 0)) ∨ 0x1000 + s.params.bufBytes ≤ off) :
    s.readPlace x m (s.place off n) = s.observe x 0 := by
  rcases h with ⟨hlt, ha, hoff⟩ | hout
  · have hr : ∀ r : Reg, off ≠ r.offset := fun r => by
      have := offset_bounds r
      omega
    by_cases hn : n = .eight
    · subst hn
      rw [place_reserved s hlt ha hr, State.readPlace]
    · rw [place_vacant s hlt ha hn hr, State.readPlace]
  · rw [place_outside s n hout, State.readPlace]

/-- Settles O54: the three registers are those readable while BUSY is 1, and elsewhere no register is read. -/
theorem readsThatAreAlwaysDefined : Obligations.ReadsThatAreAlwaysDefined := fun s =>
  ⟨hostStep_read_readableBusy s (r := .status) rfl, hostStep_read_readableBusy s (r := .cmd) rfl,
    hostStep_read_readableBusy s (r := .params) rfl,
    fun _ h => readPlace_of_no_register s _ (n := .eight) 8 (h.imp_left fun ⟨hlt, hoff, ha⟩ => ⟨hlt, ha, .inl hoff⟩),
    fun _ n h => readPlace_of_no_register s _ n.bytes h⟩

/-! What a turn leaves of the agenda and of PENDING -/

section

variable {s t : State}

theorem writeReg_agenda (s : State) (v : Word) (r : Reg) : (s.writeReg v r).agenda = s.agenda := by
  rcases writeReg_cases s v r with e | ⟨-, e⟩ | e | e <;> rw [e]
  rw [ackStatus_eq]

/-- No transaction touches the turns to come (log 2). -/
theorem hostStep_agenda (s : State) (x : HostTxn) : (s.hostStep x).agenda = s.agenda := by
  rcases hostStep_cases s x with e | ⟨-, e⟩ | ⟨v, e⟩ | ⟨n, e⟩ | ⟨-, e⟩ | ⟨-, v, r, e⟩ | ⟨-, a, v, n, -, e⟩
  · rw [e]
  · rw [e, resetCore_agenda]
  · rw [e, observe_agenda]
  · rw [e, observeFree_agenda]
  · rw [e, noteOverrun_agenda]
  · rw [e, writeReg_agenda]
  · rw [e, memWrite_agenda]

/-- While a command is pending only a Reset touches PENDING (R231, R235). -/
theorem hostStep_pending_of_busy (hb : s.busy = true) {x : HostTxn} (hx : x ≠ .reset) :
    (s.hostStep x).pending = s.pending := by
  rcases hostStep_cases s x with e | ⟨hreset, -⟩ | ⟨v, e⟩ | ⟨n, e⟩ | ⟨-, e⟩ | ⟨hidle, -⟩ | ⟨hidle, -⟩
  · rw [e]
  · exact absurd hreset hx
  · rw [e, observe_pending]
  · rw [e, observeFree_pending]
  · rw [e, noteOverrun_pending]
  all_goals exact absurd (hidle.symm.trans hb) Bool.false_ne_true

/-- The CORE's step ends with BUSY = 0 and touches neither the agenda nor OVRN (10_state.md R23, R29). -/
theorem coreStep_ends (h : coreStep s = .next t) : t.busy = false ∧ t.agenda = s.agenda ∧ t.ovrn = s.ovrn := by
  rcases coreStep_completes h with ⟨hidle, rfl⟩ | ⟨-, i, u, -, hu, rfl⟩ | ⟨-, c, rfl⟩
  · exact ⟨hidle, rfl, rfl⟩
  · exact ⟨rfl, hu.effect.agenda, hu.effect.ovrn⟩
  · exact ⟨rfl, rfl, rfl⟩

end

/-! A pending command completes (R237) -/

section

variable {s t : State}

theorem run_succ_of_step (h : step s = .next t) (k : ℕ) :
    Host.Core.run Sys2Proof.core (k + 1) s = Host.Core.run Sys2Proof.core k t := by
  have h : Sys2Proof.core.step s = .next t := h
  simp only [Host.Core.run, h]

theorem resetBeforeCore_host {x : HostTxn} (hx : x ≠ .reset) (ts : List Turn) :
    resetBeforeCore (.host x :: ts) = resetBeforeCore ts := by
  cases x with
  | reset => exact absurd rfl hx
  | _ => rfl

/-- The next step is the CORE's, its turn taken off the agenda if it stands there (log 2). -/
def CoresTurn (s : State) : Prop := ∃ ts, step s = coreStep { s with agenda := ts }

/-- The polls of a `wait` lead to the CORE's turn, with the command pending as it was. -/
theorem run_wait {n : ℕ} {ts : List Turn} (ha : s.agenda = .wait n :: ts) (hb : s.busy = true) :
    ∃ t, Host.Core.run Sys2Proof.core n s = .next t ∧ t.pending = s.pending ∧ CoresTurn t := by
  induction n generalizing s with
  | zero => exact ⟨s, rfl, rfl, s.agenda, step_wait_zero ha hb⟩
  | succ n ih =>
    have hpoll := step_wait_busy ha hb
    rw [pollStatus_eq] at hpoll
    rw [run_succ_of_step hpoll]
    exact ih rfl hb

/-- Without a Reset the turns before the CORE's lead to it, with the command pending as it was. -/
theorem run_stepsBeforeCore {ts : List Turn} (ha : s.agenda = ts) (hb : s.busy = true)
    (hr : resetBeforeCore ts = false) :
    ∃ t, Host.Core.run Sys2Proof.core (stepsBeforeCore ts) s = .next t ∧ t.pending = s.pending ∧ CoresTurn t := by
  induction ts generalizing s with
  | nil => exact ⟨s, rfl, rfl, s.agenda, step_nil ha⟩
  | cons turn ts ih =>
    cases turn with
    | core => exact ⟨s, rfl, rfl, ts, step_core ha⟩
    | wait n => exact run_wait ha hb
    | host x =>
      have hx : x ≠ .reset := by rintro rfl; cases hr
      rw [resetBeforeCore_host hx] at hr
      have hp : (State.hostStep { s with agenda := ts } x).pending = s.pending :=
        hostStep_pending_of_busy (s := { s with agenda := ts }) hb hx
      have hb' : (State.hostStep { s with agenda := ts } x).busy = true := by rw [State.busy, hp]; exact hb
      obtain ⟨t, hrun, hpt, hturn⟩ := ih (hostStep_agenda _ x) hb' hr
      rw [stepsBeforeCore, Nat.add_comm, run_succ_of_step (step_host ha)]
      exact ⟨t, hrun, hpt.trans hp, hturn⟩

/-- A Reset before the CORE's turn abandons what is pending (R231). -/
theorem run_resetBeforeCore {ts : List Turn} (ha : s.agenda = ts) (hr : resetBeforeCore ts = true) :
    ∃ k t, k ≤ stepsBeforeCore ts ∧ Host.Core.run Sys2Proof.core k s = .next t ∧ t.busy = false := by
  induction ts generalizing s with
  | nil => cases hr
  | cons turn ts ih =>
    cases turn with
    | core | wait => cases hr
    | host x =>
      by_cases hx : x = .reset
      · subst hx
        refine ⟨1, _, ?_, run_succ_of_step (step_host ha) 0, rfl⟩
        rw [stepsBeforeCore]
        omega
      · rw [resetBeforeCore_host hx] at hr
        obtain ⟨k, t, hk, hrun, hidle⟩ := ih (hostStep_agenda { s with agenda := ts } x) hr
        refine ⟨k + 1, t, ?_, (run_succ_of_step (step_host ha) k).trans hrun, hidle⟩
        rw [stepsBeforeCore]
        omega

end

/-- Settles O7: the turns before the CORE's keep PENDING, and the CORE's step ends the command; a Reset among them
abandons it. -/
theorem pendingCommandCompletes : Obligations.PendingCommandCompletes := by
  refine fun s hb => ⟨fun hr => ?_, run_resetBeforeCore rfl⟩
  obtain ⟨t, hrun, hp, ts, hturn⟩ := run_stepsBeforeCore rfl hb hr
  obtain ⟨u, hu⟩ := coreStep_next { t with agenda := ts }
  obtain ⟨hidle, ha, -⟩ := coreStep_ends hu
  refine ⟨t, u, hrun, hp, hturn.trans hu, hidle, fun i hi => ?_⟩
  have hbt : ({ t with agenda := ts } : State).busy = true := by rw [State.busy, hp]; exact hb
  have hexec := coreStep_of_decode (s := { t with agenda := ts }) hbt (by rw [hp]; exact hi)
  rw [ha, ← hexec]
  exact hu

/-! The `wait` obligation (R234) -/

/-- The HOST keeps its obligation in the turns to come, and no write has been ignored. -/
def KeepsWait (s : State) : Prop := obeysWait s.busy s.agenda = true ∧ s.ovrn = false

theorem not_issues_of_polls {t : Turn} (h : t.polls = true) : t.issues = false := by
  cases t with
  | core | wait => rfl
  | host x =>
    cases x with
    | write | bufWrite | busWrite | bufRead | reset => cases h
    | read | busRead => rfl

@[simp] theorem obeysWait_wait (b : Bool) (n : ℕ) (ts : List Turn) :
    obeysWait b (.wait n :: ts) = obeysWait false ts := by cases b <;> rfl

@[simp] theorem obeysWait_core (b : Bool) (ts : List Turn) :
    obeysWait b (.core :: ts) = obeysWait b ts := by cases b <;> rfl

/-- After a CMD write without its `wait` the HOST resets, or reads STATUS and has still to `wait`. -/
theorem obeysWait_host {x : HostTxn} {ts : List Turn} (h : obeysWait true (.host x :: ts) = true) :
    (x = .reset ∧ obeysWait false ts = true) ∨ (Turn.polls (.host x) = true ∧ obeysWait true ts = true) := by
  cases x with
  | reset => exact .inl ⟨rfl, h⟩
  | _ => exact .inr (Bool.and_eq_true_iff.mp h)

/-- Turns that keep the obligation while a `wait` is owed keep it while none is. -/
theorem obeysWait_false {ts : List Turn} (h : obeysWait true ts = true) : obeysWait false ts = true := by
  induction ts with
  | nil => rfl
  | cons turn ts ih =>
    cases turn with
    | core => exact ih h
    | wait n => exact h
    | host x =>
      rcases obeysWait_host h with ⟨rfl, h⟩ | ⟨hpoll, h⟩
      · exact h
      · rw [obeysWait, not_issues_of_polls hpoll]
        exact ih h

theorem obeysWait_mono {b c : Bool} {ts : List Turn} (hbc : b = true → c = true) (h : obeysWait c ts = true) :
    obeysWait b ts = true := by
  cases b with
  | true => rwa [hbc rfl] at h
  | false =>
    cases c with
    | true => exact obeysWait_false h
    | false => exact h

section

variable {s t : State} {x : HostTxn} {ts : List Turn}

/-- A HOST turn that reads STATUS observes it and does nothing else. -/
theorem hostStep_of_polls (s : State) (h : Turn.polls (.host x) = true) : s.hostStep x = s.observe x s.statusWord := by
  have hplace : s.readPlace x 8 (s.place Reg.status.offset .eight) = s.observe x s.statusWord := by
    rw [place_offset]
    exact readPlace_readableBusy s x 8 rfl
  cases x with
  | read off => obtain rfl := beq_iff_eq.mp h; exact hplace
  | busRead off n =>
    cases n with
    | eight => obtain rfl := beq_iff_eq.mp h; exact hplace
    | _ => cases h
  | _ => cases h

/-- Only a write to CMD makes a command pending (10_state.md R23). -/
theorem writePlace_busy {n : ℕ} {v : Word} {p : Place} (hb : s.busy = false) (h : (s.writePlace n v p).busy = true) :
    p = .register .cmd := by
  have hkeep : (s.writePlace n v p).pending = s.pending → p = .register .cmd := fun hp => by
    rw [State.busy, hp] at h
    exact absurd (hb.symm.trans h) Bool.false_ne_true
  cases p with
  | register r =>
    rw [State.writePlace, hb, if_neg Bool.false_ne_true] at hkeep
    cases r with
    | cmd => rfl
    | status => exact hkeep (by rw [State.writeReg, ackStatus_eq])
    | _ => exact hkeep rfl
  | reserved => exact hkeep (by rw [State.writePlace, hb, if_neg Bool.false_ne_true])
  | buffer i => exact hkeep (by rw [State.writePlace, hb, if_neg Bool.false_ne_true]; exact memWrite_pending ..)
  | vacant | outside | irregular => exact hkeep rfl

/-- A transaction after which a command is pending was a CMD write. -/
theorem issues_of_hostStep_busy (hb : s.busy = false) (h : (s.hostStep x).busy = true) :
    Turn.issues (.host x) = true := by
  have hread : ∀ n p, (s.readPlace x n p).busy ≠ true := fun n p => by
    obtain ⟨v, k, e⟩ := readPlace_records s x n p
    rw [e]
    exact Bool.eq_false_iff.mp hb
  cases x with
  | write off v =>
    obtain ⟨rfl, -⟩ := place_register (writePlace_busy hb h)
    rfl
  | busWrite off n v =>
    obtain ⟨rfl, rfl⟩ := place_register (writePlace_busy hb h)
    rfl
  | bufWrite i b =>
    have hp : s.bytePlace i = .register .cmd := writePlace_busy hb h
    rw [State.bytePlace] at hp
    split at hp <;> cases hp
  | reset => cases h
  | read | bufRead | busRead => exact absurd h (hread _ _)

/-- A transaction that the obligation allows leaves it kept, and overruns nothing. -/
theorem hostStep_keepsWait (h : obeysWait s.busy (.host x :: ts) = true) (ho : s.ovrn = false) :
    obeysWait (s.hostStep x).busy ts = true ∧ (s.hostStep x).ovrn = false := by
  cases hb : s.busy with
  | true =>
    rw [hb] at h
    rcases obeysWait_host h with ⟨rfl, h⟩ | ⟨hpoll, h⟩
    · exact ⟨h, rfl⟩
    · rw [hostStep_of_polls s hpoll]
      exact ⟨obeysWait_mono (fun _ => rfl) h, ho⟩
  | false =>
    rw [hb, obeysWait] at h
    refine ⟨obeysWait_mono (issues_of_hostStep_busy hb) h, ?_⟩
    rcases hostStep_flags s x with hk | ⟨-, e⟩ | ⟨hbusy, -⟩ | ⟨-, v, -, e⟩
    · exact hk.ovrn.trans ho
    · rw [e]; rfl
    · exact absurd (hb.symm.trans hbusy) Bool.false_ne_true
    · rw [e, ackStatus_eq]
      exact Bool.and_eq_false_imp.mpr fun h1 => absurd (ho.symm.trans h1) Bool.false_ne_true

/-- The CORE's step leaves the obligation kept. -/
theorem coreStep_keepsWait (hs : KeepsWait s) (h : coreStep s = .next t) : KeepsWait t := by
  obtain ⟨hwait, ho⟩ := hs
  obtain ⟨hidle, ha, hovrn⟩ := coreStep_ends h
  refine ⟨?_, hovrn.trans ho⟩
  rw [hidle, ha]
  exact obeysWait_mono nofun hwait

/-- Every step leaves the obligation kept. -/
theorem step_keepsWait (hs : KeepsWait s) (h : step s = .next t) : KeepsWait t := by
  have ⟨hwait, ho⟩ := hs
  rcases step_cases h with ⟨-, h⟩ | ⟨ts, ha, h⟩ | ⟨-, -, -, -, -, h⟩ | ⟨x, ts, ha, rfl⟩ | ⟨n, ts, ha, -, rfl⟩ |
    ⟨n, ts, ha, hb, rfl⟩
  · exact coreStep_keepsWait hs h
  · rw [ha, obeysWait_core] at hwait
    exact coreStep_keepsWait (s := { s with agenda := ts }) ⟨hwait, ho⟩ h
  · exact coreStep_keepsWait hs h
  · rw [ha] at hwait
    rw [KeepsWait, hostStep_agenda]
    exact hostStep_keepsWait (s := { s with agenda := ts }) hwait ho
  · rw [ha, obeysWait_wait] at hwait
    rw [hostStep_of_polls _ rfl]
    exact ⟨(obeysWait_wait _ n ts).trans hwait, ho⟩
  · rw [ha, obeysWait_wait, ← hb] at hwait
    rw [hostStep_of_polls _ rfl]
    exact ⟨hwait, ho⟩

end

/-- What every step keeps holds at the end of every run. -/
theorem run_keeps {P : State → Prop} (hstep : ∀ s t, P s → step s = .next t → P t) {k : ℕ} {s t : State} (hs : P s)
    (h : Host.Core.run Sys2Proof.core k s = .next t) : P t := by
  induction k generalizing s with
  | zero => cases h; exact hs
  | succ k ih =>
    obtain ⟨u, hu⟩ := noStepStops s
    rw [run_succ_of_step hu] at h
    exact ih (hstep s u hs hu) h

/-- Settles O51: every step keeps `KeepsWait`, so every run does. -/
theorem obeyingTheWaitAvoidsOverrun : Obligations.ObeyingTheWaitAvoidsOverrun := fun _ _ _ hwait ho hrun =>
  run_keeps (P := KeepsWait) (fun _ _ => step_keepsWait) ⟨hwait, ho⟩ hrun

end Sys2Proof.Proofs
end
